-- ==== Sys2Proof/Word.lean ====
section
/-! DEFINITION. The plainest types of the block: bytes, 32-bit registers, bit strings (00_scope R11 to R13). -/

namespace Sys2Proof

/-- A byte, 0..255 (00_scope R11). -/
abbrev Byte := BitVec 8

/-- A 32-bit register value or command word (00_scope R12). -/
abbrev Word := BitVec 32

/-- A bit string in stream order: the head is the bit that comes first (00_scope R13). -/
abbrev Bits := List Bool

end Sys2Proof
end

