-- ==== Sys2Proof/Syntax.lean ====
section
/-! DEFINITION. The eleven commands (30_encoding R76) and the notation of host programs (30_encoding R85). -/

namespace Sys2Proof

/-- The commands of the opcode map (30_encoding R76), one constructor per row of spec/opcode_table.json. No command has
an immediate or a register operand (30_encoding R79). -/
inductive Instr where
  | build
  | tobits
  | chunk
  | join
  | tohex
  | fromhex
  | tokjoin
  | toksplit
  | decode
  | pack
  | unpack
  deriving DecidableEq, Repr

/-- An expression of a host program (30_encoding R85): a number, a host variable (`out[i]` is variable `out` at an index,
a plain variable is index 0), an element of a byte string written in the program, a sum or a difference, and a bit field
`a[hi:lo]` (00_scope R12), which the host calls of 41_host_text_transform R106 use. -/
inductive HostExpr where
  | lit (n : Nat)
  | var (x : Nat) (idx : HostExpr)
  | byteAt (bytes : List Byte) (idx : HostExpr)
  | add (a b : HostExpr)
  | sub (a b : HostExpr)
  | bits (a : HostExpr) (hi lo : Nat)
  deriving DecidableEq, Repr

/-- A statement of a host program (30_encoding R85). `rd 32` is RD32, `rd 8` is RD8, `wr 32` is WR32, `wr 8` is WR8; any
other width is an access the notation has no name for and the bus may still carry (20_memory R55, R57). Offsets are
relative to BLOCK_BASE. `seq` groups statements, as the body of COPYOUT's FOR does (30_encoding R86). `failIf code` is the
line `if code != 0: fail with error code` of the host calls of 41_host_text_transform R106 and R107 (log entry 17). DESIGN
CHOICE (log entry 24): POLL's mask and val are numbers, not expressions, and its offset may be an expression. -/
inductive HostStmt where
  | wr (width : Nat) (off : HostExpr) (val : HostExpr)
  | rd (width : Nat) (off : HostExpr) (x : Nat) (idx : HostExpr)
  | poll (off : HostExpr) (mask : Nat) (val : Nat)
  | forIn (i : Nat) (lo hi : HostExpr) (body : HostStmt)
  | seq (a b : HostStmt)
  | failIf (code : HostExpr)
  deriving DecidableEq, Repr

end Sys2Proof
end

