-- ==== Sys2Proof/Config.lean ====
section
/-! DEFINITION. What is fixed for the life of one block (00_scope R8), and the free values: what an unspecified read
returns (70_reset_and_hazards R152). The values this spec gives the parameters stand in Machine/Params.lean. -/

namespace Sys2Proof

/-- One entry of CODE_TABLE: a byte and its code (00_scope R8, 10_state R43). -/
structure Entry where
  char : Byte
  code : Bits
  deriving DecidableEq, Repr

/-- The parameters a block is instantiated with (00_scope R8). N_ENTRIES is the length of `codeTable`; FACADE_WIDTH and
SEP are fixed constants (Machine/Params.lean). DESIGN CHOICE (log entry 1): they are carried beside the state, so that a
statement about every state is a statement about every block. -/
structure Instance where
  codeTable  : List Entry
  maxCodeLen : Nat
  nodeCap    : Nat
  ibufSize   : Nat
  obufSize   : Nat
  blockBase  : Nat
  deriving DecidableEq, Repr

/-- The value of the n-th unspecified register read (70_reset_and_hazards R152, 93_implementation_defined U2): a free
value, about which nothing can be proved (log entry 6). -/
opaque Config.freeWord : Nat → Word

/-- The value of the n-th unspecified OBUF read (70_reset_and_hazards R152, 93_implementation_defined U2): a free value,
about which nothing can be proved (log entry 6). -/
opaque Config.freeByte : Nat → Byte

end Sys2Proof
end

