-- ==== Sys2Proof/Machine/Params.lean ====
section
/-! DEFINITION. The parameter values of this spec, the code table and its lookup, and which instances are valid
(00_scope R8, R9; 10_state R43 to R45). -/

namespace Sys2Proof.Machine

/-- FACADE_WIDTH, the chunk width of PACK and UNPACK (00_scope R8). -/
def facadeWidth : Nat := 8

/-- SEP, the token separator, a space (00_scope R8). -/
def sep : Byte := 0x20

/-- Bits written as a list of 0 and 1, as the code table of 10_state R45 prints them. -/
def bitsOf (digits : List Nat) : Bits := digits.map (fun d => d == 1)

/-- One row of the printed code table. -/
def entry (char : Byte) (digits : List Nat) : Entry := { char := char, code := bitsOf digits }

/-- Entries 0 to 13 of DEFAULT_TABLE (10_state R45). -/
def defaultTableLow : List Entry :=
  [ entry 0x20 [1,1],
    entry 0x21 [0,0,1,0,0,0],
    entry 0x61 [0,1,1],
    entry 0x62 [0,0,0,0,0,1,0],
    entry 0x63 [0,0,0,1,0,1],
    entry 0x64 [0,0,1,0,1],
    entry 0x65 [1,0,1],
    entry 0x66 [0,0,0,1,0,0],
    entry 0x67 [0,0,0,0,1,0,0],
    entry 0x68 [0,0,1,1],
    entry 0x69 [0,1,0,0,1],
    entry 0x6A [0,0,0,0,0,0,0,0,1],
    entry 0x6B [0,0,0,0,0,0,0,0,0,1],
    entry 0x6C [0,0,1,0,0,1] ]

/-- Entries 14 to 27 of DEFAULT_TABLE (10_state R45). -/
def defaultTableHigh : List Entry :=
  [ entry 0x6D [0,0,0,0,1,1],
    entry 0x6E [1,0,0,0,0],
    entry 0x6F [1,0,0,0,1],
    entry 0x70 [0,0,0,0,1,0,1],
    entry 0x71 [0,0,0,0,0,0,0,0,0,0,0,1],
    entry 0x72 [0,1,0,0,0],
    entry 0x73 [0,1,0,1],
    entry 0x74 [1,0,0,1],
    entry 0x75 [0,0,0,1,1],
    entry 0x76 [0,0,0,0,0,0,0,1],
    entry 0x77 [0,0,0,0,0,1,1],
    entry 0x78 [0,0,0,0,0,0,0,0,0,0,1],
    entry 0x79 [0,0,0,0,0,0,1],
    entry 0x7A [0,0,0,0,0,0,0,0,0,0,0,0] ]

/-- DEFAULT_TABLE, 28 entries in increasing order of char (10_state R45). UNVERIFIED (log entry 14): the spec itself says
that 17 of the codes are not confirmed by its source. -/
def defaultTable : List Entry := defaultTableLow ++ defaultTableHigh

/-- The parameter values of this spec (00_scope R8). DESIGN CHOICE (log entry 2): BLOCK_BASE, which the spec leaves
OPEN, is 0 here; every rule speaks of offsets only (20_memory R54). -/
def defaultInstance : Instance :=
  { codeTable := defaultTable, maxCodeLen := 12, nodeCap := 64, ibufSize := 65536, obufSize := 65536, blockBase := 0 }

/-- Lookup of a byte: the code of the entry of lowest index with that char, or none (10_state R44). -/
def lookup : List Entry → Byte → Option Bits
  | [], _ => none
  | e :: es, c => if e.char = c then some e.code else lookup es c

/-- The length of the longest common prefix of two codes. -/
def sharedLength : Bits → Bits → Nat
  | [], _ => 0
  | _, [] => 0
  | a :: as, b :: bs => if a == b then sharedLength as bs + 1 else 0

/-- The length of the longest prefix a code shares with one of the codes `seen` before it. -/
def longestShared (k : Bits) : List Bits → Nat
  | [] => 0
  | c :: cs => Nat.max (sharedLength c k) (longestShared k cs)

/-- |P|, the number of distinct non-empty prefixes of all codes of a list, counted code by code: a code adds the prefixes
longer than what it shares with a code before it (00_scope R9). -/
def prefixCount (seen : List Bits) : List Bits → Nat
  | [] => 0
  | k :: ks => (k.length - longestShared k seen) + prefixCount (k :: seen) ks

/-- The ranges of the parameters (00_scope R8): N_ENTRIES 1..256, MAX_CODE_LEN 1..32, NODE_CAP 2..256, IBUF_SIZE and
OBUF_SIZE 1..65536, BLOCK_BASE a multiple of 0x40000 (20_memory R54). -/
def paramsInRange (p : Instance) : Bool :=
  decide (1 ≤ p.codeTable.length ∧ p.codeTable.length ≤ 256 ∧ 1 ≤ p.maxCodeLen ∧ p.maxCodeLen ≤ 32 ∧
    2 ≤ p.nodeCap ∧ p.nodeCap ≤ 256 ∧ 1 ≤ p.ibufSize ∧ p.ibufSize ≤ 65536 ∧ 1 ≤ p.obufSize ∧ p.obufSize ≤ 65536 ∧
    p.blockBase % 0x40000 = 0)

/-- Condition 1 of 00_scope R9: every code is non-empty. -/
def codesNonEmpty (p : Instance) : Bool := p.codeTable.all (fun e => !e.code.isEmpty)

/-- Condition 2 of 00_scope R9: every code has length at most MAX_CODE_LEN. -/
def codesShort (p : Instance) : Bool := p.codeTable.all (fun e => decide (e.code.length ≤ p.maxCodeLen))

/-- Condition 3 of 00_scope R9: `1 + |P| <= NODE_CAP`. -/
def nodesFit (p : Instance) : Bool := decide (1 + prefixCount [] (p.codeTable.map (fun e => e.code)) ≤ p.nodeCap)

/-- Whether an instance is valid (00_scope R8, R9). A model refuses an instance that is not. Prefix-freedom is not a
condition. -/
def validInstance (p : Instance) : Bool := paramsInRange p && (codesNonEmpty p && (codesShort p && nodesFit p))

end Sys2Proof.Machine
end

