-- ==== Sys2Proof/WellFormed.lean ====
section
/-! DEFINITION. Well-formedness of commands, of host programs and of instances. A command has no operand (30_encoding
R79), so every command is well-formed; a host program uses only the access widths its notation has (30_encoding R85);
an instance meets 00_scope R8 and R9. -/

namespace Sys2Proof

/-- Every command is well-formed: it has no field that could be out of range (30_encoding R79). -/
def Instr.wf (_ : Instr) : Bool := true

/-- A statement is in the notation of 30_encoding R85: 32-bit and 8-bit accesses only. -/
def HostStmt.wf : HostStmt → Bool
  | .wr width _ _ => width == 32 || width == 8
  | .rd width _ _ _ => width == 32 || width == 8
  | .poll _ mask val => decide (mask < 2 ^ 32) && decide (val < 2 ^ 32)
  | .forIn _ _ _ body => body.wf
  | .seq a b => a.wf && b.wf
  | .failIf _ => true

/-- An instance the model gives a meaning to (00_scope R9). -/
def Instance.wf (p : Instance) : Bool := Machine.validInstance p

end Sys2Proof
end

