-- ==== Sys2Proof/Decode.lean ====
section
/-! DEFINITION. Decoding and encoding of command words (30_encoding R75 to R78). Decoding is total on all 2^32 words: a
word is one of the eleven commands or reserved, and a reserved word is rejected by the reason it is reserved for. -/

namespace Sys2Proof

/-- Why a command word is reserved (30_encoding R77). -/
inductive Reserved where
  /-- one of the bits 31..4, which must be zero, is 1 -/
  | mbzSet
  /-- OP is 0x0 or 0xC to 0xF -/
  | reservedOp (op : Nat)
  deriving DecidableEq, Repr

/-- The field OP, bits 3..0 (30_encoding R75). -/
def opField (v : Word) : BitVec 4 := v.extractLsb' 0 4

/-- The field MBZ, bits 31..4 (30_encoding R75). -/
def mbzField (v : Word) : BitVec 28 := v.extractLsb' 4 28

/-- The opcode map (30_encoding R76). -/
def opcodeMap : Nat → Option Instr
  | 0x1 => some .build
  | 0x2 => some .tobits
  | 0x3 => some .chunk
  | 0x4 => some .join
  | 0x5 => some .tohex
  | 0x6 => some .fromhex
  | 0x7 => some .tokjoin
  | 0x8 => some .toksplit
  | 0x9 => some .decode
  | 0xA => some .pack
  | 0xB => some .unpack
  | _ => none

/-- Decoding of a command word (30_encoding R78). -/
def decode (v : Word) : Except Reserved Instr :=
  if mbzField v = 0#28 then
    match opcodeMap (opField v).toNat with
    | some i => .ok i
    | none => .error (.reservedOp (opField v).toNat)
  else .error .mbzSet

/-- The opcode of a command (30_encoding R76). -/
def opcodeOf : Instr → BitVec 4
  | .build => 0x1#4
  | .tobits => 0x2#4
  | .chunk => 0x3#4
  | .join => 0x4#4
  | .tohex => 0x5#4
  | .fromhex => 0x6#4
  | .tokjoin => 0x7#4
  | .toksplit => 0x8#4
  | .decode => 0x9#4
  | .pack => 0xA#4
  | .unpack => 0xB#4

/-- The command word of a command: OP in bits 3..0, MBZ zero (30_encoding R75). -/
def encode (i : Instr) : Word := 0#28 ++ opcodeOf i

/-- The command word that the low `nbits` bits of `w` give, every bit above them zero. A command word is one 32-bit value
(30_encoding R75), so the table's bit numbers are the word's own. -/
def tableWord (nbits w : Nat) : Word := BitVec.ofNat 32 (w % 2 ^ nbits)

/-- What the decoder reads from an instruction whose bits are `w`, numbered as spec/opcode_table.json numbers them. -/
def decodeTableWord (nbits w : Nat) : Option Instr :=
  match decode (tableWord nbits w) with
  | .ok i => some i
  | .error _ => none

end Sys2Proof
end

