-- ==== Sys2Proof/Machine/State.lean ====
section
/-! DEFINITION. The state of the block (10_state R19), what the host agents and the schedule hold, the reasons a step can
stop, and the state after reset (70_reset_and_hazards R149). -/

namespace Sys2Proof.Machine

/-- One buffer (10_state R41, R42): the defined bytes, as (index, byte) pairs in strictly rising order of index. An index
that is not listed is an undefined byte (20_memory R61). -/
abbrev Memory := List Host.Cell

/-- One entry of the node RAM (10_state R47): the '0' and '1' children (0 for none, R48), the character and its mark. -/
structure Node where
  c0 : BitVec 8
  c1 : BitVec 8
  val : Byte
  hasVal : Bool
  deriving DecidableEq, Repr

/-- A node with no child and no value, which is what Build creates (44_decoding_tree R121). -/
def Node.blank : Node := { c0 := 0, c1 := 0, val := 0, hasVal := false }

/-- Who moves next (40_command_framework R88, 70_reset_and_hazards R148, 60_exceptions R145). -/
inductive Turn where
  /-- host agent `k` runs its next statement -/
  | host (k : Nat)
  /-- the engine's step -/
  | engine
  /-- the platform asserts `rst` -/
  | reset
  deriving DecidableEq, Repr

/-- A host agent: the statements it has left (30_encoding R85) and its variables, as ((name, index), value). -/
structure HostAgent where
  prog : List HostStmt
  vars : List ((Nat × Nat) × Nat)
  deriving DecidableEq, Repr

/-- The state. The fields from `ie` to `latchedCmd` are the block's state (10_state R19); `inst` is its parameters, which
no step changes (10_state R20); `turns`, `hosts` and `draws` are the model's own (log entries 7, 8 and 6). -/
structure State where
  /-- the parameters of this block (00_scope R8) -/
  inst : Instance
  /-- CTRL.IE (10_state R25) -/
  ie : Bool
  /-- CFG.WIDTH_M1 (10_state R26) -/
  widthM1 : BitVec 3
  /-- STATUS.BUSY (10_state R28) -/
  busy : Bool
  /-- STATUS.DONE (10_state R28) -/
  done : Bool
  /-- STATUS.TREE_VALID (10_state R28, R49) -/
  treeValid : Bool
  /-- STATUS.ERRCODE (10_state R28); ERR is derived from it -/
  errcode : BitVec 4
  /-- ILEN (10_state R29) -/
  ilen : Word
  /-- OLEN (10_state R30) -/
  olen : Word
  /-- RESID (10_state R31) -/
  resid : Word
  /-- NODE_COUNT (10_state R32) -/
  nodeCount : Word
  /-- NODE_SEL.INDEX (10_state R33) -/
  nodeSel : BitVec 8
  /-- TBL_SEL.INDEX (10_state R36) -/
  tblSel : BitVec 8
  /-- IBUF (10_state R41) -/
  ibuf : Memory
  /-- OBUF (10_state R42) -/
  obuf : Memory
  /-- the node RAM (10_state R47) -/
  nodes : List Node
  /-- LATCHED_CMD (10_state R50) -/
  latchedCmd : Word
  /-- the moves to come, first the next; the model's own (log entry 7) -/
  turns : List Turn
  /-- the host agents; the model's own (log entry 8) -/
  hosts : List HostAgent
  /-- how many unspecified values have been read; the model's own (log entry 6) -/
  draws : Nat
  deriving DecidableEq, Repr

/-- The model faults (60_exceptions R138): the model gives the run no meaning from there. Both are safe: a fault proves
nothing about the hardware. -/
inductive Fault where
  /-- Raised by the engine's MemRead and by a host read of IBUF, or of OBUF while idle, at an undefined byte (20_memory
  R61, 40_command_framework R92). Safe: the spec gives the read no value. -/
  | undefinedRead
  /-- Raised by a host access with a width or an alignment the block does not accept (20_memory R57). Safe: the block
  changes no state, and how a host reports the error is the host's affair. -/
  | busError
  deriving DecidableEq, Repr

/-- The refusals: the model gives the state or the host statement no meaning. -/
inductive Refusal where
  /-- Raised by an arm of exec for a command that has no meaning yet; no arm raises it now. Safe. -/
  | notModelled (mnemonic : String)
  /-- Raised by every step of a block whose parameters break 00_scope R8 or R9 (60_exceptions R138). Safe: the spec has the
  model refuse such an instance. -/
  | invalidInstance
  /-- Raised by a host access whose address is outside the block's window (20_memory R53; log entry 11). Safe: it
  addresses another device, of which the spec says nothing. -/
  | outsideWindow
  /-- Raised by a host statement that reads a host variable nothing assigned, or an element past the end of a byte string
  (log entry 8). Safe: the host program has no meaning there. -/
  | hostProgram
  deriving DecidableEq, Repr

/-- The block with parameters `p` right after reset (70_reset_and_hazards R149). DESIGN CHOICE: LATCHED_CMD (log entry 3)
and the node RAM (log entry 4), which the spec leaves unspecified and never observed, are zero; the schedule is empty
(log entry 7) and there is no host agent (log entry 8). -/
def State.resetOf (p : Instance) : State :=
  { inst := p,
    ie := false,
    widthM1 := 7,
    busy := false,
    done := false,
    treeValid := false,
    errcode := 0,
    ilen := 0,
    olen := 0,
    resid := 0,
    nodeCount := 0,
    nodeSel := 0,
    tblSel := 0,
    ibuf := [],
    obuf := [],
    nodes := List.replicate p.nodeCap Node.blank,
    latchedCmd := 0,
    turns := [],
    hosts := [],
    draws := 0 }

/-- The machine right after reset: the instance of this spec (00_scope R8). -/
def State.reset : State := State.resetOf defaultInstance

end Sys2Proof.Machine
end

