-- ==== Sys2Proof/Machine/Flags.lean ====
section
/-! DEFINITION. Error codes, the status bits, the register words composed from the state, and the interrupt output
(10_state R24 to R38, 60_exceptions R133, R140). The block has no arithmetic flags (10_state R52). -/

namespace Sys2Proof.Machine

/-- The errors a command can raise (60_exceptions R133). -/
inductive ErrorKind where
  | unknownCharacter
  | malformedToken
  | malformedChunk
  | malformedBits
  | malformedList
  | noPath
  | overflow
  | badLen
  | badCmd
  deriving DecidableEq, Repr

/-- Code(c), the number of an error (60_exceptions R133). -/
def errorCode : ErrorKind → BitVec 4
  | .unknownCharacter => 1
  | .malformedToken => 2
  | .malformedChunk => 3
  | .malformedBits => 4
  | .malformedList => 5
  | .noPath => 6
  | .overflow => 7
  | .badLen => 8
  | .badCmd => 9

/-- One flag as a bit at a position of a 32-bit register. -/
def flagAt (b : Bool) (pos : Nat) : Word := (BitVec.ofNat 32 b.toNat) <<< pos

/-- STATUS.ERR: ERRCODE is not 0 (10_state R28). -/
def State.err (s : State) : Bool := s.errcode != 0

/-- The word a read of STATUS returns (10_state R28). -/
def State.statusWord (s : State) : Word :=
  flagAt s.busy 0 ||| flagAt s.done 1 ||| flagAt s.err 2 ||| flagAt s.treeValid 3 ||| (s.errcode.zeroExtend 32 <<< 8)

/-- The word a read of CTRL returns (10_state R25). -/
def State.ctrlWord (s : State) : Word := flagAt s.ie 0

/-- The word a read of CFG returns (10_state R26). -/
def State.cfgWord (s : State) : Word := s.widthM1.zeroExtend 32

/-- The constant a read of ID returns (10_state R24). -/
def idWord : Word := 0x564C4301

/-- The chunk width W = CFG.WIDTH_M1 + 1 (10_state R26). -/
def State.width (s : State) : Nat := s.widthM1.toNat + 1

/-- The interrupt output: CTRL.IE AND STATUS.DONE, at all times (60_exceptions R140). -/
def State.irq (s : State) : Bool := s.ie && s.done

/-- Entry `i` of a node RAM. An index past the RAM, which no valid instance reaches, is a blank node (log entry 18). -/
def nodeAt (nodes : List Node) (i : Nat) : Node := nodes.getD i Node.blank

/-- A node as NODE_DATA shows it (10_state R34). -/
def nodeWord (n : Node) : Word :=
  flagAt n.hasVal 24 ||| (n.val.zeroExtend 32 <<< 16) ||| (n.c1.zeroExtend 32 <<< 8) ||| n.c0.zeroExtend 32

/-- The word a read of NODE_DATA returns while the block is idle (10_state R34). -/
def State.nodeDataWord (s : State) : Word :=
  if s.treeValid && decide (s.nodeSel.toNat < s.nodeCount.toNat) then nodeWord (nodeAt s.nodes s.nodeSel.toNat) else 0

/-- The value of a bit string, first bit most significant (20_memory R62, 43_hex_codec R115). -/
def bitsVal : Bits → Nat
  | [] => 0
  | b :: bs => b.toNat * 2 ^ bs.length + bitsVal bs

/-- The word a read of TBL_COUNT returns: N_ENTRIES (10_state R35). -/
def State.tblCountWord (s : State) : Word := BitVec.ofNat 32 s.inst.codeTable.length

/-- The word a read of TBL_DATA returns (10_state R37). -/
def State.tblDataWord (s : State) : Word :=
  match s.inst.codeTable[s.tblSel.toNat]? with
  | some e => (BitVec.ofNat 32 e.code.length <<< 8) ||| e.char.zeroExtend 32
  | none => 0

/-- The word a read of TBL_CODE returns (10_state R38). -/
def State.tblCodeWord (s : State) : Word :=
  match s.inst.codeTable[s.tblSel.toNat]? with
  | some e => BitVec.ofNat 32 (bitsVal e.code)
  | none => 0

end Sys2Proof.Machine
end

