-- ==== Sys2Proof/Machine/Operands.lean ====
section
/-! DEFINITION. The operand forms: the four buffer layouts and their primitives (30_encoding R81 to R84,
40_command_framework R94 to R100), and the numbers chunks stand for (43_hex_codec R115). -/

namespace Sys2Proof.Machine

/-- What a command's computation returns: a value or an error (00_scope R16). -/
abbrev Result (α : Type) := Except ErrorKind α

/-- A token: a byte string (30_encoding R84). -/
abbrev Token := List Byte

/-- The byte of a BITSTR that stands for a bit (30_encoding R82). -/
def bitByte (b : Bool) : Byte := if b then 0x31 else 0x30

/-- The bit a byte of a BITSTR stands for, or none (40_command_framework R94). -/
def byteBit (c : Byte) : Option Bool :=
  if c = 0x30 then some false else if c = 0x31 then some true else none

/-- The bits of a byte string in which every byte must be '0' or '1'; the first other byte raises `e`. -/
def bitsOfBytes (e : ErrorKind) : List Byte → Result Bits
  | [] => .ok []
  | c :: cs =>
    match byteBit c with
    | none => .error e
    | some b =>
      match bitsOfBytes e cs with
      | .ok bs => .ok (b :: bs)
      | .error e' => .error e'

/-- ParseBits: the bits of a BITSTR input (40_command_framework R94). -/
def parseBits (s : List Byte) : Result Bits := bitsOfBytes .malformedBits s

/-- The first `k` groups of `w` bits of a bit string. -/
def splitChunks (w : Nat) : Nat → Bits → List Bits
  | 0, _ => []
  | k + 1, bs => bs.take w :: splitChunks w k (bs.drop w)

/-- ParseChunks: the chunks of a CHUNKS(W) input (40_command_framework R95). -/
def parseChunks (s : List Byte) (w : Nat) : Result (List Bits) :=
  match bitsOfBytes .malformedChunk s with
  | .error e => .error e
  | .ok bs => if s.length % w = 0 then .ok (splitChunks w (s.length / w) bs) else .error .malformedChunk

/-- ParseTokens, with a bound on the number of records: every record takes at least two bytes, so the length of the
input is bound enough (40_command_framework R96). -/
def parseTokensUpTo : Nat → List Byte → Result (List Token)
  | _, [] => .ok []
  | _, [_] => .error .malformedList
  | 0, _ => .error .malformedList
  | fuel + 1, h :: l :: rest =>
    let len := h.toNat * 256 + l.toNat
    if rest.length < len then .error .malformedList
    else
      match parseTokensUpTo fuel (rest.drop len) with
      | .ok toks => .ok (rest.take len :: toks)
      | .error e => .error e

/-- ParseTokens: the tokens of a TOKENS input (40_command_framework R96). -/
def parseTokens (s : List Byte) : Result (List Token) := parseTokensUpTo s.length s

/-- SerBits: the BITSTR form of a bit string (40_command_framework R97). -/
def serBits (bs : Bits) : List Byte := bs.map bitByte

/-- SerChunks: the CHUNKS form of a list of chunks (40_command_framework R97). -/
def serChunks (chunks : List Bits) : List Byte := serBits chunks.flatten

/-- SerTokens: the TOKENS form of a list of tokens (40_command_framework R98). -/
def serTokens : List Token → Result (List Byte)
  | [] => .ok []
  | t :: ts =>
    if 65535 < t.length then .error .overflow
    else
      match serTokens ts with
      | .ok out => .ok (BitVec.ofNat 8 (t.length / 256) :: BitVec.ofNat 8 (t.length % 256) :: (t ++ out))
      | .error e => .error e

/-- HexDigit: the uppercase hex digit of a number below 16 (40_command_framework R99). -/
def hexDigit (d : Nat) : Byte := if d ≤ 9 then BitVec.ofNat 8 (0x30 + d) else BitVec.ofNat 8 (0x41 + (d - 10))

/-- HexVal: the number an uppercase hex digit stands for, or none (40_command_framework R100). -/
def hexVal (c : Byte) : Option Nat :=
  if 0x30 ≤ c.toNat ∧ c.toNat ≤ 0x39 then some (c.toNat - 0x30)
  else if 0x41 ≤ c.toNat ∧ c.toNat ≤ 0x46 then some (c.toNat - 0x41 + 10)
  else none

/-- Bits_W(v): the `w`-bit list whose bit `i` is bit `w-1-i` of `v` (43_hex_codec R115). -/
def valBits (w v : Nat) : Bits := (List.range w).map (fun i => v.testBit (w - 1 - i))

/-- The token of two uppercase hex digits for a chunk (43_hex_codec R116). -/
def chunkToken (ch : Bits) : Token := [hexDigit (bitsVal ch / 16), hexDigit (bitsVal ch % 16)]

/-- The value of a token of exactly two uppercase hex digits, or none (43_hex_codec R117). -/
def tokenVal : Token → Option Nat
  | [h, l] =>
    match hexVal h, hexVal l with
    | some x, some y => some (16 * x + y)
    | _, _ => none
  | _ => none

/-- The bits of a list of tokens, `w` bits a token; the first token that is not two uppercase hex digits, or whose value
is `2^w` or more, is malformed (43_hex_codec R117). -/
def tokensBits (w : Nat) : List Token → Result Bits
  | [] => .ok []
  | t :: ts =>
    match tokenVal t with
    | none => .error .malformedToken
    | some v =>
      if v < 2 ^ w then
        match tokensBits w ts with
        | .ok bs => .ok (valBits w v ++ bs)
        | .error e => .error e
      else .error .malformedToken

/-- Tokens joined with single separators, none trailing (43_hex_codec R118). -/
def joinTokens : List Token → List Byte
  | [] => []
  | [t] => t
  | t :: u :: ts => t ++ sep :: joinTokens (u :: ts)

/-- A text split at every separator; `cur` is the token begun (43_hex_codec R119). -/
def splitTokensFrom (cur : Token) : List Byte → List Token
  | [] => [cur]
  | c :: cs => if c = sep then cur :: splitTokensFrom [] cs else splitTokensFrom (cur ++ [c]) cs

/-- The tokens of a text; the empty text is one empty token (43_hex_codec R119). -/
def splitTokens (s : List Byte) : List Token := splitTokensFrom [] s

/-- The codes of a text, concatenated; a byte with no entry is unknown (42_bit_packer R110). -/
def codeBits (table : List Entry) : List Byte → Result Bits
  | [] => .ok []
  | c :: cs =>
    match lookup table c with
    | none => .error .unknownCharacter
    | some k =>
      match codeBits table cs with
      | .ok bs => .ok (k ++ bs)
      | .error e => .error e

/-- The number of chunks of `w` bits that `n` bits take: `ceil(n / w)` (00_scope R13, 42_bit_packer R111). -/
def chunkCount (n w : Nat) : Nat := (n + (w - 1)) / w

/-- A bit string filled up with zero bits to a multiple of `w` (42_bit_packer R111). -/
def padBits (w : Nat) (bs : Bits) : Bits :=
  bs ++ List.replicate (chunkCount bs.length w * w - bs.length) false

end Sys2Proof.Machine
end

