-- ==== Sys2Proof/Machine/Ops.lean ====
section
/-! DEFINITION. The named operations over the buffers and the registers: reading and writing memory, starting a command,
committing its result or its error (the block's only "exception entry", 60_exceptions R136), acknowledging it (the
"return", R137), the shape every command but BUILD has (40_command_framework R89), reset, and whose turn it is. -/

namespace Sys2Proof.Machine

/-- The value of a byte, or none where it is undefined (20_memory R61). -/
def Memory.read : Memory → Nat → Option Byte
  | [], _ => none
  | (a, b) :: m, i => if a = i then some b else Memory.read m i

/-- Writes a byte and makes it defined (20_memory R58), keeping the indices strictly rising. -/
def Memory.write : Memory → Nat → Byte → Memory
  | [], i, v => [(i, v)]
  | (a, b) :: m, i, v =>
    if i < a then (i, v) :: (a, b) :: m
    else if i = a then (i, v) :: m
    else (a, b) :: Memory.write m i v

/-- The canonical form of a buffer: indices strictly rising. -/
def Memory.wf : Memory → Bool
  | [] => true
  | [_] => true
  | (a, _) :: (b, v) :: m => decide (a < b) && Memory.wf ((b, v) :: m)

/-- MemRead(IBUF, a, n): the `n` bytes from index `a`, or none if one of them is undefined (40_command_framework R92). -/
def Memory.readBytes (m : Memory) : Nat → Nat → Option (List Byte)
  | _, 0 => some []
  | a, n + 1 =>
    match Memory.read m a with
    | none => none
    | some b =>
      match Memory.readBytes m (a + 1) n with
      | none => none
      | some bs => some (b :: bs)

/-- A buffer whose defined bytes are exactly a byte string, from index `a` on: MemWrite(OBUF, 0, len(out), out) with
every other byte marked undefined (40_command_framework R90, R93). -/
def Memory.ofBytes : Nat → List Byte → Memory
  | _, [] => []
  | a, b :: bs => (a, b) :: Memory.ofBytes (a + 1) bs

/-- What a command answers with: its output and the residue (00_scope R16). -/
abbrev CommandResult := Result (List Byte × Nat)

/-- The one indivisible update with which a CMD write starts a command (40_command_framework R87). -/
def State.start (v : Word) (s : State) : State :=
  { s with latchedCmd := v, busy := true, done := false, errcode := 0 }

/-- The commit of a success (40_command_framework R90). -/
def State.commitOk (out : List Byte) (resid : Nat) (s : State) : State :=
  { s with
    obuf := Memory.ofBytes 0 out, olen := BitVec.ofNat 32 out.length, resid := BitVec.ofNat 32 resid,
    errcode := 0, done := true, busy := false }

/-- The commit of an error: the block's only exception entry (40_command_framework R90, 60_exceptions R136). -/
def State.commitErr (c : ErrorKind) (s : State) : State :=
  { s with obuf := [], olen := 0, resid := 0, errcode := errorCode c, done := true, busy := false }

/-- Commit(res) (40_command_framework R90). -/
def State.commit (res : CommandResult) (s : State) : State :=
  match res with
  | .ok (out, resid) => s.commitOk out resid
  | .error c => s.commitErr c

/-- The acknowledge: writing 1 to STATUS.DONE (10_state R28, 60_exceptions R137). -/
def State.ackDone (s : State) : State := { s with done := false }

/-- The node RAM and its two registers after a build (44_decoding_tree R121). -/
def State.setTree (nodes : List Node) (count : Nat) (s : State) : State :=
  { s with nodes := nodes, nodeCount := BitVec.ofNat 32 count, treeValid := true }

/-- CTRL: only IE is kept (10_state R25). -/
def State.setCtrl (v : Word) (s : State) : State := { s with ie := v.getLsbD 0 }

/-- CFG: only WIDTH_M1 is kept (10_state R26). -/
def State.setCfg (v : Word) (s : State) : State := { s with widthM1 := v.extractLsb' 0 3 }

/-- ILEN: kept as written (10_state R29). -/
def State.setIlen (v : Word) (s : State) : State := { s with ilen := v }

/-- NODE_SEL: only INDEX is kept (10_state R33). -/
def State.setNodeSel (v : Word) (s : State) : State := { s with nodeSel := v.extractLsb' 0 8 }

/-- TBL_SEL: only INDEX is kept (10_state R36). -/
def State.setTblSel (v : Word) (s : State) : State := { s with tblSel := v.extractLsb' 0 8 }

/-- One byte of IBUF written and made defined (20_memory R58). -/
def State.writeIbuf (i : Nat) (b : Byte) (s : State) : State := { s with ibuf := s.ibuf.write i b }

/-- One unspecified value has been read (70_reset_and_hazards R152). -/
def State.drawn (s : State) : State := { s with draws := s.draws + 1 }

/-- The host agents changed; the block is not. -/
def State.setHosts (hs : List HostAgent) (s : State) : State := { s with hosts := hs }

/-- The turn at the head of the schedule has been taken. -/
def State.dropTurn (s : State) : State := { s with turns := s.turns.tail }

/-- The engine's turn put first. -/
def State.engineFirst (s : State) : State := { s with turns := .engine :: s.turns }

/-- The effect of `rst` (70_reset_and_hazards R148, R149): every piece of the block's state at its reset value; a command
in progress has no commit. The parameters, the host agents and the schedule are no state of the block and stay. -/
def State.resetBlock (s : State) : State :=
  { State.resetOf s.inst with turns := s.turns, hosts := s.hosts, draws := s.draws }

/-- The check of the complete output's size, the last of Exec (40_command_framework R89). -/
def checkOutput (size : Nat) (res : CommandResult) : CommandResult :=
  match res with
  | .ok (out, resid) => if size < out.length then .error .overflow else .ok (out, resid)
  | .error c => .error c

/-- Exec and Commit of a command that reads its input (40_command_framework R89, R90): BAD_LEN first, then the input,
then `prep` (the implicit build of DECODE and UNPACK, kept whatever the result), then the command's own computation on
the state `prep` left, then the size of the output. -/
def runCommand (prep : State → State) (op : State → List Byte → CommandResult) (s : State) :
    Host.Outcome State Fault Refusal :=
  if s.inst.ibufSize < s.ilen.toNat then .next (s.commitErr .badLen)
  else
    match s.ibuf.readBytes 0 s.ilen.toNat with
    | none => .fault .undefinedRead
    | some input => .next ((prep s).commit (checkOutput s.inst.obufSize (op (prep s) input)))

/-- The index of the first host agent that has a statement left, or the number of agents if none has. -/
def firstReady (hosts : List HostAgent) : Nat := hosts.findIdx (fun h => !h.prog.isEmpty)

/-- Who moves next. The schedule says so; DESIGN CHOICE (log entry 7): when it is used up, a busy engine moves first (the
weak fairness of 70_reset_and_hazards R158), and otherwise the first host agent with a statement left. -/
def State.nextTurn (s : State) : Turn :=
  match s.turns with
  | t :: _ => t
  | [] => if s.busy then .engine else .host (firstReady s.hosts)

/-- The block is quiescent: no command is in progress (70_reset_and_hazards R157). -/
def State.quiescent (s : State) : Bool := !s.busy

/-- The run of the host programs has ended: no agent has a statement left and the block is quiescent. For one host
program this is 70_reset_and_hazards R157. DESIGN CHOICE (log entry 25): the rule speaks of one program only; with several
agents (60_exceptions R145) the run ends when every one of them has no statement left, and with none when the block is
quiescent. -/
def State.runEnded (s : State) : Bool := s.hosts.all (fun h => h.prog.isEmpty) && s.quiescent

end Sys2Proof.Machine
end

