-- ==== Sys2Proof/Machine/BitPacker.lean ====
section
/-! DEFINITION. The bit packer and unpacker: TOBITS, CHUNK, JOIN (42_bit_packer). -/

namespace Sys2Proof.Machine

/-- Op_TOBITS (42_bit_packer R110). -/
def opTobits (s : State) (input : List Byte) : CommandResult :=
  match codeBits s.inst.codeTable input with
  | .ok bits => .ok (serBits bits, 0)
  | .error c => .error c

/-- Op_CHUNK (42_bit_packer R111). -/
def opChunk (s : State) (input : List Byte) : CommandResult :=
  match parseBits input with
  | .ok bits => .ok (serBits (padBits s.width bits), 0)
  | .error c => .error c

/-- Op_JOIN (42_bit_packer R113). -/
def opJoin (s : State) (input : List Byte) : CommandResult :=
  match parseChunks input s.width with
  | .ok chunks => .ok (serChunks chunks, 0)
  | .error c => .error c

/-- TOBITS (42_bit_packer R110). -/
def execTobits (s : State) : Host.Outcome State Fault Refusal := runCommand id opTobits s

/-- CHUNK (42_bit_packer R111). -/
def execChunk (s : State) : Host.Outcome State Fault Refusal := runCommand id opChunk s

/-- JOIN (42_bit_packer R113). -/
def execJoin (s : State) : Host.Outcome State Fault Refusal := runCommand id opJoin s

end Sys2Proof.Machine
end

