-- ==== Sys2Proof/Machine/HexCodec.lean ====
section
/-! DEFINITION. The hex serializer and deserializer: TOHEX, FROMHEX, TOKJOIN, TOKSPLIT (43_hex_codec). -/

namespace Sys2Proof.Machine

/-- Op_TOHEX (43_hex_codec R116). -/
def opTohex (s : State) (input : List Byte) : CommandResult :=
  match parseChunks input s.width with
  | .error c => .error c
  | .ok chunks =>
    match serTokens (chunks.map chunkToken) with
    | .ok out => .ok (out, 0)
    | .error c => .error c

/-- Op_FROMHEX (43_hex_codec R117): the layout is parsed whole before any token is looked at. -/
def opFromhex (s : State) (input : List Byte) : CommandResult :=
  match parseTokens input with
  | .error c => .error c
  | .ok toks =>
    match tokensBits s.width toks with
    | .ok bits => .ok (serBits bits, 0)
    | .error c => .error c

/-- Op_TOKJOIN (43_hex_codec R118). -/
def opTokjoin (_ : State) (input : List Byte) : CommandResult :=
  match parseTokens input with
  | .ok toks => .ok (joinTokens toks, 0)
  | .error c => .error c

/-- Op_TOKSPLIT (43_hex_codec R119). -/
def opToksplit (_ : State) (input : List Byte) : CommandResult :=
  match serTokens (splitTokens input) with
  | .ok out => .ok (out, 0)
  | .error c => .error c

/-- TOHEX (43_hex_codec R116). -/
def execTohex (s : State) : Host.Outcome State Fault Refusal := runCommand id opTohex s

/-- FROMHEX (43_hex_codec R117). -/
def execFromhex (s : State) : Host.Outcome State Fault Refusal := runCommand id opFromhex s

/-- TOKJOIN (43_hex_codec R118). -/
def execTokjoin (s : State) : Host.Outcome State Fault Refusal := runCommand id opTokjoin s

/-- TOKSPLIT (43_hex_codec R119). -/
def execToksplit (s : State) : Host.Outcome State Fault Refusal := runCommand id opToksplit s

end Sys2Proof.Machine
end

