-- ==== Sys2Proof/Machine/Tree.lean ====
section
/-! DEFINITION. The prefix-code tree decoder: Build, EnsureTree, the walk, BUILD and DECODE (44_decoding_tree). -/

namespace Sys2Proof.Machine

/-- A tree under construction: the node RAM and the number of nodes allocated (44_decoding_tree R121). -/
structure Tree where
  nodes : List Node
  count : Nat
  deriving DecidableEq, Repr

/-- The child of node `n` along a bit, 0 for none (10_state R48). -/
def childOf (nodes : List Node) (n : Nat) (b : Bool) : Nat :=
  if b then (nodeAt nodes n).c1.toNat else (nodeAt nodes n).c0.toNat

/-- A node with its child along a bit set. -/
def withChild (n : Node) (b : Bool) (c : Nat) : Node :=
  if b then { n with c1 := BitVec.ofNat 8 c } else { n with c0 := BitVec.ofNat 8 c }

/-- Creates the absent child of node `n` along a bit, at index `count` (44_decoding_tree R121). -/
def addChild (t : Tree) (n : Nat) (b : Bool) : Tree :=
  let nodes := t.nodes.set t.count Node.blank
  { nodes := nodes.set n (withChild (nodeAt nodes n) b t.count), count := t.count + 1 }

/-- Walks or creates the path of a code from node `n`, and answers the tree and the final node (44_decoding_tree R121). -/
def insertPath (t : Tree) (n : Nat) : Bits → Tree × Nat
  | [] => (t, n)
  | b :: bs =>
    if childOf t.nodes n b = 0 then insertPath (addChild t n b) t.count bs
    else insertPath t (childOf t.nodes n b) bs

/-- Stores a character at a node (44_decoding_tree R121). -/
def storeChar (t : Tree) (n : Nat) (c : Byte) : Tree :=
  { t with nodes := t.nodes.set n { nodeAt t.nodes n with val := c, hasVal := true } }

/-- One entry of the table put into the tree (44_decoding_tree R121). -/
def insertEntry (t : Tree) (e : Entry) : Tree :=
  storeChar (insertPath t 0 e.code).1 (insertPath t 0 e.code).2 e.char

/-- Build(): the tree of a table, written over a node RAM; entries at and above the count are not written
(44_decoding_tree R121). A table that is not prefix-free gets what R122 says. -/
def buildTree (table : List Entry) (ram : List Node) : Tree :=
  table.foldl insertEntry { nodes := ram.set 0 Node.blank, count := 1 }

/-- EnsureTree(): builds the tree if it is not valid (44_decoding_tree R123). -/
def ensureTree (s : State) : State :=
  if s.treeValid then s
  else s.setTree (buildTree s.inst.codeTable s.nodes).nodes (buildTree s.inst.codeTable s.nodes).count

/-- The walk over a bit string from node `n` with `r` bits consumed since the last emission (44_decoding_tree R125):
what it emits, and the residue. On arrival at a node that holds a value it emits and returns to the root. -/
def walk (nodes : List Node) : Nat → Nat → Bits → CommandResult
  | _, r, [] => .ok ([], r)
  | n, r, b :: bs =>
    let m := childOf nodes n b
    if m = 0 then .error .noPath
    else if (nodeAt nodes m).hasVal then
      match walk nodes 0 0 bs with
      | .ok (out, r') => .ok ((nodeAt nodes m).val :: out, r')
      | .error c => .error c
    else walk nodes m (r + 1) bs

/-- Op_DECODE after EnsureTree: parse the whole input, then walk from the root (44_decoding_tree R125). -/
def opDecode (s : State) (input : List Byte) : CommandResult :=
  match parseBits input with
  | .ok bits => walk s.nodes 0 0 bits
  | .error c => .error c

/-- BUILD (44_decoding_tree R124): reads neither ILEN nor IBUF, builds the tree if it is not valid, empty output. -/
def execBuild (s : State) : Host.Outcome State Fault Refusal := .next ((ensureTree s).commitOk [] 0)

/-- DECODE (44_decoding_tree R125). -/
def execDecode (s : State) : Host.Outcome State Fault Refusal := runCommand ensureTree opDecode s

end Sys2Proof.Machine
end

