-- ==== Sys2Proof/Machine/Paths.lean ====
section
/-! DEFINITION. The fused path commands PACK and UNPACK (45_path_commands). Both use the width 8 and never read CFG, and
their intermediate values need not fit any buffer. -/

namespace Sys2Proof.Machine

/-- The wire text of a bit string: zero-padded chunks of 8 bits, two hex digits each, single separators
(45_path_commands R127). -/
def wireText (bits : Bits) : List Byte :=
  joinTokens ((splitChunks facadeWidth (chunkCount bits.length facadeWidth) (padBits facadeWidth bits)).map chunkToken)

/-- Op_PACK (45_path_commands R127). -/
def opPack (s : State) (input : List Byte) : CommandResult :=
  match codeBits s.inst.codeTable input with
  | .ok bits => .ok (wireText bits, 0)
  | .error c => .error c

/-- Op_UNPACK after EnsureTree (45_path_commands R129): every token is checked before the walk. -/
def opUnpack (s : State) (input : List Byte) : CommandResult :=
  match tokensBits facadeWidth (splitTokens input) with
  | .ok bits => walk s.nodes 0 0 bits
  | .error c => .error c

/-- PACK (45_path_commands R127). -/
def execPack (s : State) : Host.Outcome State Fault Refusal := runCommand id opPack s

/-- UNPACK (45_path_commands R129). -/
def execUnpack (s : State) : Host.Outcome State Fault Refusal := runCommand ensureTree opUnpack s

end Sys2Proof.Machine
end

