-- ==== Sys2Proof/Machine/Dispatch.lean ====
section
/-! DEFINITION. One arm per command of the opcode map (30_encoding R76). -/

namespace Sys2Proof.Machine

/-- Exec and Commit of a command that is not reserved (40_command_framework R89, R90). -/
def exec (i : Instr) (s : State) : Host.Outcome State Fault Refusal :=
  match i with
  | .build => Sys2Proof.Machine.execBuild s
  | .tobits => Sys2Proof.Machine.execTobits s
  | .chunk => Sys2Proof.Machine.execChunk s
  | .join => Sys2Proof.Machine.execJoin s
  | .tohex => Sys2Proof.Machine.execTohex s
  | .fromhex => Sys2Proof.Machine.execFromhex s
  | .tokjoin => Sys2Proof.Machine.execTokjoin s
  | .toksplit => Sys2Proof.Machine.execToksplit s
  | .decode => Sys2Proof.Machine.execDecode s
  | .pack => Sys2Proof.Machine.execPack s
  | .unpack => Sys2Proof.Machine.execUnpack s

end Sys2Proof.Machine
end

