-- ==== Sys2Proof/Machine/Bus.lean ====
section
/-! DEFINITION. The host's accesses to the block's window: the address map, widths and alignment, register and buffer
reads and writes, and what is locked or unspecified while the engine is busy (20_memory R53 to R61, 10_state R23 to R40,
70_reset_and_hazards R151, R152). -/

namespace Sys2Proof.Machine

/-- The registers (10_state R23). -/
inductive Reg where
  | id
  | ctrl
  | cfg
  | cmd
  | status
  | ilen
  | olen
  | resid
  | nodeCount
  | nodeSel
  | nodeData
  | tblCount
  | tblSel
  | tblData
  | tblCode
  /-- an offset of 0x3C to 0xFC, which holds no register (10_state R39) -/
  | none
  deriving DecidableEq, Repr

/-- The register at a word offset of the register space (10_state R23). -/
def regAt : Nat → Reg
  | 0x00 => .id
  | 0x04 => .ctrl
  | 0x08 => .cfg
  | 0x0C => .cmd
  | 0x10 => .status
  | 0x14 => .ilen
  | 0x18 => .olen
  | 0x1C => .resid
  | 0x20 => .nodeCount
  | 0x24 => .nodeSel
  | 0x28 => .nodeData
  | 0x2C => .tblCount
  | 0x30 => .tblSel
  | 0x34 => .tblData
  | 0x38 => .tblCode
  | _ => .none

/-- Where an offset of the window lies (20_memory R53): at a byte offset of the register space, at an index of a buffer, or
in reserved space. DEDUCED (log entry 10): an access lies where its lowest offset lies. -/
inductive Region where
  | regs (off : Nat)
  | ibuf (i : Nat)
  | obuf (i : Nat)
  | reserved
  deriving DecidableEq, Repr

/-- The size of the window, 0x40000 bytes (20_memory R53). -/
def windowSize : Nat := 0x40000

/-- The address map (20_memory R53). -/
def regionOf (p : Instance) (off : Nat) : Region :=
  if off < 0x100 then .regs off
  else if off < 0x10000 then .reserved
  else if off < 0x20000 then (if off - 0x10000 < p.ibufSize then .ibuf (off - 0x10000) else .reserved)
  else if off < 0x30000 then (if off - 0x20000 < p.obufSize then .obuf (off - 0x20000) else .reserved)
  else .reserved

/-- The offset of a host address in the window, or none where the block does not decode the address (20_memory R53, R54). -/
def windowOffset (p : Instance) (addr : Nat) : Option Nat :=
  if p.blockBase ≤ addr ∧ addr < p.blockBase + windowSize then some (addr - p.blockBase) else none

/-- Whether an access of a width is one the register space accepts (20_memory R56). -/
def regAccessOk (width off : Nat) : Bool := width == 32 && off % 4 == 0

/-- The registers whose reads are unspecified while busy (70_reset_and_hazards R152). -/
def Reg.unspecifiedWhileBusy : Reg → Bool
  | .olen | .resid | .nodeCount | .nodeData => true
  | _ => false

/-- What a register holds, as a read of it returns it while the block is idle (10_state R24 to R39). -/
def State.regWord (s : State) : Reg → Word
  | .id => idWord
  | .ctrl => s.ctrlWord
  | .cfg => s.cfgWord
  | .cmd => 0
  | .status => s.statusWord
  | .ilen => s.ilen
  | .olen => s.olen
  | .resid => s.resid
  | .nodeCount => s.nodeCount
  | .nodeSel => s.nodeSel.zeroExtend 32
  | .nodeData => s.nodeDataWord
  | .tblCount => s.tblCountWord
  | .tblSel => s.tblSel.zeroExtend 32
  | .tblData => s.tblDataWord
  | .tblCode => s.tblCodeWord
  | .none => 0

/-- A host read of a register: its word, or a fresh free value where the read is unspecified (70_reset_and_hazards R152;
log entry 6). -/
def readReg (r : Reg) (s : State) : Word × State :=
  if s.busy && r.unspecifiedWhileBusy then (Config.freeWord s.draws, s.drawn) else (s.regWord r, s)

/-- A host read of an OBUF byte (20_memory R59): unspecified while busy, a fault where the byte is undefined. -/
def readObuf (i : Nat) (s : State) : Host.Outcome (Word × State) Fault Refusal :=
  if s.busy then .next ((Config.freeByte s.draws).zeroExtend 32, s.drawn)
  else
    match s.obuf.read i with
    | some b => .next (b.zeroExtend 32, s)
    | none => .fault .undefinedRead

/-- A host read of an IBUF byte (20_memory R58): it reads the stored value whether or not the engine is busy. -/
def readIbuf (i : Nat) (s : State) : Host.Outcome (Word × State) Fault Refusal :=
  match s.ibuf.read i with
  | some b => .next (b.zeroExtend 32, s)
  | none => .fault .undefinedRead

/-- A host read of a width at an offset of the window (20_memory R53 to R59). -/
def readOffset (width off : Nat) (s : State) : Host.Outcome (Word × State) Fault Refusal :=
  match regionOf s.inst off with
  | .regs o => if regAccessOk width o then .next (readReg (regAt o) s) else .fault .busError
  | .ibuf i => if width = 8 then readIbuf i s else .fault .busError
  | .obuf i => if width = 8 then readObuf i s else .fault .busError
  | .reserved => .next (0, s)

/-- A host write of a word to a register (10_state R24 to R40): CFG, CMD and ILEN are locked while busy; a CMD write while
idle starts a command (40_command_framework R87). -/
def writeReg (r : Reg) (v : Word) (s : State) : State :=
  match r with
  | .ctrl => s.setCtrl v
  | .cfg => if s.busy then s else s.setCfg v
  | .cmd => if s.busy then s else s.start v
  | .status => if v.getLsbD 1 then s.ackDone else s
  | .ilen => if s.busy then s else s.setIlen v
  | .nodeSel => s.setNodeSel v
  | .tblSel => s.setTblSel v
  | .id | .olen | .resid | .nodeCount | .nodeData | .tblCount | .tblData | .tblCode | .none => s

/-- A host write of a byte to IBUF, ignored while busy (20_memory R58, 10_state R40). -/
def writeIbufByte (i : Nat) (v : Word) (s : State) : State :=
  if s.busy then s else s.writeIbuf i (v.extractLsb' 0 8)

/-- A host write of a width at an offset of the window (20_memory R53 to R60); the low bits of `v` are what is written. -/
def writeOffset (width off : Nat) (v : Word) (s : State) : Host.Outcome State Fault Refusal :=
  match regionOf s.inst off with
  | .regs o => if regAccessOk width o then .next (writeReg (regAt o) v s) else .fault .busError
  | .ibuf i => if width = 8 then .next (writeIbufByte i v s) else .fault .busError
  | .obuf _ => if width = 8 then .next s else .fault .busError
  | .reserved => .next s

/-- A host read at a host address: the block decodes its window only (20_memory R53; log entry 11). -/
def busRead (width addr : Nat) (s : State) : Host.Outcome (Word × State) Fault Refusal :=
  match windowOffset s.inst addr with
  | some off => readOffset width off s
  | none => .refused .outsideWindow

/-- A host write at a host address: the block decodes its window only (20_memory R53; log entry 11). -/
def busWrite (width addr : Nat) (v : Word) (s : State) : Host.Outcome State Fault Refusal :=
  match windowOffset s.inst addr with
  | some off => writeOffset width off v s
  | none => .refused .outsideWindow

end Sys2Proof.Machine
end

