-- ==== Sys2Proof/Machine/HostAgent.lean ====
section
/-! DEFINITION. The host agents: the expressions and statements of host programs and one statement's effect (30_encoding
R85), and the pseudo-statements (R86). One statement is one bus transaction but for POLL, which is one read a turn until
it holds, and FOR, grouping and the failure test of a host call, which take a turn of the host and touch no bus. -/

namespace Sys2Proof.Machine

/-- The value of a host variable, or none if nothing assigned it (log entry 8). -/
def lookupVar : List ((Nat × Nat) × Nat) → Nat × Nat → Option Nat
  | [], _ => none
  | (k, v) :: vs, x => if k = x then some v else lookupVar vs x

/-- Assigns a host variable. -/
def assignVar : List ((Nat × Nat) × Nat) → Nat × Nat → Nat → List ((Nat × Nat) × Nat)
  | [], x, v => [(x, v)]
  | (k, w) :: vs, x, v => if k = x then (x, v) :: vs else (k, w) :: assignVar vs x v

/-- The value of an expression, or none where it reads what does not exist. DESIGN CHOICE (log entry 8): a difference is cut
off at 0. -/
def evalExpr (vars : List ((Nat × Nat) × Nat)) : HostExpr → Option Nat
  | .lit n => some n
  | .var x idx =>
    match evalExpr vars idx with
    | some i => lookupVar vars (x, i)
    | none => none
  | .byteAt bytes idx =>
    match evalExpr vars idx with
    | some i => (bytes[i]?).map BitVec.toNat
    | none => none
  | .add a b =>
    match evalExpr vars a, evalExpr vars b with
    | some x, some y => some (x + y)
    | _, _ => none
  | .sub a b =>
    match evalExpr vars a, evalExpr vars b with
    | some x, some y => some (x - y)
    | _, _ => none
  | .bits a hi lo => (evalExpr vars a).map (fun x => x / 2 ^ lo % 2 ^ (hi + 1 - lo))

/-- The statements left and the variables of agent `k` put back. -/
def State.setAgent (k : Nat) (prog : List HostStmt) (vars : List ((Nat × Nat) × Nat)) (s : State) : State :=
  s.setHosts (s.hosts.set k { prog := prog, vars := vars })

/-- Runs the first statement of agent `k`, which has `rest` left after it (30_encoding R85). DESIGN CHOICE: POLL's `t` is no
variable of the host program, and POLL assigns none (log entry 22); FOR's variable is an ordinary host variable, assigned
anew each time round, which overwrites one of that name and keeps its last value after the loop (log entry 23). -/
def runStmt (k : Nat) (vars : List ((Nat × Nat) × Nat)) (st : HostStmt) (rest : List HostStmt) (s : State) :
    Host.Outcome State Fault Refusal :=
  match st with
  | .wr width off val =>
    match evalExpr vars off, evalExpr vars val with
    | some o, some v =>
      match busWrite width (s.inst.blockBase + o) (BitVec.ofNat 32 v) s with
      | .next t => .next (t.setAgent k rest vars)
      | .fault f => .fault f
      | .refused r => .refused r
    | _, _ => .refused .hostProgram
  | .rd width off x idx =>
    match evalExpr vars off, evalExpr vars idx with
    | some o, some i =>
      match busRead width (s.inst.blockBase + o) s with
      | .next (v, t) => .next (t.setAgent k rest (assignVar vars (x, i) v.toNat))
      | .fault f => .fault f
      | .refused r => .refused r
    | _, _ => .refused .hostProgram
  | .poll off mask val =>
    match evalExpr vars off with
    | some o =>
      match busRead 32 (s.inst.blockBase + o) s with
      | .next (v, t) =>
        if v.toNat &&& mask = val then .next (t.setAgent k rest vars)
        else .next (t.setAgent k (.poll off mask val :: rest) vars)
      | .fault f => .fault f
      | .refused r => .refused r
    | none => .refused .hostProgram
  | .forIn i lo hi body =>
    match evalExpr vars lo, evalExpr vars hi with
    | some a, some b =>
      if a < b then
        .next (s.setAgent k (body :: .forIn i (.lit (a + 1)) (.lit b) body :: rest) (assignVar vars (i, 0) a))
      else .next (s.setAgent k rest vars)
    | _, _ => .refused .hostProgram
  | .seq a b => .next (s.setAgent k (a :: b :: rest) vars)
  | .failIf code =>
    match evalExpr vars code with
    | some c => .next (s.setAgent k (if c = 0 then rest else []) vars)
    | none => .refused .hostProgram

/-- A turn of host agent `k`: its next statement, or nothing if there is no such agent or it has none left. -/
def hostStep (k : Nat) (s : State) : Host.Outcome State Fault Refusal :=
  match s.hosts[k]? with
  | none => .next s
  | some h =>
    match h.prog with
    | [] => .next s
    | st :: rest => runStmt k h.vars st rest s

/-- A plain host variable. -/
def hostVar (x : Nat) : HostExpr := .var x (.lit 0)

/-- RD32 off -> x into a plain variable (30_encoding R85). -/
def rd32 (off x : Nat) : HostStmt := .rd 32 (.lit off) x (.lit 0)

/-- WR32 off, v with a number for v (30_encoding R85). -/
def wr32 (off v : Nat) : HostStmt := .wr 32 (.lit off) (.lit v)

/-- WR8 off, b with a number for b (30_encoding R85). -/
def wr8 (off b : Nat) : HostStmt := .wr 8 (.lit off) (.lit b)

/-- CMD m (30_encoding R86). -/
def cmdStmt (i : Instr) : HostStmt := wr32 0x0C (encode i).toNat

/-- WAIT (30_encoding R86). -/
def waitStmt : HostStmt := .poll (.lit 0x10) 0x1 0x0

/-- RUN m (30_encoding R86). -/
def runStmts (i : Instr) : List HostStmt := [cmdStmt i, waitStmt]

/-- SETW w (30_encoding R86). -/
def setwStmt (w : Nat) : HostStmt := wr32 0x08 (w - 1)

/-- ACK (30_encoding R86). -/
def ackStmt : HostStmt := wr32 0x10 0x2

/-- LOAD s (30_encoding R86), with `i` the loop's variable. -/
def loadStmts (i : Nat) (text : List Byte) : List HostStmt :=
  [ .forIn i (.lit 0) (.lit text.length) (.wr 8 (.add (.lit 0x10000) (hostVar i)) (.byteAt text (hostVar i))),
    wr32 0x14 text.length ]

/-- COPYOUT (30_encoding R86), with `n`, `i` and `b` its variables. -/
def copyoutStmts (n i b : Nat) : List HostStmt :=
  [ rd32 0x18 n,
    .forIn i (.lit 0) (hostVar n)
      (.seq (.rd 8 (.add (.lit 0x20000) (hostVar i)) b (.lit 0)) (.wr 8 (.add (.lit 0x10000) (hostVar i)) (hostVar b))),
    .wr 32 (.lit 0x14) (hostVar n) ]

end Sys2Proof.Machine
end

