-- ==== Sys2Proof/Machine/Step.lean ====
section
/-! DEFINITION. One step of the machine: the engine's step, a host agent's statement or a reset, as the schedule says
(40_command_framework R88, 70_reset_and_hazards R148, R158). -/

namespace Sys2Proof.Machine

/-- The engine's step on the latched command word: a reserved word commits BAD_CMD and does nothing else (30_encoding
R77), any other runs its command (40_command_framework R88, R89). -/
def engineStep (s : State) : Host.Outcome State Fault Refusal :=
  match decode s.latchedCmd with
  | .error _ => .next (s.commitErr .badCmd)
  | .ok i => exec i s

/-- One turn. The engine's step is enabled exactly when the block is busy (40_command_framework R88); a turn of an engine
that is not enabled passes. -/
def runTurn (t : Turn) (s : State) : Host.Outcome State Fault Refusal :=
  match t with
  | .engine => if s.busy then engineStep s else .next s
  | .host k => hostStep k s
  | .reset => .next s.resetBlock

/-- One step. A block whose parameters are invalid has no run (00_scope R9, 60_exceptions R138; log entry 20). -/
def step (s : State) : Host.Outcome State Fault Refusal :=
  if validInstance s.inst then runTurn s.nextTurn s.dropTurn else .refused .invalidInstance

/-- The state in which the very next step runs the command word `w`: the update with which a host's CMD write starts a
command (40_command_framework R87), and the engine's turn put first (log entry 9). -/
def State.withFetchWord (s : State) (nbits w : Nat) : State := (s.start (tableWord nbits w)).engineFirst

end Sys2Proof.Machine
end

