-- ==== Sys2Proof/Machine/HostText.lean ====
section
/-! DEFINITION. What the host does around the block (41_host_text_transform): the case transform and the source's Encode
and Decode as host programs. None of it is block hardware (00_scope R6). -/

namespace Sys2Proof.Machine

/-- MARKER, '!' (41_host_text_transform R101). -/
def marker : Byte := 0x21

/-- IsUpper: 'A' to 'Z' (41_host_text_transform R102). -/
def isUpper (c : Byte) : Bool := decide (0x41 ≤ c.toNat) && decide (c.toNat ≤ 0x5A)

/-- Lower, for an uppercase letter (41_host_text_transform R102). -/
def lower (c : Byte) : Byte := c + 0x20

/-- Upper: 'a' to 'z' go to 'A' to 'Z', every other byte is unchanged (41_host_text_transform R102). -/
def upper (c : Byte) : Byte := if 0x61 ≤ c.toNat ∧ c.toNat ≤ 0x7A then c - 0x20 else c

/-- prepare(s) (41_host_text_transform R103). -/
def prepare : List Byte → List Byte
  | [] => []
  | c :: cs => if isUpper c then marker :: lower c :: prepare cs else c :: prepare cs

/-- restore(s); a trailing marker is dropped (41_host_text_transform R104). -/
def restore : List Byte → List Byte
  | [] => []
  | [c] => if c = marker then [] else [c]
  | c :: d :: cs => if c = marker then upper d :: restore cs else c :: restore (d :: cs)

/-- The host variables of the Encode and Decode programs: the loop's index, `st`, `n` and `out`. -/
def varI : Nat := 0
def varSt : Nat := 1
def varN : Nat := 2
def varOut : Nat := 3

/-- The error code `st[11:8]` of the STATUS word a call read (41_host_text_transform R106). -/
def statusError : HostExpr := .bits (hostVar varSt) 11 8

/-- What a call does after RUN: read STATUS, fail if it shows an error, else read OLEN and the output
(41_host_text_transform R106, R107; log entry 17). -/
def callReads : List HostStmt :=
  [ rd32 0x10 varSt,
    .failIf statusError,
    rd32 0x18 varN,
    .forIn varI (.lit 0) (hostVar varN) (.rd 8 (.add (.lit 0x20000) (hostVar varI)) varOut (hostVar varI)) ]

/-- LOAD a text, RUN a command and read its result (41_host_text_transform R106, R107). -/
def callProgram (i : Instr) (text : List Byte) : List HostStmt := loadStmts varI text ++ runStmts i ++ callReads

/-- Encode(text) as a host program; none where the prepared text does not fit IBUF, and the call fails on the host side
(41_host_text_transform R106). -/
def encodeProgram (ibufSize : Nat) (text : List Byte) : Option (List HostStmt) :=
  if (prepare text).length ≤ ibufSize then some (callProgram .pack (prepare text)) else none

/-- Decode(wireText) as a host program (41_host_text_transform R107). -/
def decodeProgram (ibufSize : Nat) (wire : List Byte) : Option (List HostStmt) :=
  if wire.length ≤ ibufSize then some (callProgram .unpack wire) else none

/-- The bytes `out[0..n)` a call read, or none if one is missing. -/
def outBytes (vars : List ((Nat × Nat) × Nat)) (i : Nat) : Nat → Option (List Byte)
  | 0 => some []
  | n + 1 =>
    match lookupVar vars (varOut, i), outBytes vars (i + 1) n with
    | some v, some bs => some (BitVec.ofNat 8 v :: bs)
    | _, _ => none

/-- What an Encode call returns: the error code `st[11:8]` if the STATUS it read shows one, else the output
(41_host_text_transform R106, R108); none while the call has neither failed nor read its whole output. -/
def encodeAnswer (vars : List ((Nat × Nat) × Nat)) : Option (Except Nat (List Byte)) :=
  match evalExpr vars statusError with
  | none => none
  | some 0 =>
    match lookupVar vars (varN, 0) with
    | some n => (outBytes vars 0 n).map .ok
    | none => none
  | some (e + 1) => some (.error (e + 1))

/-- What a Decode call returns (41_host_text_transform R107, R108). -/
def decodeAnswer (vars : List ((Nat × Nat) × Nat)) : Option (Except Nat (List Byte)) :=
  match encodeAnswer vars with
  | some (.ok out) => some (.ok (restore out))
  | some (.error e) => some (.error e)
  | none => none

end Sys2Proof.Machine
end

