-- ==== Sys2Proof/Safety.lean ====
section
/-! DEFINITION. What counts as a good state, a success, a failure and an unchanged rest, in the terms the statements use:
said through the registers and through reads of single bytes, not through the functions that compute a command. -/

namespace Sys2Proof.Machine

/-- The command's input is a byte string: it is `IBUF[0..ILEN)`, ILEN is at most IBUF_SIZE and every byte of it is defined
(10_state R29, R41). -/
def HasInput (s : State) (input : List Byte) : Prop :=
  s.ilen.toNat = input.length ∧ input.length ≤ s.inst.ibufSize ∧ ∀ i, i < input.length → s.ibuf.read i = input[i]?

/-- The last command succeeded with an output and a residue: OBUF holds the output and nothing else is defined
(40_command_framework R90). -/
def Succeeds (t : State) (out : List Byte) (resid : Nat) : Prop :=
  t.errcode = 0 ∧ t.olen = BitVec.ofNat 32 out.length ∧ t.resid = BitVec.ofNat 32 resid ∧
  (∀ i, t.obuf.read i = out[i]?) ∧ t.done = true ∧ t.busy = false

/-- The last command failed with an error: no OBUF byte is defined (40_command_framework R90, 60_exceptions R136). -/
def Fails (t : State) (c : ErrorKind) : Prop :=
  t.errcode = errorCode c ∧ t.olen = 0 ∧ t.resid = 0 ∧ (∀ i, t.obuf.read i = none) ∧ t.done = true ∧ t.busy = false

/-- The decoding tree and its registers are the same. -/
def SameTree (s t : State) : Prop := t.nodes = s.nodes ∧ t.nodeCount = s.nodeCount ∧ t.treeValid = s.treeValid

/-- The tree of `t` is what EnsureTree makes of the tree of `s` (44_decoding_tree R123). -/
def TreeEnsured (s t : State) : Prop := SameTree (ensureTree s) t

/-- Everything a command has no business writing is the same: the parameters, CTRL, CFG, ILEN, NODE_SEL, TBL_SEL, every
IBUF byte, LATCHED_CMD, and the model's own fields (60_exceptions R136, 70_reset_and_hazards R154). -/
def SameElsewhere (s t : State) : Prop :=
  t.inst = s.inst ∧ t.ie = s.ie ∧ t.widthM1 = s.widthM1 ∧ t.ilen = s.ilen ∧ t.nodeSel = s.nodeSel ∧
  t.tblSel = s.tblSel ∧ t.ibuf = s.ibuf ∧ t.latchedCmd = s.latchedCmd ∧ t.turns = s.turns ∧ t.hosts = s.hosts ∧
  t.draws = s.draws

/-- A block with the parameter values of this spec (00_scope R8), at any base. -/
def OfThisSpec (p : Instance) : Prop :=
  p.codeTable = defaultTable ∧ p.maxCodeLen = 12 ∧ p.nodeCap = 64 ∧ p.ibufSize = 65536 ∧ p.obufSize = 65536

/-- A code table in which no code is a prefix of the code of another entry (00_scope R17). -/
def PrefixFree (table : List Entry) : Prop :=
  ∀ (i j : Nat) (e f : Entry), table[i]? = some e → table[j]? = some f → i ≠ j → ¬ e.code <+: f.code

/-- The TOKENS form of a list of tokens: each a 16-bit length, most significant byte first, and its bytes (30_encoding
R84). -/
def tokensForm (toks : List Token) : List Byte :=
  toks.flatMap (fun t => BitVec.ofNat 8 (t.length / 256) :: BitVec.ofNat 8 (t.length % 256) :: t)

/-- The two uppercase hex digits of a number below 256 (43_hex_codec R116). -/
def hexToken (v : Nat) : Token := [hexDigit (v / 16), hexDigit (v % 16)]

/-- The hardware form of CHUNK (42_bit_packer R112): bits are appended to an accumulator, which is emitted when it holds
`w` bits and, filled with zeros, at the end of the input if it is not empty. -/
def streamChunks (w : Nat) (acc : Bits) : Bits → Bits
  | [] => if acc.length = 0 then [] else acc ++ List.replicate (w - acc.length) false
  | b :: bs =>
    if acc.length + 1 = w then (acc ++ [b]) ++ streamChunks w [] bs else streamChunks w (acc ++ [b]) bs

/-- A token of exactly two uppercase hex digits (00_scope R17, 43_hex_codec R117). -/
def IsHexToken (t : Token) : Prop := ∃ v, v < 256 ∧ t = hexToken v

/-- The reserved command words: OP is 0x0 or 0xC to 0xF, or an MBZ bit is 1 (30_encoding R77). -/
def ReservedWord (v : Word) : Prop := v.toNat / 16 ≠ 0 ∨ v.toNat % 16 = 0 ∨ 12 ≤ v.toNat % 16

/-- The walk of 44_decoding_tree R125 as a relation: from node `n`, with `r` bits consumed since the last emission, over
a bit string, it emits a text and leaves a residue. There is no rule for an absent child. -/
inductive Walks (nodes : List Node) : Nat → Nat → Bits → List Byte → Nat → Prop where
  | finished (n r : Nat) : Walks nodes n r [] [] r
  | moves {n r r' : Nat} {b : Bool} {bs : Bits} {out : List Byte} (child : childOf nodes n b ≠ 0)
      (plain : (nodeAt nodes (childOf nodes n b)).hasVal = false)
      (rest : Walks nodes (childOf nodes n b) (r + 1) bs out r') : Walks nodes n r (b :: bs) out r'
  | emits {n r r' : Nat} {b : Bool} {bs : Bits} {out : List Byte} (child : childOf nodes n b ≠ 0)
      (valued : (nodeAt nodes (childOf nodes n b)).hasVal = true)
      (rest : Walks nodes 0 0 bs out r') :
      Walks nodes n r (b :: bs) ((nodeAt nodes (childOf nodes n b)).val :: out) r'

/-- The offsets of the window at which there is nothing (20_memory R53). -/
def ReservedOffset (p : Instance) (off : Nat) : Prop :=
  (0x100 ≤ off ∧ off < 0x10000) ∨ (0x10000 + p.ibufSize ≤ off ∧ 0x10000 ≤ off ∧ off < 0x20000) ∨
  (0x20000 + p.obufSize ≤ off ∧ 0x20000 ≤ off ∧ off < 0x30000) ∨ (0x30000 ≤ off ∧ off < 0x40000)

/-- The accesses of the window the block answers with a bus error (20_memory R57). -/
def BadAccess (p : Instance) (width off : Nat) : Prop :=
  (off < 0x100 ∧ (width ≠ 32 ∨ off % 4 ≠ 0)) ∨
  (0x10000 ≤ off ∧ off < 0x20000 ∧ off < 0x10000 + p.ibufSize ∧ width ≠ 8) ∨
  (0x20000 ≤ off ∧ off < 0x30000 ∧ off < 0x20000 + p.obufSize ∧ width ≠ 8)

/-- A 32-bit host read at an offset of the window answers a word and leaves the state as it is. -/
def Reads (t : State) (off : Nat) (v : Word) : Prop := busRead 32 (t.inst.blockBase + off) t = .next (v, t)

/-- The table of 70_reset_and_hazards R149, row by row, for a block with parameters `p`: what the registers read, the
table registers showing entry 0 (10_state R37, R38), what 0x3C to 0xFC (10_state R39) and the reserved offsets of the window
(20_memory R53, R55) read in aligned accesses, none of which spans two regions, the buffers and `irq`. The rows R149 calls unspecified, the node RAM and LATCHED_CMD, are not in it. -/
def ResetValues (p : Instance) (t : State) : Prop :=
  t.inst = p ∧
  Reads t 0x00 0x564C4301 ∧ Reads t 0x04 0 ∧ Reads t 0x08 7 ∧ Reads t 0x0C 0 ∧ Reads t 0x10 0 ∧ Reads t 0x14 0 ∧
  Reads t 0x18 0 ∧ Reads t 0x1C 0 ∧ Reads t 0x20 0 ∧ Reads t 0x24 0 ∧ Reads t 0x28 0 ∧
  Reads t 0x2C (BitVec.ofNat 32 p.codeTable.length) ∧ Reads t 0x30 0 ∧
  (∀ e, p.codeTable[0]? = some e →
    Reads t 0x34 ((BitVec.ofNat 32 e.code.length <<< 8) ||| e.char.setWidth 32) ∧
    Reads t 0x38 (BitVec.ofNat 32 (bitsVal e.code))) ∧
  (∀ off, 0x3C ≤ off → off ≤ 0xFC → off % 4 = 0 → Reads t off 0) ∧
  (∀ off, ReservedOffset p off → off % 4 = 0 → Reads t off 0) ∧
  t.busy = false ∧ t.done = false ∧ t.errcode = 0 ∧ t.treeValid = false ∧
  (∀ i, t.ibuf.read i = none) ∧ (∀ i, t.obuf.read i = none) ∧ t.irq = false

/-- A number of turns of one host agent, one after another. -/
def hostTurns (k : Nat) : Nat → State → Host.Outcome State Fault Refusal
  | 0, s => .next s
  | n + 1, s =>
    match hostStep k s with
    | .next t => hostTurns k n t
    | .fault f => .fault f
    | .refused r => .refused r

/-- Two host variable lists that differ at most at one variable, which the second holds with a value. -/
def Assigned (vars vars' : List ((Nat × Nat) × Nat)) (x : Nat × Nat) (v : Nat) : Prop :=
  lookupVar vars' x = some v ∧ ∀ y, y ≠ x → lookupVar vars' y = lookupVar vars y

/-- The state with what agent `k` has left to do, and its variables, replaced, and nothing else. -/
def withAgent (s : State) (k : Nat) (prog : List HostStmt) (vars : List ((Nat × Nat) × Nat)) : State :=
  { s with hosts := s.hosts.set k { prog := prog, vars := vars } }

/-- The tree Build makes from an instance's table over a fresh node RAM. -/
def freshTree (p : Instance) : Tree := buildTree p.codeTable (List.replicate p.nodeCap Node.blank)

/-- Both buffers are in canonical form, and no byte past IBUF_SIZE is defined (10_state R41). -/
def State.BuffersOk (s : State) : Prop :=
  s.ibuf.wf = true ∧ s.obuf.wf = true ∧ ∀ i, (s.ibuf.read i).isSome = true → i < s.inst.ibufSize

/-- OLEN is at most OBUF_SIZE and the defined OBUF bytes are exactly `[0, OLEN)` (10_state R42). -/
def State.OutputOk (s : State) : Prop :=
  s.olen.toNat ≤ s.inst.obufSize ∧ ∀ i, (s.obuf.read i).isSome = decide (i < s.olen.toNat)

/-- A busy block shows DONE = 0 and ERRCODE = 0 (70_reset_and_hazards R152); ERRCODE is never 10 to 15 (60_exceptions R133);
after an error OLEN and RESID are 0 (60_exceptions R136). -/
def State.StatusOk (s : State) : Prop :=
  (s.busy = true → s.done = false ∧ s.errcode = 0) ∧ s.errcode.toNat ≤ 9 ∧
  (s.errcode ≠ 0 → s.olen = 0 ∧ s.resid = 0)

/-- The node RAM has NODE_CAP entries; NODE_COUNT is 0 while the tree is not valid; a valid tree is, count and nodes, the
tree Build makes (10_state R32, R49, 20_memory R73). -/
def State.TreeOk (s : State) : Prop :=
  s.nodes.length = s.inst.nodeCap ∧ (s.treeValid = false → s.nodeCount = 0) ∧
  (s.treeValid = true →
    s.nodeCount = BitVec.ofNat 32 (freshTree s.inst).count ∧
    ∀ i, i < (freshTree s.inst).count → nodeAt s.nodes i = nodeAt (freshTree s.inst).nodes i)

/-- The invariant of the block's state: what is true after reset and every step keeps. -/
def State.Inv (s : State) : Prop := s.BuffersOk ∧ s.OutputOk ∧ s.StatusOk ∧ s.TreeOk

end Sys2Proof.Machine
end

