-- ==== Sys2Proof/Certificates/Slice0/Obligations.lean ====
section
/-! DEFINITION. The statements about the block, made from the numbered rules of spec/. -/

open Sys2Proof Sys2Proof.Machine

/-! ## Command words and the engine's step -/

/-- The eleven words of the opcode map (30_encoding R76) and some reserved words (R77) decode as the map says. -/
def Obligations.CommandWordsDecodeAsTheOpcodeMap : Prop :=
  decode 0x00000001 = .ok .build ∧ decode 0x00000002 = .ok .tobits ∧ decode 0x00000003 = .ok .chunk ∧
  decode 0x00000004 = .ok .join ∧ decode 0x00000005 = .ok .tohex ∧ decode 0x00000006 = .ok .fromhex ∧
  decode 0x00000007 = .ok .tokjoin ∧ decode 0x00000008 = .ok .toksplit ∧ decode 0x00000009 = .ok .decode ∧
  decode 0x0000000A = .ok .pack ∧ decode 0x0000000B = .ok .unpack ∧
  decode 0x00000000 = .error (.reservedOp 0) ∧ decode 0x0000000C = .error (.reservedOp 12) ∧
  decode 0x0000000F = .error (.reservedOp 15) ∧ decode 0x0000001A = .error .mbzSet ∧
  decode 0x8000000A = .error .mbzSet

/-- Decoding is total on all 2^32 words, and a word is a command exactly when it is that command's encoding (30_encoding
R78): a word with an MBZ bit set or with an OP that no row has is reserved. -/
def Obligations.DecodingAndEncodingAgree : Prop :=
  (∀ i, decode (encode i) = .ok i) ∧
  (∀ (v : Word) (i : Instr), decode v = .ok i → v = encode i) ∧
  (∀ v : Word, (∃ e, decode v = .error e) ↔ ReservedWord v)

/-- When it is the engine's turn on a busy block, a step is exec of the latched command, on the state with that turn taken
off the schedule (40_command_framework R88, R89); when it is a host agent's turn, busy or not, a step is that agent's
statement on the state with the turn taken off (30_encoding R85). That the turns stand in a schedule, and that the engine
moves first once it is used up, the clause `s.turns = []`, is the model's choice (log entry 7). -/
def Obligations.StepRunsTheLatchedCommand : Prop :=
  (∀ (s : State) (i : Instr), validInstance s.inst = true → s.busy = true → decode s.latchedCmd = .ok i →
    (s.turns = [] → step s = exec i s) ∧
    (∀ rest, s.turns = .engine :: rest → step s = exec i { s with turns := rest })) ∧
  (∀ (s : State) (k : Nat) (rest : List Turn), validInstance s.inst = true → s.turns = .host k :: rest →
    step s = hostStep k { s with turns := rest })

/-- A reserved word starts a command as any other does, and the engine's step then commits BAD_CMD whatever IBUF and ILEN
hold, with no other effect (30_encoding R77). -/
def Obligations.ReservedWordsCompleteWithBadCmd : Prop :=
  (∀ (s : State) (v : Word), s.busy = false →
    ∃ t, busWrite 32 (s.inst.blockBase + 0x0C) v s = .next t ∧ t.busy = true ∧ t.latchedCmd = v) ∧
  (∀ (s : State) (rest : List Turn), validInstance s.inst = true → s.busy = true → s.turns = .engine :: rest →
    ReservedWord s.latchedCmd →
    ∃ t, step s = .next t ∧ Fails t .badCmd ∧ SameTree s t ∧ SameElsewhere { s with turns := rest } t) ∧
  (∀ v : Word, ReservedWord v ∨ ∃ i, decode v = .ok i)

/-- The engine's step is the only way BUSY returns to 0 except reset (40_command_framework R88): no host access ends a
command. -/
def Obligations.OnlyEngineOrResetEndsACommand : Prop :=
  ∀ (s t : State), step s = .next t → s.busy = true → t.busy = false → s.nextTurn = .engine ∨ s.nextTurn = .reset

/-- A busy block whose schedule is used up completes its command in the next step, and shows DONE (the model's form of the
weak fairness of 70_reset_and_hazards R158; the policy is log entry 7). -/
def Obligations.UsedUpScheduleLetsTheEngineFinish : Prop :=
  ∀ (s t : State), s.busy = true → s.turns = [] → step s = .next t → t.busy = false ∧ t.done = true ∧ t.irq = s.ie

/-- An idle block keeps all its state: on a turn of the engine, which is not enabled, and on a turn of a host agent that has
no statement left (60_exceptions R147, 40_command_framework R88). That such turns are part of a schedule, and pass with the
turn taken off it, is the model's choice (log entry 7). -/
def Obligations.IdleBlockKeepsItsState : Prop :=
  ∀ (s : State) (rest : List Turn), validInstance s.inst = true → s.busy = false →
    (s.turns = .engine :: rest → step s = .next { s with turns := rest }) ∧
    (∀ k, s.turns = .host k :: rest → (∀ h ∈ s.hosts, h.prog = []) → step s = .next { s with turns := rest })

/-! ## Reset -/

/-- A reset, whatever the block is doing, gives every piece of state the value of 70_reset_and_hazards R149, the table of
`ResetValues`; nothing of a command in progress is committed (R148). The state right after reset of the block of this spec
has the same values, with TBL_COUNT 28, TBL_DATA 0x220 and TBL_CODE 0x3. -/
def Obligations.ResetGivesEveryPieceItsValue : Prop :=
  (∀ (s : State) (rest : List Turn), validInstance s.inst = true → s.turns = .reset :: rest →
    ∃ t, step s = .next t ∧ ResetValues s.inst t) ∧
  ResetValues defaultInstance State.reset ∧
  Reads State.reset 0x2C 28 ∧ Reads State.reset 0x34 0x220 ∧ Reads State.reset 0x38 0x3

/-! ## The host's accesses -/

/-- A bus error answers exactly the accesses of 20_memory R57: of the register space with a width other than 32 or at an
offset that is no multiple of 4, of a buffer below its size with a width other than 8. That an access which spans two
regions lies where its lowest offset lies (a 32-bit access at 0xFFFE is no bus error) is the model's inference (log entry
10). -/
def Obligations.BusErrorsExactly : Prop :=
  ∀ (s : State) (width off : Nat) (v : Word), off < 0x40000 →
    (busRead width (s.inst.blockBase + off) s = .fault .busError ↔ BadAccess s.inst width off) ∧
    (busWrite width (s.inst.blockBase + off) v s = .fault .busError ↔ BadAccess s.inst width off)

/-- A host access of any width or alignment to a reserved offset reads 0 and ignores writes (20_memory R55); the offsets
0x3C to 0xFC hold no register (10_state R39). That an access which begins in reserved space and runs into a buffer is an
access to reserved space (32 bits wide at 0xFFFE) is the model's inference (log entry 10). -/
def Obligations.ReservedOffsetsReadZeroAndIgnoreWrites : Prop :=
  (∀ (s : State) (width off : Nat) (v : Word), ReservedOffset s.inst off →
    busRead width (s.inst.blockBase + off) s = .next (0, s) ∧ busWrite width (s.inst.blockBase + off) v s = .next s) ∧
  (∀ (s : State) (off : Nat) (v : Word), 0x3C ≤ off → off ≤ 0xFC → off % 4 = 0 →
    busRead 32 (s.inst.blockBase + off) s = .next (0, s) ∧ busWrite 32 (s.inst.blockBase + off) v s = .next s)

/-- No host read has a side effect: it leaves the state as it is, or counts one unspecified value drawn while the block is
busy (the model's counter, log entry 6); on an idle block the same read answers the same again (20_memory R66). -/
def Obligations.HostReadsHaveNoSideEffect : Prop :=
  ∀ (s t : State) (width addr : Nat) (v : Word), busRead width addr s = .next (v, t) →
    (t = s ∨ (s.busy = true ∧ t = { s with draws := s.draws + 1 })) ∧
    (s.busy = false → busRead width addr t = .next (v, t))

/-- What a write of each writable register keeps, as a read of it then returns it, and that the write touches nothing
else (10_state R25, R26, R29, R33, R36), on an idle block. -/
def Obligations.RegistersReadBackWhatTheyKeep : Prop :=
  ∀ (s : State) (v : Word), s.busy = false →
    (∃ t, busWrite 32 (s.inst.blockBase + 0x04) v s = .next t ∧
      busRead 32 (s.inst.blockBase + 0x04) t = .next (v &&& 1, t) ∧ t = { s with ie := t.ie }) ∧
    (∃ t, busWrite 32 (s.inst.blockBase + 0x08) v s = .next t ∧
      busRead 32 (s.inst.blockBase + 0x08) t = .next (v &&& 7, t) ∧ t = { s with widthM1 := t.widthM1 }) ∧
    (∃ t, busWrite 32 (s.inst.blockBase + 0x14) v s = .next t ∧
      busRead 32 (s.inst.blockBase + 0x14) t = .next (v, t) ∧ t = { s with ilen := t.ilen }) ∧
    (∃ t, busWrite 32 (s.inst.blockBase + 0x24) v s = .next t ∧
      busRead 32 (s.inst.blockBase + 0x24) t = .next (v &&& 0xFF, t) ∧ t = { s with nodeSel := t.nodeSel }) ∧
    (∃ t, busWrite 32 (s.inst.blockBase + 0x30) v s = .next t ∧
      busRead 32 (s.inst.blockBase + 0x30) t = .next (v &&& 0xFF, t) ∧ t = { s with tblSel := t.tblSel })

/-- While busy, a host write to CFG, CMD or ILEN, or to any IBUF byte, is ignored; writes to CTRL, STATUS.DONE, NODE_SEL and
TBL_SEL are never locked (10_state R40). -/
def Obligations.LockedWhileBusy : Prop :=
  (∀ (s : State) (v : Word), s.busy = true →
    busWrite 32 (s.inst.blockBase + 0x08) v s = .next s ∧ busWrite 32 (s.inst.blockBase + 0x0C) v s = .next s ∧
    busWrite 32 (s.inst.blockBase + 0x14) v s = .next s ∧
    ∀ i, i < s.inst.ibufSize → i < 0x10000 → busWrite 8 (s.inst.blockBase + 0x10000 + i) v s = .next s) ∧
  (∀ (s : State) (v : Word),
    busWrite 32 (s.inst.blockBase + 0x04) v s = .next { s with ie := v.getLsbD 0 } ∧
    busWrite 32 (s.inst.blockBase + 0x10) v s = .next { s with done := s.done && !v.getLsbD 1 } ∧
    busWrite 32 (s.inst.blockBase + 0x24) v s = .next { s with nodeSel := v.setWidth 8 } ∧
    busWrite 32 (s.inst.blockBase + 0x30) v s = .next { s with tblSel := v.setWidth 8 })

/-- A CMD write on an idle block latches the word, sets BUSY and clears DONE and ERRCODE, and nothing else changes; on a
busy block it has no effect (40_command_framework R87). A read of CMD returns 0 (10_state R27). -/
def Obligations.CmdWriteStartsACommand : Prop :=
  ∀ (s : State) (v : Word),
    (s.busy = false → busWrite 32 (s.inst.blockBase + 0x0C) v s =
      .next { s with latchedCmd := v, busy := true, done := false, errcode := 0 }) ∧
    (s.busy = true → busWrite 32 (s.inst.blockBase + 0x0C) v s = .next s) ∧
    busRead 32 (s.inst.blockBase + 0x0C) s = .next (0, s)

/-- STATUS reads its five fields at their bits and 0 in every other bit; ERR is ERRCODE != 0; a write clears DONE if bit 1
of the value is 1 and leaves every other field, and all other state (10_state R28). -/
def Obligations.StatusShowsItsFields : Prop :=
  ∀ (s : State), (∃ w, busRead 32 (s.inst.blockBase + 0x10) s = .next (w, s) ∧
    w.getLsbD 0 = s.busy ∧ w.getLsbD 1 = s.done ∧ w.getLsbD 2 = decide (s.errcode ≠ 0) ∧
    w.getLsbD 3 = s.treeValid ∧ w.extractLsb' 8 4 = s.errcode ∧ w.extractLsb' 4 4 = 0#4 ∧ w.extractLsb' 12 20 = 0#20) ∧
  ∀ v : Word, busWrite 32 (s.inst.blockBase + 0x10) v s = .next { s with done := s.done && !v.getLsbD 1 }

/-- IBUF: a host write of a byte while idle sets that byte and makes it defined, and no other byte changes; while busy it
is ignored; a read returns the value of a defined byte, busy or not, and faults on an undefined one (20_memory R58). -/
def Obligations.IbufWritesAndReads : Prop :=
  ∀ (s : State) (i : Nat), i < s.inst.ibufSize → i < 0x10000 →
    (∀ v : Word, s.busy = false → ∃ t, busWrite 8 (s.inst.blockBase + 0x10000 + i) v s = .next t ∧
      t.ibuf.read i = some (v.setWidth 8) ∧ (∀ j, j ≠ i → t.ibuf.read j = s.ibuf.read j) ∧
      t = { s with ibuf := t.ibuf } ∧
      busRead 8 (s.inst.blockBase + 0x10000 + i) t = .next (v &&& 0xFF, t)) ∧
    (∀ v : Word, s.busy = true → busWrite 8 (s.inst.blockBase + 0x10000 + i) v s = .next s) ∧
    (∀ b, s.ibuf.read i = some b → busRead 8 (s.inst.blockBase + 0x10000 + i) s = .next (b.setWidth 32, s)) ∧
    (s.ibuf.read i = none → busRead 8 (s.inst.blockBase + 0x10000 + i) s = .fault .undefinedRead)

/-- OBUF: a host write is ignored (20_memory R60); a read while idle returns the value of a defined byte and faults on an
undefined one (R59; what a read returns on a busy block is unspecified: ReadsWhileBusy). -/
def Obligations.ObufIsReadOnlyToTheHost : Prop :=
  ∀ (s : State) (i : Nat), i < s.inst.obufSize → i < 0x10000 →
    (∀ v : Word, busWrite 8 (s.inst.blockBase + 0x20000 + i) v s = .next s) ∧
    (∀ b, s.busy = false → s.obuf.read i = some b →
      busRead 8 (s.inst.blockBase + 0x20000 + i) s = .next (b.setWidth 32, s)) ∧
    (s.busy = false → s.obuf.read i = none →
      busRead 8 (s.inst.blockBase + 0x20000 + i) s = .fault .undefinedRead)

/-- While busy, OLEN, RESID, NODE_COUNT, NODE_DATA and every OBUF byte read a fresh free value and do not fault, defined or
not; every other register reads normally, and STATUS shows BUSY = 1, DONE = 0, ERRCODE = 0 and the TREE_VALID from before the
command
(70_reset_and_hazards R152; the free values are log entry 6). -/
def Obligations.ReadsWhileBusy : Prop :=
  ∀ (s : State), s.busy = true →
    (∀ off, off = 0x18 ∨ off = 0x1C ∨ off = 0x20 ∨ off = 0x28 →
      busRead 32 (s.inst.blockBase + off) s = .next (Config.freeWord s.draws, { s with draws := s.draws + 1 })) ∧
    (∀ i, i < s.inst.obufSize → i < 0x10000 → busRead 8 (s.inst.blockBase + 0x20000 + i) s =
      .next ((Config.freeByte s.draws).setWidth 32, { s with draws := s.draws + 1 })) ∧
    (∀ off, off < 0x100 → off % 4 = 0 → off ≠ 0x18 → off ≠ 0x1C → off ≠ 0x20 → off ≠ 0x28 →
      busRead 32 (s.inst.blockBase + off) s = .next (s.regWord (regAt off), s)) ∧
    (s.StatusOk → busRead 32 (s.inst.blockBase + 0x10) s = .next (if s.treeValid then 9 else 1, s))

/-- NODE_DATA on an idle block shows the selected node's fields where the tree is valid and the index is below NODE_COUNT,
and 0 otherwise (10_state R34; what it reads on a busy block is unspecified: ReadsWhileBusy). -/
def Obligations.NodeDataShowsTheSelectedNode : Prop :=
  ∀ (s : State), s.busy = false → ∃ w, busRead 32 (s.inst.blockBase + 0x28) s = .next (w, s) ∧
    (s.treeValid = true ∧ s.nodeSel.toNat < s.nodeCount.toNat →
      w.extractLsb' 0 8 = (nodeAt s.nodes s.nodeSel.toNat).c0 ∧
      w.extractLsb' 8 8 = (nodeAt s.nodes s.nodeSel.toNat).c1 ∧
      w.extractLsb' 16 8 = (nodeAt s.nodes s.nodeSel.toNat).val ∧
      w.getLsbD 24 = (nodeAt s.nodes s.nodeSel.toNat).hasVal ∧ w.extractLsb' 25 7 = 0#7) ∧
    (¬ (s.treeValid = true ∧ s.nodeSel.toNat < s.nodeCount.toNat) → w = 0)

/-- TBL_COUNT, TBL_DATA and TBL_CODE show the number of entries and the selected entry: its char, its code's length and its
code right-aligned, first bit highest; past the table they read 0; after reset they show entry 0 (10_state R35, R37,
R38). -/
def Obligations.TableRegistersShowTheSelectedEntry : Prop :=
  (∀ (s : State), validInstance s.inst = true →
    busRead 32 (s.inst.blockBase + 0x2C) s = .next (BitVec.ofNat 32 s.inst.codeTable.length, s) ∧
    ∃ d c, busRead 32 (s.inst.blockBase + 0x34) s = .next (d, s) ∧ busRead 32 (s.inst.blockBase + 0x38) s = .next (c, s) ∧
      (∀ e, s.inst.codeTable[s.tblSel.toNat]? = some e →
        d.extractLsb' 0 8 = e.char ∧ (d.extractLsb' 8 6).toNat = e.code.length ∧ d.extractLsb' 14 18 = 0#18 ∧
        (∀ i, i < e.code.length → e.code[i]? = some (c.getLsbD (e.code.length - 1 - i))) ∧
        (∀ i, e.code.length ≤ i → c.getLsbD i = false)) ∧
      (s.inst.codeTable.length ≤ s.tblSel.toNat → d = 0 ∧ c = 0)) ∧
  State.reset.inst.codeTable.length = 28 ∧
  busRead 32 (State.reset.inst.blockBase + 0x34) State.reset = .next (0x220, State.reset) ∧
  busRead 32 (State.reset.inst.blockBase + 0x38) State.reset = .next (0x3, State.reset)

/-- The interrupt output: it is IE AND DONE; a completion, success or error alike, raises it exactly when IE is set;
starting a command, the acknowledge and a write of 0 to IE drop it (60_exceptions R140). -/
def Obligations.InterruptFollowsEnableAndDone : Prop :=
  (∀ s : State, s.irq = true ↔ s.ie = true ∧ s.done = true) ∧
  (∀ (s t : State) (i : Instr), exec i s = .next t → t.irq = s.ie) ∧
  (∀ (s t : State) (v : Word), s.busy = false → busWrite 32 (s.inst.blockBase + 0x0C) v s = .next t → t.irq = false) ∧
  (∀ (s t : State), busWrite 32 (s.inst.blockBase + 0x10) 2 s = .next t → t.irq = false) ∧
  (∀ (s t : State), busWrite 32 (s.inst.blockBase + 0x04) 0 s = .next t → t.irq = false)

/-- The statements of a host program (30_encoding R85, R86), run by the agent whose turn it is, with offsets relative to
BLOCK_BASE: WR and RD are one bus access each, and stop where it stops; POLL is one 32-bit read a turn until it holds; FOR
runs its body for each number from its lower to below its upper bound, in order; a group runs its statements in order; the
failure test of a host call goes on or ends the program (41_host_text_transform R106). The turns taken without a bus
access, POLL's one read a turn, and how variables are held are the model's choices (log entries 8, 17, 21, 22, 23). -/
def Obligations.HostStatementsAreBusAccesses : Prop :=
  ∀ (s : State) (k : Nat) (a : HostAgent) (rest : List HostStmt), s.hosts[k]? = some a →
    (∀ (width : Nat) (off val : HostExpr) (o v : Nat), a.prog = .wr width off val :: rest →
      evalExpr a.vars off = some o → evalExpr a.vars val = some v →
      (∀ t, busWrite width (s.inst.blockBase + o) (BitVec.ofNat 32 v) s = .next t →
        hostStep k s = .next (withAgent t k rest a.vars)) ∧
      (∀ f, busWrite width (s.inst.blockBase + o) (BitVec.ofNat 32 v) s = .fault f → hostStep k s = .fault f)) ∧
    (∀ (width x : Nat) (off idx : HostExpr) (o i : Nat), a.prog = .rd width off x idx :: rest →
      evalExpr a.vars off = some o → evalExpr a.vars idx = some i →
      (∀ v t, busRead width (s.inst.blockBase + o) s = .next (v, t) →
        ∃ vars, hostStep k s = .next (withAgent t k rest vars) ∧ Assigned a.vars vars (x, i) v.toNat) ∧
      (∀ f, busRead width (s.inst.blockBase + o) s = .fault f → hostStep k s = .fault f)) ∧
    (∀ (off : HostExpr) (o mask val : Nat) (v : Word) (t : State), a.prog = .poll off mask val :: rest →
      evalExpr a.vars off = some o → busRead 32 (s.inst.blockBase + o) s = .next (v, t) →
      hostStep k s = .next (withAgent t k (if v.toNat &&& mask = val then rest else a.prog) a.vars)) ∧
    (∀ (i x y : Nat) (lo hi : HostExpr) (body : HostStmt), a.prog = .forIn i lo hi body :: rest →
      evalExpr a.vars lo = some x → evalExpr a.vars hi = some y →
      (x < y → ∃ vars, Assigned a.vars vars (i, 0) x ∧
        hostStep k s = .next (withAgent s k (body :: .forIn i (.lit (x + 1)) (.lit y) body :: rest) vars)) ∧
      (y ≤ x → hostStep k s = .next (withAgent s k rest a.vars))) ∧
    (∀ b c : HostStmt, a.prog = .seq b c :: rest → hostStep k s = .next (withAgent s k (b :: c :: rest) a.vars)) ∧
    (∀ (code : HostExpr) (c : Nat), a.prog = .failIf code :: rest → evalExpr a.vars code = some c →
      hostStep k s = .next (withAgent s k (if c = 0 then rest else []) a.vars))

/-! ## What every command keeps and commits -/

/-- The frame of every command: a next state leaves the parameters, CTRL, CFG, ILEN, NODE_SEL, TBL_SEL, every IBUF byte and
the latched word as they were, and shows DONE and not BUSY; only BUILD, DECODE and UNPACK may change the tree, and then it
is what EnsureTree makes of it (60_exceptions R136, 70_reset_and_hazards R154, 40_command_framework R90). -/
def Obligations.CommandsKeepEverythingElse : Prop :=
  ∀ (i : Instr) (s t : State), exec i s = .next t →
    SameElsewhere s t ∧ t.done = true ∧ t.busy = false ∧
    (i ≠ .build → i ≠ .decode → i ≠ .unpack → SameTree s t) ∧ (SameTree s t ∨ TreeEnsured s t)

/-- A command succeeds with OBUF `[0, OLEN)` defined and nothing else, or fails with OLEN = 0, RESID = 0 and no OBUF byte
defined (40_command_framework R90, 60_exceptions R136): no partial result. -/
def Obligations.NoPartialResults : Prop :=
  ∀ (i : Instr) (s t : State), validInstance s.inst = true → exec i s = .next t →
    (t.errcode = 0 ∧ t.olen.toNat ≤ s.inst.obufSize ∧ ∀ j, (t.obuf.read j).isSome = true ↔ j < t.olen.toNat) ∨
    (t.errcode ≠ 0 ∧ t.olen = 0 ∧ t.resid = 0 ∧ ∀ j, t.obuf.read j = none)

/-- The error codes each command can commit, by number (60_exceptions R133, the column "raised by"). -/
def Obligations.CommandsRaiseOnlyTheirErrors : Prop :=
  ∀ (i : Instr) (s t : State), exec i s = .next t →
    t.errcode.toNat ∈ (match i with
      | .build => [0]
      | .tobits => [0, 1, 7, 8]
      | .chunk => [0, 4, 7, 8]
      | .join => [0, 3, 7, 8]
      | .tohex => [0, 3, 7, 8]
      | .fromhex => [0, 2, 5, 7, 8]
      | .tokjoin => [0, 5, 7, 8]
      | .toksplit => [0, 7, 8]
      | .decode => [0, 4, 6, 7, 8]
      | .pack => [0, 1, 7, 8]
      | .unpack => [0, 2, 6, 7, 8])

/-- BAD_LEN is checked before any input byte is read and before the tree is built: with ILEN above IBUF_SIZE every command
but BUILD commits BAD_LEN, whatever IBUF holds, and leaves the tree (60_exceptions R135, 40_command_framework R89). -/
def Obligations.BadLenComesBeforeTheInput : Prop :=
  ∀ (i : Instr) (s : State), i ≠ .build → s.inst.ibufSize < s.ilen.toNat →
    ∃ t, exec i s = .next t ∧ Fails t .badLen ∧ SameTree s t ∧ SameElsewhere s t

/-- A command that reads an undefined input byte has no commit: the model faults UndefinedRead (20_memory R61,
40_command_framework R91, R92). BUILD reads no input byte and never faults. -/
def Obligations.UndefinedInputHasNoCommit : Prop :=
  (∀ (i : Instr) (s : State) (j : Nat), i ≠ .build → s.ilen.toNat ≤ s.inst.ibufSize → j < s.ilen.toNat →
    s.ibuf.read j = none → exec i s = .fault .undefinedRead) ∧
  (∀ s : State, exec .build s ≠ .fault .undefinedRead)

/-! ## The bit packer -/

/-- The lookup of a byte yields the code of the entry with the lowest index whose char it is, or none if no entry has it
(10_state R44). -/
def Obligations.LookupTakesTheLowestIndex : Prop :=
  ∀ (table : List Entry) (c : Byte),
    (∀ k, lookup table c = some k ↔ ∃ (j : Nat) (e : Entry), table[j]? = some e ∧ e.char = c ∧ e.code = k ∧
      ∀ (j' : Nat) (e' : Entry), j' < j → table[j']? = some e' → e'.char ≠ c) ∧
    (lookup table c = none ↔ ∀ e ∈ table, e.char ≠ c)

/-- TOBITS: when every input byte has an entry, it succeeds with the BITSTR of the codes, concatenated in order, and residue
0, or fails with OVERFLOW if that does not fit; when some byte has no entry, it fails with UNKNOWN_CHARACTER (42_bit_packer
R110). -/
def Obligations.TobitsConcatenatesTheCodes : Prop :=
  encode .tobits = 0x00000002 ∧
  (∀ (s : State) (input : List Byte) (codes : List Bits), HasInput s input →
    List.Forall₂ (fun c k => lookup s.inst.codeTable c = some k) input codes →
    (codes.flatten.length ≤ s.inst.obufSize →
      ∃ t, exec .tobits s = .next t ∧ Succeeds t (codes.flatten.map bitByte) 0 ∧ SameTree s t ∧ SameElsewhere s t) ∧
    (s.inst.obufSize < codes.flatten.length →
      ∃ t, exec .tobits s = .next t ∧ Fails t .overflow ∧ SameTree s t ∧ SameElsewhere s t)) ∧
  (∀ (s : State) (input : List Byte) (c : Byte), HasInput s input → c ∈ input → lookup s.inst.codeTable c = none →
    ∃ t, exec .tobits s = .next t ∧ Fails t .unknownCharacter ∧ SameTree s t ∧ SameElsewhere s t)

/-- CHUNK: with k the least number of chunks of width W that hold the bits, it succeeds with the bits and the zeros that
fill the last chunk, or fails with OVERFLOW if they do not fit; a byte other than '0' and '1' fails with MALFORMED_BITS
(42_bit_packer R111). -/
def Obligations.ChunkPadsWithZeros : Prop :=
  encode .chunk = 0x00000003 ∧
  (∀ (s : State) (bits : Bits) (k : Nat), HasInput s (bits.map bitByte) →
    bits.length ≤ k * s.width → k * s.width < bits.length + s.width →
    (k * s.width ≤ s.inst.obufSize →
      ∃ t, exec .chunk s = .next t ∧
        Succeeds t ((bits ++ List.replicate (k * s.width - bits.length) false).map bitByte) 0 ∧
        SameTree s t ∧ SameElsewhere s t) ∧
    (s.inst.obufSize < k * s.width →
      ∃ t, exec .chunk s = .next t ∧ Fails t .overflow ∧ SameTree s t ∧ SameElsewhere s t)) ∧
  (∀ (s : State) (input : List Byte) (c : Byte), HasInput s input → c ∈ input → c ≠ 0x30 → c ≠ 0x31 →
    ∃ t, exec .chunk s = .next t ∧ Fails t .malformedBits ∧ SameTree s t ∧ SameElsewhere s t)

/-- The streaming form of CHUNK, with an accumulator of W bits, gives the same output as the normative one for every input
(42_bit_packer R112). -/
def Obligations.StreamingChunkGivesTheSameOutput : Prop :=
  ∀ (w : Nat) (bits : Bits), 1 ≤ w → w ≤ 8 → streamChunks w [] bits = padBits w bits

/-- JOIN: a valid CHUNKS(W) input comes out unchanged, or OVERFLOW if it does not fit OBUF; a byte other than '0' and '1', or
a length that is no multiple of W, fails with MALFORMED_CHUNK (42_bit_packer R113). -/
def Obligations.JoinConcatenatesChunks : Prop :=
  encode .join = 0x00000004 ∧
  (∀ (s : State) (chunks : List Bits), HasInput s (chunks.flatten.map bitByte) → (∀ ch ∈ chunks, ch.length = s.width) →
    (chunks.flatten.length ≤ s.inst.obufSize →
      ∃ t, exec .join s = .next t ∧ Succeeds t (chunks.flatten.map bitByte) 0 ∧ SameTree s t ∧ SameElsewhere s t) ∧
    (s.inst.obufSize < chunks.flatten.length →
      ∃ t, exec .join s = .next t ∧ Fails t .overflow ∧ SameTree s t ∧ SameElsewhere s t)) ∧
  (∀ (s : State) (input : List Byte), HasInput s input →
    ((∃ c ∈ input, c ≠ 0x30 ∧ c ≠ 0x31) ∨ input.length % s.width ≠ 0) →
    ∃ t, exec .join s = .next t ∧ Fails t .malformedChunk ∧ SameTree s t ∧ SameElsewhere s t)

/-- The laws of the packer, whenever no step overflows (42_bit_packer R114): CHUNK of n bits succeeds with a length of
`ceil(n / W) * W`; JOIN of that with the same W gives the bits and the padding, fewer than W zeros, which is the bits
themselves exactly when W divides n; CHUNK of a JOIN's output with the same W gives that output. -/
def Obligations.PackerLaws : Prop :=
  (∀ (s t : State) (bits : Bits), HasInput s (bits.map bitByte) → exec .chunk s = .next t →
    t.errcode ≠ errorCode .overflow →
    ∃ out, Succeeds t out 0 ∧ out.length = (bits.length + (s.width - 1)) / s.width * s.width) ∧
  (∀ (s s' t t' : State) (bits : Bits) (out : List Byte), HasInput s (bits.map bitByte) → s'.widthM1 = s.widthM1 →
    exec .chunk s = .next t → Succeeds t out 0 → HasInput s' out → exec .join s' = .next t' → t'.errcode ≠ errorCode .overflow →
    ∃ p, p < s.width ∧ (bits.length + p) % s.width = 0 ∧ out.length = bits.length + p ∧
      Succeeds t' ((bits ++ List.replicate p false).map bitByte) 0 ∧
      (bits.length % s.width = 0 ↔ Succeeds t' (bits.map bitByte) 0)) ∧
  (∀ (s s' t t' : State) (input out : List Byte), HasInput s input → s'.widthM1 = s.widthM1 →
    exec .join s = .next t → Succeeds t out 0 → HasInput s' out → exec .chunk s' = .next t' →
    t'.errcode ≠ errorCode .overflow → Succeeds t' out 0)

/-! ## The hex codec -/

/-- HexDigit, HexVal and the value of a chunk: the digits are the uppercase hex digits, HexVal is defined on exactly those
and is HexDigit's inverse, a chunk's value is its bits read first bit most significant, below 2^W, and Bits_W is its inverse
(40_command_framework R99, R100, 43_hex_codec R115). -/
def Obligations.HexDigitsAndChunkValues : Prop :=
  (∀ d, d ≤ 9 → (hexDigit d).toNat = 0x30 + d) ∧ (∀ d, 10 ≤ d → d ≤ 15 → (hexDigit d).toNat = 0x41 + (d - 10)) ∧
  (∀ (c : Byte) (d : Nat), hexVal c = some d ↔ d ≤ 15 ∧ c = hexDigit d) ∧
  (∀ bits : Bits, bitsVal bits =
    ∑ i ∈ Finset.range bits.length, (bits.getD i false).toNat * 2 ^ (bits.length - 1 - i)) ∧
  (∀ bits : Bits, bitsVal bits < 2 ^ bits.length) ∧
  (∀ (w v i : Nat), i < w → (valBits w v)[i]? = some (decide (v / 2 ^ (w - 1 - i) % 2 = 1))) ∧
  (∀ bits : Bits, valBits bits.length (bitsVal bits) = bits) ∧ (∀ w v, v < 2 ^ w → bitsVal (valBits w v) = v)

/-- TOHEX: each chunk becomes a record of two uppercase hex digits of its value, or OVERFLOW if the records do not fit; a
byte other than '0' and '1', or a length that is no multiple of W, fails with MALFORMED_CHUNK (43_hex_codec R116). -/
def Obligations.TohexRendersEachChunk : Prop :=
  encode .tohex = 0x00000005 ∧
  (∀ (s : State) (chunks : List Bits), HasInput s (chunks.flatten.map bitByte) → (∀ ch ∈ chunks, ch.length = s.width) →
    (4 * chunks.length ≤ s.inst.obufSize →
      ∃ t, exec .tohex s = .next t ∧ Succeeds t (tokensForm (chunks.map (fun ch => hexToken (bitsVal ch)))) 0 ∧
        SameTree s t ∧ SameElsewhere s t) ∧
    (s.inst.obufSize < 4 * chunks.length →
      ∃ t, exec .tohex s = .next t ∧ Fails t .overflow ∧ SameTree s t ∧ SameElsewhere s t)) ∧
  (∀ (s : State) (input : List Byte), HasInput s input →
    ((∃ c ∈ input, c ≠ 0x30 ∧ c ≠ 0x31) ∨ input.length % s.width ≠ 0) →
    ∃ t, exec .tohex s = .next t ∧ Fails t .malformedChunk ∧ SameTree s t ∧ SameElsewhere s t)

/-- FROMHEX: each token of two uppercase hex digits whose value fits W bits becomes a chunk of W bits, or OVERFLOW if the
chunks do not fit OBUF; a token that is not one, or does not fit W, makes it fail with MALFORMED_TOKEN; an input that is no
TOKENS form of any list fails with MALFORMED_LIST, whatever tokens it begins with (43_hex_codec R117). -/
def Obligations.FromhexRendersEachToken : Prop :=
  encode .fromhex = 0x00000006 ∧
  (∀ (s : State) (vals : List Nat), HasInput s (tokensForm (vals.map hexToken)) → (∀ v ∈ vals, v < 2 ^ s.width) →
    (s.width * vals.length ≤ s.inst.obufSize →
      ∃ t, exec .fromhex s = .next t ∧ Succeeds t ((vals.flatMap (valBits s.width)).map bitByte) 0 ∧
        SameTree s t ∧ SameElsewhere s t) ∧
    (s.inst.obufSize < s.width * vals.length →
      ∃ t, exec .fromhex s = .next t ∧ Fails t .overflow ∧ SameTree s t ∧ SameElsewhere s t)) ∧
  (∀ (s : State) (toks : List Token) (tok : Token), HasInput s (tokensForm toks) → (∀ u ∈ toks, u.length ≤ 65535) →
    tok ∈ toks → (¬ IsHexToken tok ∨ ∃ v, v < 256 ∧ tok = hexToken v ∧ 2 ^ s.width ≤ v) →
    ∃ t, exec .fromhex s = .next t ∧ Fails t .malformedToken ∧ SameTree s t ∧ SameElsewhere s t) ∧
  (∀ (s : State) (input : List Byte), HasInput s input →
    (∀ toks : List Token, (∀ u ∈ toks, u.length ≤ 65535) → input ≠ tokensForm toks) →
    ∃ t, exec .fromhex s = .next t ∧ Fails t .malformedList ∧ SameTree s t ∧ SameElsewhere s t)

/-- TOKJOIN: the tokens, whatever they hold, with one separator between any two and none trailing, or OVERFLOW if that does
not fit; an input that is no TOKENS form of any list fails with MALFORMED_LIST (43_hex_codec R118). -/
def Obligations.TokjoinPutsSingleSeparators : Prop :=
  encode .tokjoin = 0x00000007 ∧
  (∀ (s : State) (toks : List Token), HasInput s (tokensForm toks) → (∀ u ∈ toks, u.length ≤ 65535) →
    (([sep].intercalate toks).length ≤ s.inst.obufSize →
      ∃ t, exec .tokjoin s = .next t ∧ Succeeds t ([sep].intercalate toks) 0 ∧ SameTree s t ∧ SameElsewhere s t) ∧
    (s.inst.obufSize < ([sep].intercalate toks).length →
      ∃ t, exec .tokjoin s = .next t ∧ Fails t .overflow ∧ SameTree s t ∧ SameElsewhere s t)) ∧
  (∀ (s : State) (input : List Byte), HasInput s input →
    (∀ toks : List Token, (∀ u ∈ toks, u.length ≤ 65535) → input ≠ tokensForm toks) →
    ∃ t, exec .tokjoin s = .next t ∧ Fails t .malformedList ∧ SameTree s t ∧ SameElsewhere s t)

/-- TOKSPLIT: every text is one list of separator-free tokens, at least one, with single separators between them; the
output is that list's TOKENS form, or OVERFLOW if it does not fit (43_hex_codec R119). -/
def Obligations.ToksplitSplitsAtEverySeparator : Prop :=
  encode .toksplit = 0x00000008 ∧
  (∀ text : List Byte, ∃ toks : List Token, toks ≠ [] ∧ (∀ u ∈ toks, sep ∉ u) ∧ text = [sep].intercalate toks) ∧
  (∀ (s : State) (toks : List Token), toks ≠ [] → (∀ u ∈ toks, sep ∉ u) → HasInput s ([sep].intercalate toks) →
    s.inst.obufSize ≤ 65536 →
    ((tokensForm toks).length ≤ s.inst.obufSize →
      ∃ t, exec .toksplit s = .next t ∧ Succeeds t (tokensForm toks) 0 ∧ SameTree s t ∧ SameElsewhere s t) ∧
    (s.inst.obufSize < (tokensForm toks).length →
      ∃ t, exec .toksplit s = .next t ∧ Fails t .overflow ∧ SameTree s t ∧ SameElsewhere s t))

/-- The laws of the hex codec, whenever no step overflows (43_hex_codec R120): TOKJOIN undoes TOKSPLIT on any text; TOKSPLIT
undoes TOKJOIN on a non-empty list without separators in its tokens; FROMHEX undoes TOHEX on valid chunks of the same W;
TOHEX undoes FROMHEX on two-digit uppercase tokens that fit W. -/
def Obligations.HexCodecLaws : Prop :=
  (∀ (s s' t t' : State) (x y : List Byte), HasInput s x → exec .toksplit s = .next t → Succeeds t y 0 → HasInput s' y →
    exec .tokjoin s' = .next t' → t'.errcode ≠ errorCode .overflow → Succeeds t' x 0) ∧
  (∀ (s s' t t' : State) (toks : List Token) (y : List Byte), (∀ u ∈ toks, u.length ≤ 65535 ∧ sep ∉ u) →
    HasInput s (tokensForm toks) → exec .tokjoin s = .next t → Succeeds t y 0 → HasInput s' y →
    exec .toksplit s' = .next t' → t'.errcode ≠ errorCode .overflow →
    (toks ≠ [] → Succeeds t' (tokensForm toks) 0) ∧ (toks = [] → Succeeds t' [0, 0] 0)) ∧
  (∀ (s s' t t' : State) (x y : List Byte), HasInput s x → s'.widthM1 = s.widthM1 →
    exec .tohex s = .next t → Succeeds t y 0 → HasInput s' y →
    exec .fromhex s' = .next t' → t'.errcode ≠ errorCode .overflow → Succeeds t' x 0) ∧
  (∀ (s s' t t' : State) (vals : List Nat) (y : List Byte), (∀ v ∈ vals, v < 2 ^ s.width) →
    HasInput s (tokensForm (vals.map hexToken)) → s'.widthM1 = s.widthM1 →
    exec .fromhex s = .next t → Succeeds t y 0 → HasInput s' y →
    exec .tohex s' = .next t' → t'.errcode ≠ errorCode .overflow → Succeeds t' (tokensForm (vals.map hexToken)) 0)

/-! ## The decoding tree -/

/-- BUILD succeeds from every state, with empty output: it reads neither ILEN nor IBUF, leaves a valid tree, and changes no
node where the tree was valid already; after reset NODE_COUNT is then 55 (44_decoding_tree R124). -/
def Obligations.BuildAlwaysSucceeds : Prop :=
  encode .build = 0x00000001 ∧
  (∀ s : State, ∃ t, exec .build s = .next t ∧ Succeeds t [] 0 ∧ t.treeValid = true ∧ TreeEnsured s t ∧
    SameElsewhere s t ∧ (s.treeValid = true → SameTree s t)) ∧
  (∃ t, exec .build State.reset = .next t ∧ t.nodeCount = 55)

/-- Build allocates one node for the root and one for each distinct non-empty prefix of the codes, so a valid instance
cannot exhaust the node RAM (00_scope R9, 44_decoding_tree R121); the same number is what the validity check counts. -/
def Obligations.BuildAllocatesOneNodePerPrefix : Prop :=
  ∀ (p : Instance) (ram : List Node), validInstance p = true → ram.length = p.nodeCap →
    (buildTree p.codeTable ram).count =
      1 + ((p.codeTable.map (fun e => e.code)).flatMap (fun k => k.inits.tail)).dedup.length ∧
    (buildTree p.codeTable ram).count ≤ p.nodeCap ∧
    (buildTree p.codeTable ram).nodes.length = p.nodeCap ∧
    (∀ i, (buildTree p.codeTable ram).count ≤ i → nodeAt (buildTree p.codeTable ram).nodes i = nodeAt ram i)

/-- The computed properties of DEFAULT_TABLE (10_state R46): 28 entries with distinct chars, prefix-free, the Kraft sum 1 (in
units of 2^-12), the longest code 12 bits, 54 distinct non-empty prefixes, 'z' the only code of zeros alone; the instance
of this spec is valid. -/
def Obligations.DefaultTableProperties : Prop :=
  defaultTable.length = 28 ∧ (defaultTable.map (fun e => e.char)).Nodup ∧ PrefixFree defaultTable ∧
  (defaultTable.map (fun e => 2 ^ (12 - e.code.length))).sum = 2 ^ 12 ∧
  (∀ e ∈ defaultTable, 1 ≤ e.code.length ∧ e.code.length ≤ 12) ∧
  ((defaultTable.map (fun e => e.code)).flatMap (fun k => k.inits.tail)).dedup.length = 54 ∧
  (∀ e ∈ defaultTable, e.code.all (fun b => !b) = true → e.char = 0x7A ∧ e.code.length = 12) ∧
  validInstance defaultInstance = true

/-- The tree of DEFAULT_TABLE: 55 nodes, the root's children 3 and 1, every node of which either holds a char or has both
children, and every entry's code walks from the root to its char (10_state R46, 44_decoding_tree R121). -/
def Obligations.DefaultTreeIsComplete : Prop :=
  (freshTree defaultInstance).count = 55 ∧
  nodeWord (nodeAt (freshTree defaultInstance).nodes 0) = 0x00000103 ∧
  nodeWord (nodeAt (freshTree defaultInstance).nodes 2) = 0x01200000 ∧
  nodeWord (nodeAt (freshTree defaultInstance).nodes 44) = 0x00002D36 ∧
  nodeWord (nodeAt (freshTree defaultInstance).nodes 54) = 0x017A0000 ∧
  (∀ i : Fin 55, (nodeAt (freshTree defaultInstance).nodes i.val).hasVal = true ∨
    (childOf (freshTree defaultInstance).nodes i.val false ≠ 0 ∧ childOf (freshTree defaultInstance).nodes i.val true ≠ 0)) ∧
  (∀ e ∈ defaultTable, walk (freshTree defaultInstance).nodes 0 0 e.code = .ok ([e.char], 0))

/-- DECODE, for every tree: it builds the tree if there is none, and then succeeds with what the walk emits and the residue
it leaves, if that fits; a byte other than '0' and '1' fails with MALFORMED_BITS, and a walk that meets an absent child
with NO_PATH; the tree is kept whatever the result (44_decoding_tree R125). -/
def Obligations.DecodeFollowsTheWalk : Prop :=
  encode .decode = 0x00000009 ∧
  (∀ (s : State) (bits : Bits) (out : List Byte) (r : Nat), HasInput s (bits.map bitByte) →
    Walks (ensureTree s).nodes 0 0 bits out r →
    (out.length ≤ s.inst.obufSize → ∃ t, exec .decode s = .next t ∧ Succeeds t out r ∧ TreeEnsured s t ∧ SameElsewhere s t) ∧
    (s.inst.obufSize < out.length →
      ∃ t, exec .decode s = .next t ∧ Fails t .overflow ∧ TreeEnsured s t ∧ SameElsewhere s t)) ∧
  (∀ (s : State) (bits : Bits), HasInput s (bits.map bitByte) →
    (¬ ∃ out r, Walks (ensureTree s).nodes 0 0 bits out r) →
    ∃ t, exec .decode s = .next t ∧ Fails t .noPath ∧ TreeEnsured s t ∧ SameElsewhere s t) ∧
  (∀ (s : State) (input : List Byte) (c : Byte), HasInput s input → c ∈ input → c ≠ 0x30 → c ≠ 0x31 →
    ∃ t, exec .decode s = .next t ∧ Fails t .malformedBits ∧ TreeEnsured s t ∧ SameElsewhere s t)

/-- The law of the decoder for a prefix-free table (44_decoding_tree R126): DECODE of the codes of a text followed by bits
that are the beginning of a code, but no whole code, gives the text, with the number of those bits as the residue. -/
def Obligations.DecodeInvertsTobits : Prop :=
  ∀ (s : State) (text : List Byte) (codes : List Bits) (p q : Bits) (e : Entry),
    validInstance s.inst = true → PrefixFree s.inst.codeTable → s.TreeOk →
    List.Forall₂ (fun c k => lookup s.inst.codeTable c = some k) text codes →
    e ∈ s.inst.codeTable → e.code = p ++ q → q ≠ [] →
    HasInput s ((codes.flatten ++ p).map bitByte) → text.length ≤ s.inst.obufSize →
    ∃ t, exec .decode s = .next t ∧ Succeeds t text p.length ∧ t.treeValid = true ∧ SameElsewhere s t

/-- With DEFAULT_TABLE no DECODE and no UNPACK ever commits NO_PATH, because its tree is complete (44_decoding_tree R125,
60_exceptions R134). -/
def Obligations.DefaultTableHasNoAbsentPath : Prop :=
  ∀ (s t : State) (i : Instr), OfThisSpec s.inst → s.TreeOk → exec i s = .next t → t.errcode ≠ errorCode .noPath

/-! ## The fused paths -/

/-- PACK: the codes of the text, zero-padded to 8-bit chunks, two uppercase hex digits each, single separators between
them, none trailing; CFG is not read; a byte with no entry fails with UNKNOWN_CHARACTER, and a wire text that does not
fit with OVERFLOW (45_path_commands R127). -/
def Obligations.PackMakesTheWireText : Prop :=
  encode .pack = 0x0000000A ∧
  (∀ (s : State) (input : List Byte) (codes chunks : List Bits) (p : Nat), HasInput s input →
    List.Forall₂ (fun c k => lookup s.inst.codeTable c = some k) input codes →
    p < 8 → (∀ ch ∈ chunks, ch.length = 8) → chunks.flatten = codes.flatten ++ List.replicate p false →
    (3 * chunks.length - 1 ≤ s.inst.obufSize →
      ∃ t, exec .pack s = .next t ∧ Succeeds t ([sep].intercalate (chunks.map (fun ch => hexToken (bitsVal ch)))) 0 ∧
        t.olen = BitVec.ofNat 32 (3 * chunks.length - 1) ∧ SameTree s t ∧ SameElsewhere s t) ∧
    (s.inst.obufSize < 3 * chunks.length - 1 →
      ∃ t, exec .pack s = .next t ∧ Fails t .overflow ∧ SameTree s t ∧ SameElsewhere s t)) ∧
  (∀ (s : State) (input : List Byte) (c : Byte), HasInput s input → c ∈ input → lookup s.inst.codeTable c = none →
    ∃ t, exec .pack s = .next t ∧ Fails t .unknownCharacter ∧ SameTree s t ∧ SameElsewhere s t)

/-- UNPACK: the wire text's tokens give 8 bits each, and the walk over all of them gives the output and the residue; CFG is
not read; a token that is not two uppercase hex digits, the empty text's one empty token among them, fails with
MALFORMED_TOKEN, and a walk that meets an absent child with NO_PATH; the tree is built and kept whatever the result
(45_path_commands R129). -/
def Obligations.UnpackDecodesTheWireText : Prop :=
  encode .unpack = 0x0000000B ∧
  (∀ (s : State) (vals : List Nat) (out : List Byte) (r : Nat), vals ≠ [] → (∀ v ∈ vals, v < 256) →
    HasInput s ([sep].intercalate (vals.map hexToken)) →
    Walks (ensureTree s).nodes 0 0 (vals.flatMap (valBits 8)) out r →
    (out.length ≤ s.inst.obufSize → ∃ t, exec .unpack s = .next t ∧ Succeeds t out r ∧ TreeEnsured s t ∧ SameElsewhere s t) ∧
    (s.inst.obufSize < out.length →
      ∃ t, exec .unpack s = .next t ∧ Fails t .overflow ∧ TreeEnsured s t ∧ SameElsewhere s t)) ∧
  (∀ (s : State) (vals : List Nat), vals ≠ [] → (∀ v ∈ vals, v < 256) →
    HasInput s ([sep].intercalate (vals.map hexToken)) →
    (¬ ∃ out r, Walks (ensureTree s).nodes 0 0 (vals.flatMap (valBits 8)) out r) →
    ∃ t, exec .unpack s = .next t ∧ Fails t .noPath ∧ TreeEnsured s t ∧ SameElsewhere s t) ∧
  (∀ (s : State) (toks : List Token) (tok : Token), toks ≠ [] → (∀ u ∈ toks, sep ∉ u) →
    HasInput s ([sep].intercalate toks) → tok ∈ toks → ¬ IsHexToken tok →
    ∃ t, exec .unpack s = .next t ∧ Fails t .malformedToken ∧ TreeEnsured s t ∧ SameElsewhere s t)

/-- PACK equals its chain of stand-alone commands (45_path_commands R128): when TOBITS, CHUNK and TOHEX with W = 8, and
TOKJOIN, each on the output of the one before, all succeed, PACK of the first input succeeds with the last output; when
TOBITS fails with UNKNOWN_CHARACTER, so does PACK. -/
def Obligations.PackEqualsItsChain : Prop :=
  (∀ (s0 s1 s2 s3 t0 t1 t2 t3 : State) (x b c h w : List Byte),
    s1.width = 8 → s2.width = 8 → s3.inst.obufSize ≤ s0.inst.obufSize →
    HasInput s0 x → exec .tobits s0 = .next t0 → Succeeds t0 b 0 →
    HasInput s1 b → exec .chunk s1 = .next t1 → Succeeds t1 c 0 →
    HasInput s2 c → exec .tohex s2 = .next t2 → Succeeds t2 h 0 →
    HasInput s3 h → exec .tokjoin s3 = .next t3 → Succeeds t3 w 0 →
    ∃ t, exec .pack s0 = .next t ∧ Succeeds t w 0) ∧
  (∀ (s t0 : State) (x : List Byte), HasInput s x → exec .tobits s = .next t0 → Fails t0 .unknownCharacter →
    ∃ t, exec .pack s = .next t ∧ Fails t .unknownCharacter)

/-- UNPACK equals its chain of stand-alone commands TOKSPLIT, FROMHEX and JOIN with W = 8, and DECODE, each on the output of
the one before, where every step fits its buffers (45_path_commands R130): when all succeed, UNPACK of the first input
succeeds with the last output, the same residue and the same tree; when DECODE, from the same tree, fails, UNPACK fails
with the same error and the same tree; when FROMHEX fails with MALFORMED_TOKEN, so does UNPACK, which has built the tree,
where the chain has left it. -/
def Obligations.UnpackEqualsItsChain : Prop :=
  (∀ (s0 s1 s2 s3 t0 t1 t2 t3 : State) (x k f j : List Byte),
    s1.width = 8 → s2.width = 8 → SameTree s0 s3 → s3.inst = s0.inst →
    HasInput s0 x → exec .toksplit s0 = .next t0 → Succeeds t0 k 0 →
    HasInput s1 k → exec .fromhex s1 = .next t1 → Succeeds t1 f 0 →
    HasInput s2 f → exec .join s2 = .next t2 → Succeeds t2 j 0 →
    HasInput s3 j → exec .decode s3 = .next t3 →
    (∀ out r, Succeeds t3 out r → ∃ t, exec .unpack s0 = .next t ∧ Succeeds t out r ∧ SameTree t3 t) ∧
    (∀ c, Fails t3 c → ∃ t, exec .unpack s0 = .next t ∧ Fails t c ∧ SameTree t3 t)) ∧
  (∀ (s0 s1 t0 t1 : State) (x k : List Byte), s1.width = 8 →
    HasInput s0 x → exec .toksplit s0 = .next t0 → Succeeds t0 k 0 →
    HasInput s1 k → exec .fromhex s1 = .next t1 → Fails t1 .malformedToken →
    SameTree s1 t1 ∧ ∃ t, exec .unpack s0 = .next t ∧ Fails t .malformedToken ∧ TreeEnsured s0 t ∧ t.treeValid = true)

/-- The round trip of the block with DEFAULT_TABLE (45_path_commands R131): for a non-empty text of the table's chars, if PACK
of it succeeds, UNPACK of the wire text succeeds with the text, and RESID is the number of padding bits, at most 7. The
empty text packs to the empty text, which UNPACK refuses with MALFORMED_TOKEN. -/
def Obligations.UnpackInvertsPack : Prop :=
  (∀ (s s' t : State) (text wire : List Byte) (codes : List Bits),
    OfThisSpec s.inst → OfThisSpec s'.inst → s'.TreeOk → text ≠ [] →
    List.Forall₂ (fun c k => lookup defaultTable c = some k) text codes →
    HasInput s text → exec .pack s = .next t → Succeeds t wire 0 → HasInput s' wire →
    ∃ t' p, exec .unpack s' = .next t' ∧ p ≤ 7 ∧ (codes.flatten.length + p) % 8 = 0 ∧ Succeeds t' text p) ∧
  (∀ s : State, HasInput s [] → (∃ t, exec .pack s = .next t ∧ Succeeds t [] 0) ∧
    ∃ t, exec .unpack s = .next t ∧ Fails t .malformedToken)

/-! ## The host's text transform -/

/-- `prepare` puts the marker before the lowercase form of each uppercase letter and leaves every other byte; `restore` drops
a trailing marker and raises the byte after any other; and `restore` undoes `prepare` on every text without the marker,
but not on every text with it (41_host_text_transform R103, R104, R105). Host side, no block hardware. -/
def Obligations.RestoreInvertsPrepare : Prop :=
  (∀ s : List Byte, prepare s = s.flatMap (fun c =>
    if 0x41 ≤ c.toNat ∧ c.toNat ≤ 0x5A then [0x21, c + 0x20] else [c])) ∧
  restore [] = [] ∧ restore [0x21] = [] ∧
  (∀ (d : Byte) (cs : List Byte), restore (0x21 :: d :: cs) = upper d :: restore cs) ∧
  (∀ (c : Byte) (cs : List Byte), c ≠ 0x21 → restore (c :: cs) = c :: restore cs) ∧
  (∀ s : List Byte, 0x21 ∉ s → restore (prepare s) = s) ∧
  restore (prepare [0x61, 0x21, 0x62]) = [0x61, 0x42] ∧ restore (prepare [0x61, 0x21]) = [0x61]

/-! ## Invariants of the block -/

/-- The invariant holds after reset, for every block whose parameters are valid. -/
def Obligations.InvariantHoldsAfterReset : Prop :=
  State.reset.Inv ∧ ∀ p : Instance, validInstance p = true → (State.resetOf p).Inv

/-- Every step keeps the invariant: canonical buffers, no IBUF byte past IBUF_SIZE defined, OBUF defined on exactly
`[0, OLEN)`, a busy block showing neither DONE nor an error, ERRCODE at most 9, OLEN and RESID 0 after an error, NODE_COUNT 0
while there is no tree, and a valid tree being the tree Build makes (10_state R42, R49, 60_exceptions R133, R136,
70_reset_and_hazards R152). -/
def Obligations.EveryStepKeepsTheInvariant : Prop :=
  ∀ (s t : State), s.Inv → step s = .next t → t.Inv

/-- Once the tree is valid nothing but reset changes the node RAM, TREE_VALID or NODE_COUNT (10_state R49). -/
def Obligations.NothingButResetChangesABuiltTree : Prop :=
  ∀ (s t : State), step s = .next t → s.treeValid = true → s.nextTurn ≠ .reset → SameTree s t

/-- The parameters are fixed for the life of an instance: no step changes them (10_state R20, 00_scope R8). A block whose
parameters are not valid is refused: the spec has a model refuse it before any run (00_scope R9, 60_exceptions R138), and
that the refusal comes at every step, and counts the ranges of 00_scope R8 and the alignment of 20_memory R54 too, is the
model's choice (log entry 20). -/
def Obligations.NoStepChangesTheParameters : Prop :=
  (∀ (s t : State), step s = .next t → t.inst = s.inst) ∧
  (∀ s : State, validInstance s.inst = false → step s = .refused .invalidInstance)

/-! ## Host programs -/

/-- LOAD s (30_encoding R86): the agent that runs it on an idle block puts s into IBUF from index 0 and its length into ILEN,
and changes no other byte and no other state of the block. The number of its turns, two a byte and two more, is the
model's choice (log entry 8). -/
def Obligations.LoadPutsTheInputInPlace : Prop :=
  ∀ (s : State) (k i : Nat) (a : HostAgent) (text : List Byte) (rest : List HostStmt),
    s.busy = false → text.length ≤ s.inst.ibufSize → s.inst.ibufSize ≤ 65536 →
    s.hosts[k]? = some a → a.prog = loadStmts i text ++ rest →
    ∃ t vars, hostTurns k (2 * text.length + 2) s = .next t ∧ HasInput t text ∧
      (∀ j, text.length ≤ j → t.ibuf.read j = s.ibuf.read j) ∧
      t.hosts = s.hosts.set k { prog := rest, vars := vars } ∧ (∀ y, y ≠ (i, 0) → lookupVar vars y = lookupVar a.vars y) ∧
      t = { s with ibuf := t.ibuf, ilen := t.ilen, hosts := t.hosts }

/-- The expressions of a host program (30_encoding R85, R86): numbers, variables, elements of a written byte string, sums,
differences, and the bit fields of 00_scope R12. That a difference is cut off at 0 is the model's choice (log entry 8). -/
def Obligations.HostExpressionsHaveTheirValues : Prop :=
  ∀ (vars : List ((Nat × Nat) × Nat)),
    (∀ n, evalExpr vars (.lit n) = some n) ∧
    (∀ (x : Nat) (e : HostExpr) (i : Nat), evalExpr vars e = some i → evalExpr vars (.var x e) = lookupVar vars (x, i)) ∧
    (∀ (bytes : List Byte) (e : HostExpr) (i : Nat) (b : Byte), evalExpr vars e = some i → bytes[i]? = some b →
      evalExpr vars (.byteAt bytes e) = some b.toNat) ∧
    (∀ (d e : HostExpr) (m n : Nat), evalExpr vars d = some m → evalExpr vars e = some n →
      evalExpr vars (.add d e) = some (m + n) ∧ evalExpr vars (.sub d e) = some (m - n)) ∧
    (∀ (d : HostExpr) (w : Word) (hi lo : Nat), lo ≤ hi → hi < 32 → evalExpr vars d = some w.toNat →
      evalExpr vars (.bits d hi lo) = some (w.extractLsb' lo (hi + 1 - lo)).toNat)

/-- The host's Encode and Decode calls (41_host_text_transform R106, R107, R108): the call's program, LOAD, RUN and the
reads; at its failure test, with the STATUS word it has read, if ERRCODE, bits 11 to 8, is not 0, the call ends with no
further access and answers that code, else it goes on; so, after its RUN and with no other agent between, a call whose
command has failed answers the error after the read of STATUS, and one whose command has succeeded answers the output, for
Decode restored. The test as a statement of the host program, and the number of turns, are the model's choices (log
entries 8, 17). -/
def Obligations.HostCallsFailOnAnError : Prop :=
  (∀ (i : Instr) (text : List Byte), callProgram i text = loadStmts varI text ++ runStmts i ++ callReads) ∧
  callReads = [rd32 0x10 varSt, .failIf statusError, rd32 0x18 varN,
    .forIn varI (.lit 0) (hostVar varN) (.rd 8 (.add (.lit 0x20000) (hostVar varI)) varOut (hostVar varI))] ∧
  (∀ (size : Nat) (text : List Byte),
    ((prepare text).length ≤ size → encodeProgram size text = some (callProgram .pack (prepare text))) ∧
    (size < (prepare text).length → encodeProgram size text = none) ∧
    (text.length ≤ size → decodeProgram size text = some (callProgram .unpack text)) ∧
    (size < text.length → decodeProgram size text = none)) ∧
  (∀ (s : State) (k : Nat) (a : HostAgent) (rest : List HostStmt) (st : Word),
    s.hosts[k]? = some a → a.prog = .failIf statusError :: rest → lookupVar a.vars (varSt, 0) = some st.toNat →
    (st.extractLsb' 8 4 = 0 → hostStep k s = .next (withAgent s k rest a.vars)) ∧
    (st.extractLsb' 8 4 ≠ 0 → hostStep k s = .next (withAgent s k [] a.vars) ∧
      encodeAnswer a.vars = some (.error (st.extractLsb' 8 4).toNat) ∧
      decodeAnswer a.vars = some (.error (st.extractLsb' 8 4).toNat))) ∧
  (∀ (s : State) (k : Nat) (a : HostAgent) (c : ErrorKind), s.hosts[k]? = some a → a.prog = callReads → Fails s c →
    ∃ vars, hostTurns k 2 s = .next (withAgent s k [] vars) ∧
      encodeAnswer vars = some (.error (errorCode c).toNat) ∧ decodeAnswer vars = some (.error (errorCode c).toNat)) ∧
  (∀ (s : State) (k : Nat) (a : HostAgent) (out : List Byte) (r : Nat), s.hosts[k]? = some a → a.prog = callReads →
    Succeeds s out r → out.length ≤ s.inst.obufSize → s.inst.obufSize ≤ 65536 →
    ∃ vars, hostTurns k (2 * out.length + 4) s = .next (withAgent s k [] vars) ∧
      encodeAnswer vars = some (.ok out) ∧ decodeAnswer vars = some (.ok (restore out)))

/-! ## The registers in a general state -/

/-- What a read of the registers that keep their own field returns: ID, CTRL, CFG, ILEN, NODE_SEL and TBL_SEL in every
state, OLEN, RESID and NODE_COUNT on an idle block; and a write to a read-only register leaves the state as it is, busy or
not (10_state R23 to R26, R29 to R38). -/
def Obligations.RegistersShowTheirFields : Prop :=
  (∀ s : State, s.busy = false → Reads s 0x18 s.olen ∧ Reads s 0x1C s.resid ∧ Reads s 0x20 s.nodeCount) ∧
  (∀ s : State, Reads s 0x00 0x564C4301 ∧ Reads s 0x04 (if s.ie then 1 else 0) ∧ Reads s 0x08 (s.widthM1.setWidth 32) ∧
    Reads s 0x14 s.ilen ∧ Reads s 0x24 (s.nodeSel.setWidth 32) ∧ Reads s 0x30 (s.tblSel.setWidth 32)) ∧
  (∀ (s : State) (v : Word) (off : Nat), off ∈ [0x00, 0x18, 0x1C, 0x20, 0x28, 0x2C, 0x34, 0x38] →
    busWrite 32 (s.inst.blockBase + off) v s = .next s)
end

