-- ==== Sys2Proof/Laws/Memory.lean ====
section
/-! SUPPORT. The laws of the buffers: read after write, frame, canonical form, and reads of whole byte strings. -/

namespace Sys2Proof.Machine

@[simp] theorem Memory.read_nil (i : Nat) : Memory.read [] i = none := rfl

theorem Memory.read_write_same (m : Memory) (i : Nat) (v : Byte) : (m.write i v).read i = some v := by
  induction m with
  | nil => simp [Memory.write, Memory.read]
  | cons c m ih =>
    obtain ⟨a, b⟩ := c
    simp only [Memory.write]
    split
    · simp [Memory.read]
    · split
      · simp [Memory.read]
      · next h1 h2 => simp only [Memory.read, if_neg (show ¬ a = i by omega), ih]

theorem Memory.read_write_other (m : Memory) {i j : Nat} (v : Byte) (h : j ≠ i) :
    (m.write i v).read j = m.read j := by
  induction m with
  | nil => simp [Memory.write, Memory.read, Ne.symm h]
  | cons c m ih =>
    obtain ⟨a, b⟩ := c
    simp only [Memory.write]
    split
    · simp [Memory.read, Ne.symm h]
    · split
      · next h2 =>
        subst h2
        simp [Memory.read, Ne.symm h]
      · simp only [Memory.read, ih]

/-- One clause for both: a read after a write. -/
theorem Memory.read_write (m : Memory) (i j : Nat) (v : Byte) :
    (m.write i v).read j = if j = i then some v else m.read j := by
  split
  · next h => rw [h, Memory.read_write_same]
  · next h => exact Memory.read_write_other m v h

theorem Memory.wf_cons_iff (a : Nat) (b : Byte) (m : Memory) :
    Memory.wf ((a, b) :: m) = true ↔ (∀ c ∈ m, a < c.1) ∧ m.wf = true := by
  induction m generalizing a b with
  | nil => simp [Memory.wf]
  | cons c m ih =>
    obtain ⟨a', b'⟩ := c
    simp only [Memory.wf, Bool.and_eq_true, decide_eq_true_eq, List.forall_mem_cons]
    constructor
    · rintro ⟨h1, h2⟩
      exact ⟨⟨h1, fun c hc => Nat.lt_trans h1 (((ih a' b').1 h2).1 c hc)⟩, h2⟩
    · rintro ⟨⟨h1, _⟩, h2⟩
      exact ⟨h1, h2⟩

theorem Memory.mem_write {m : Memory} {i : Nat} {v : Byte} {c : Host.Cell} (h : c ∈ m.write i v) :
    c = (i, v) ∨ c ∈ m := by
  induction m with
  | nil => simpa [Memory.write] using h
  | cons d m ih =>
    obtain ⟨a, b⟩ := d
    simp only [Memory.write] at h
    split at h
    · simpa using h
    · split at h
      · rcases List.mem_cons.1 h with h | h
        · exact .inl h
        · exact .inr (List.mem_cons_of_mem _ h)
      · rcases List.mem_cons.1 h with h | h
        · exact .inr (by simp [h])
        · exact (ih h).imp_right (List.mem_cons_of_mem _)

/-- Writing a byte keeps the canonical form. -/
theorem Memory.write_wf {m : Memory} (h : m.wf = true) (i : Nat) (v : Byte) : (m.write i v).wf = true := by
  induction m with
  | nil => rfl
  | cons c m ih =>
    obtain ⟨a, b⟩ := c
    have hc := (Memory.wf_cons_iff a b m).1 h
    simp only [Memory.write]
    split
    · next h1 =>
      refine (Memory.wf_cons_iff i v _).2 ⟨?_, h⟩
      rintro c hcm
      rcases List.mem_cons.1 hcm with rfl | hm
      · exact h1
      · exact Nat.lt_trans h1 (hc.1 c hm)
    · split
      · next h2 =>
        subst h2
        exact (Memory.wf_cons_iff i v m).2 hc
      · refine (Memory.wf_cons_iff a b _).2 ⟨?_, ih hc.2⟩
        intro c hcm
        rcases Memory.mem_write hcm with rfl | hm
        · show a < i
          omega
        · exact hc.1 c hm

theorem Memory.mem_ofBytes {a : Nat} {bs : List Byte} {c : Host.Cell} (h : c ∈ Memory.ofBytes a bs) : a ≤ c.1 := by
  induction bs generalizing a with
  | nil => simp [Memory.ofBytes] at h
  | cons b bs ih =>
    rcases List.mem_cons.1 h with rfl | h
    · exact Nat.le_refl _
    · exact Nat.le_of_succ_le (ih h)

/-- A committed output is in canonical form. -/
theorem Memory.ofBytes_wf (a : Nat) (bs : List Byte) : (Memory.ofBytes a bs).wf = true := by
  induction bs generalizing a with
  | nil => rfl
  | cons b bs ih => exact (Memory.wf_cons_iff a b _).2 ⟨fun c hc => Memory.mem_ofBytes hc, ih (a + 1)⟩

theorem Memory.read_ofBytes_from (a : Nat) (bs : List Byte) (i : Nat) :
    (Memory.ofBytes a bs).read i = if a ≤ i then bs[i - a]? else none := by
  induction bs generalizing a with
  | nil => simp [Memory.ofBytes]
  | cons b bs ih =>
    simp only [Memory.ofBytes, Memory.read, ih]
    by_cases h : a = i
    · subst h
      simp
    · by_cases h2 : a ≤ i
      · have h3 : a + 1 ≤ i := by omega
        rw [if_neg h, if_pos h2, if_pos h3, show i - a = i - (a + 1) + 1 by omega, List.getElem?_cons_succ]
      · rw [if_neg h, if_neg h2, if_neg (by omega)]

/-- What OBUF holds after a success, byte by byte (40_command_framework R90). -/
theorem Memory.read_ofBytes (bs : List Byte) (i : Nat) : (Memory.ofBytes 0 bs).read i = bs[i]? := by
  simp [Memory.read_ofBytes_from]

/-- A read of a byte string succeeds exactly when every byte of it is defined, and gives those bytes
(40_command_framework R92). -/
theorem Memory.readBytes_eq_some_iff (m : Memory) (a n : Nat) (bs : List Byte) :
    m.readBytes a n = some bs ↔ bs.length = n ∧ ∀ i, i < n → m.read (a + i) = bs[i]? := by
  induction n generalizing a bs with
  | zero =>
    simp only [Memory.readBytes, Option.some.injEq]
    constructor
    · rintro rfl
      simp
    · rintro ⟨h, _⟩
      exact (List.length_eq_zero_iff.1 h).symm
  | succ n ih =>
    cases bs with
    | nil =>
      simp only [Memory.readBytes]
      split <;> simp
      split <;> simp
    | cons b bs =>
      simp only [Memory.readBytes]
      constructor
      · intro h
        split at h
        · cases h
        · next b' hb =>
          split at h
          · cases h
          · next bs' hbs =>
            simp only [Option.some.injEq, List.cons.injEq] at h
            obtain ⟨rfl, rfl⟩ := h
            obtain ⟨hl, hr⟩ := (ih (a + 1) bs').1 hbs
            refine ⟨by simp [hl], fun i hi => ?_⟩
            cases i with
            | zero => simpa using hb
            | succ i =>
              have := hr i (by omega)
              rw [show a + (i + 1) = a + 1 + i by omega, this]
              simp
      · rintro ⟨hl, hr⟩
        have h0 : m.read a = some b := by simpa using hr 0 (by omega)
        have h1 : m.readBytes (a + 1) n = some bs := by
          refine (ih (a + 1) bs).2 ⟨by simpa using hl, fun i hi => ?_⟩
          have := hr (i + 1) (by omega)
          rw [show a + 1 + i = a + (i + 1) by omega, this]
          simp
        simp [h0, h1]

/-- A read of a byte string that holds an undefined byte has no value (20_memory R61). -/
theorem Memory.readBytes_eq_none_of_undefined (m : Memory) {a n i : Nat} (hi : i < n) (h : m.read (a + i) = none) :
    m.readBytes a n = none := by
  cases hr : m.readBytes a n with
  | none => rfl
  | some bs =>
    obtain ⟨hl, hb⟩ := (Memory.readBytes_eq_some_iff m a n bs).1 hr
    have hi' : i < bs.length := by omega
    have := hb i hi
    rw [h, List.getElem?_eq_getElem hi'] at this
    cases this

/-- The buffers after reset are in canonical form. -/
theorem reset_buffers_wf (p : Instance) : (State.resetOf p).ibuf.wf = true ∧ (State.resetOf p).obuf.wf = true :=
  ⟨rfl, rfl⟩

end Sys2Proof.Machine
end

