-- ==== Sys2Proof/Laws/State.lean ====
section
/-! SUPPORT. Every named update of the state, field by field: what it writes and what it leaves. -/

namespace Sys2Proof.Machine

variable (s : State)

@[simp] theorem State.start_inst (v : Word) : (s.start v).inst = s.inst := rfl
@[simp] theorem State.start_ie (v : Word) : (s.start v).ie = s.ie := rfl
@[simp] theorem State.start_widthM1 (v : Word) : (s.start v).widthM1 = s.widthM1 := rfl
@[simp] theorem State.start_busy (v : Word) : (s.start v).busy = true := rfl
@[simp] theorem State.start_done (v : Word) : (s.start v).done = false := rfl
@[simp] theorem State.start_treeValid (v : Word) : (s.start v).treeValid = s.treeValid := rfl
@[simp] theorem State.start_errcode (v : Word) : (s.start v).errcode = 0 := rfl
@[simp] theorem State.start_ilen (v : Word) : (s.start v).ilen = s.ilen := rfl
@[simp] theorem State.start_olen (v : Word) : (s.start v).olen = s.olen := rfl
@[simp] theorem State.start_resid (v : Word) : (s.start v).resid = s.resid := rfl
@[simp] theorem State.start_nodeCount (v : Word) : (s.start v).nodeCount = s.nodeCount := rfl
@[simp] theorem State.start_nodeSel (v : Word) : (s.start v).nodeSel = s.nodeSel := rfl
@[simp] theorem State.start_tblSel (v : Word) : (s.start v).tblSel = s.tblSel := rfl
@[simp] theorem State.start_ibuf (v : Word) : (s.start v).ibuf = s.ibuf := rfl
@[simp] theorem State.start_obuf (v : Word) : (s.start v).obuf = s.obuf := rfl
@[simp] theorem State.start_nodes (v : Word) : (s.start v).nodes = s.nodes := rfl
@[simp] theorem State.start_latchedCmd (v : Word) : (s.start v).latchedCmd = v := rfl
@[simp] theorem State.start_turns (v : Word) : (s.start v).turns = s.turns := rfl
@[simp] theorem State.start_hosts (v : Word) : (s.start v).hosts = s.hosts := rfl
@[simp] theorem State.start_draws (v : Word) : (s.start v).draws = s.draws := rfl

@[simp] theorem State.commitOk_inst (out : List Byte) (r : Nat) : (s.commitOk out r).inst = s.inst := rfl
@[simp] theorem State.commitOk_ie (out : List Byte) (r : Nat) : (s.commitOk out r).ie = s.ie := rfl
@[simp] theorem State.commitOk_widthM1 (out : List Byte) (r : Nat) : (s.commitOk out r).widthM1 = s.widthM1 := rfl
@[simp] theorem State.commitOk_busy (out : List Byte) (r : Nat) : (s.commitOk out r).busy = false := rfl
@[simp] theorem State.commitOk_done (out : List Byte) (r : Nat) : (s.commitOk out r).done = true := rfl
@[simp] theorem State.commitOk_treeValid (out : List Byte) (r : Nat) : (s.commitOk out r).treeValid = s.treeValid := rfl
@[simp] theorem State.commitOk_errcode (out : List Byte) (r : Nat) : (s.commitOk out r).errcode = 0 := rfl
@[simp] theorem State.commitOk_ilen (out : List Byte) (r : Nat) : (s.commitOk out r).ilen = s.ilen := rfl
@[simp] theorem State.commitOk_olen (out : List Byte) (r : Nat) : (s.commitOk out r).olen = BitVec.ofNat 32 out.length := rfl
@[simp] theorem State.commitOk_resid (out : List Byte) (r : Nat) : (s.commitOk out r).resid = BitVec.ofNat 32 r := rfl
@[simp] theorem State.commitOk_nodeCount (out : List Byte) (r : Nat) : (s.commitOk out r).nodeCount = s.nodeCount := rfl
@[simp] theorem State.commitOk_nodeSel (out : List Byte) (r : Nat) : (s.commitOk out r).nodeSel = s.nodeSel := rfl
@[simp] theorem State.commitOk_tblSel (out : List Byte) (r : Nat) : (s.commitOk out r).tblSel = s.tblSel := rfl
@[simp] theorem State.commitOk_ibuf (out : List Byte) (r : Nat) : (s.commitOk out r).ibuf = s.ibuf := rfl
@[simp] theorem State.commitOk_obuf (out : List Byte) (r : Nat) : (s.commitOk out r).obuf = Memory.ofBytes 0 out := rfl
@[simp] theorem State.commitOk_nodes (out : List Byte) (r : Nat) : (s.commitOk out r).nodes = s.nodes := rfl
@[simp] theorem State.commitOk_latchedCmd (out : List Byte) (r : Nat) : (s.commitOk out r).latchedCmd = s.latchedCmd := rfl
@[simp] theorem State.commitOk_turns (out : List Byte) (r : Nat) : (s.commitOk out r).turns = s.turns := rfl
@[simp] theorem State.commitOk_hosts (out : List Byte) (r : Nat) : (s.commitOk out r).hosts = s.hosts := rfl
@[simp] theorem State.commitOk_draws (out : List Byte) (r : Nat) : (s.commitOk out r).draws = s.draws := rfl

@[simp] theorem State.commitErr_inst (c : ErrorKind) : (s.commitErr c).inst = s.inst := rfl
@[simp] theorem State.commitErr_ie (c : ErrorKind) : (s.commitErr c).ie = s.ie := rfl
@[simp] theorem State.commitErr_widthM1 (c : ErrorKind) : (s.commitErr c).widthM1 = s.widthM1 := rfl
@[simp] theorem State.commitErr_busy (c : ErrorKind) : (s.commitErr c).busy = false := rfl
@[simp] theorem State.commitErr_done (c : ErrorKind) : (s.commitErr c).done = true := rfl
@[simp] theorem State.commitErr_treeValid (c : ErrorKind) : (s.commitErr c).treeValid = s.treeValid := rfl
@[simp] theorem State.commitErr_errcode (c : ErrorKind) : (s.commitErr c).errcode = errorCode c := rfl
@[simp] theorem State.commitErr_ilen (c : ErrorKind) : (s.commitErr c).ilen = s.ilen := rfl
@[simp] theorem State.commitErr_olen (c : ErrorKind) : (s.commitErr c).olen = 0 := rfl
@[simp] theorem State.commitErr_resid (c : ErrorKind) : (s.commitErr c).resid = 0 := rfl
@[simp] theorem State.commitErr_nodeCount (c : ErrorKind) : (s.commitErr c).nodeCount = s.nodeCount := rfl
@[simp] theorem State.commitErr_nodeSel (c : ErrorKind) : (s.commitErr c).nodeSel = s.nodeSel := rfl
@[simp] theorem State.commitErr_tblSel (c : ErrorKind) : (s.commitErr c).tblSel = s.tblSel := rfl
@[simp] theorem State.commitErr_ibuf (c : ErrorKind) : (s.commitErr c).ibuf = s.ibuf := rfl
@[simp] theorem State.commitErr_obuf (c : ErrorKind) : (s.commitErr c).obuf = [] := rfl
@[simp] theorem State.commitErr_nodes (c : ErrorKind) : (s.commitErr c).nodes = s.nodes := rfl
@[simp] theorem State.commitErr_latchedCmd (c : ErrorKind) : (s.commitErr c).latchedCmd = s.latchedCmd := rfl
@[simp] theorem State.commitErr_turns (c : ErrorKind) : (s.commitErr c).turns = s.turns := rfl
@[simp] theorem State.commitErr_hosts (c : ErrorKind) : (s.commitErr c).hosts = s.hosts := rfl
@[simp] theorem State.commitErr_draws (c : ErrorKind) : (s.commitErr c).draws = s.draws := rfl

@[simp] theorem State.ackDone_inst : (s.ackDone).inst = s.inst := rfl
@[simp] theorem State.ackDone_ie : (s.ackDone).ie = s.ie := rfl
@[simp] theorem State.ackDone_widthM1 : (s.ackDone).widthM1 = s.widthM1 := rfl
@[simp] theorem State.ackDone_busy : (s.ackDone).busy = s.busy := rfl
@[simp] theorem State.ackDone_done : (s.ackDone).done = false := rfl
@[simp] theorem State.ackDone_treeValid : (s.ackDone).treeValid = s.treeValid := rfl
@[simp] theorem State.ackDone_errcode : (s.ackDone).errcode = s.errcode := rfl
@[simp] theorem State.ackDone_ilen : (s.ackDone).ilen = s.ilen := rfl
@[simp] theorem State.ackDone_olen : (s.ackDone).olen = s.olen := rfl
@[simp] theorem State.ackDone_resid : (s.ackDone).resid = s.resid := rfl
@[simp] theorem State.ackDone_nodeCount : (s.ackDone).nodeCount = s.nodeCount := rfl
@[simp] theorem State.ackDone_nodeSel : (s.ackDone).nodeSel = s.nodeSel := rfl
@[simp] theorem State.ackDone_tblSel : (s.ackDone).tblSel = s.tblSel := rfl
@[simp] theorem State.ackDone_ibuf : (s.ackDone).ibuf = s.ibuf := rfl
@[simp] theorem State.ackDone_obuf : (s.ackDone).obuf = s.obuf := rfl
@[simp] theorem State.ackDone_nodes : (s.ackDone).nodes = s.nodes := rfl
@[simp] theorem State.ackDone_latchedCmd : (s.ackDone).latchedCmd = s.latchedCmd := rfl
@[simp] theorem State.ackDone_turns : (s.ackDone).turns = s.turns := rfl
@[simp] theorem State.ackDone_hosts : (s.ackDone).hosts = s.hosts := rfl
@[simp] theorem State.ackDone_draws : (s.ackDone).draws = s.draws := rfl

@[simp] theorem State.setTree_inst (ns : List Node) (n : Nat) : (s.setTree ns n).inst = s.inst := rfl
@[simp] theorem State.setTree_ie (ns : List Node) (n : Nat) : (s.setTree ns n).ie = s.ie := rfl
@[simp] theorem State.setTree_widthM1 (ns : List Node) (n : Nat) : (s.setTree ns n).widthM1 = s.widthM1 := rfl
@[simp] theorem State.setTree_busy (ns : List Node) (n : Nat) : (s.setTree ns n).busy = s.busy := rfl
@[simp] theorem State.setTree_done (ns : List Node) (n : Nat) : (s.setTree ns n).done = s.done := rfl
@[simp] theorem State.setTree_treeValid (ns : List Node) (n : Nat) : (s.setTree ns n).treeValid = true := rfl
@[simp] theorem State.setTree_errcode (ns : List Node) (n : Nat) : (s.setTree ns n).errcode = s.errcode := rfl
@[simp] theorem State.setTree_ilen (ns : List Node) (n : Nat) : (s.setTree ns n).ilen = s.ilen := rfl
@[simp] theorem State.setTree_olen (ns : List Node) (n : Nat) : (s.setTree ns n).olen = s.olen := rfl
@[simp] theorem State.setTree_resid (ns : List Node) (n : Nat) : (s.setTree ns n).resid = s.resid := rfl
@[simp] theorem State.setTree_nodeCount (ns : List Node) (n : Nat) : (s.setTree ns n).nodeCount = BitVec.ofNat 32 n := rfl
@[simp] theorem State.setTree_nodeSel (ns : List Node) (n : Nat) : (s.setTree ns n).nodeSel = s.nodeSel := rfl
@[simp] theorem State.setTree_tblSel (ns : List Node) (n : Nat) : (s.setTree ns n).tblSel = s.tblSel := rfl
@[simp] theorem State.setTree_ibuf (ns : List Node) (n : Nat) : (s.setTree ns n).ibuf = s.ibuf := rfl
@[simp] theorem State.setTree_obuf (ns : List Node) (n : Nat) : (s.setTree ns n).obuf = s.obuf := rfl
@[simp] theorem State.setTree_nodes (ns : List Node) (n : Nat) : (s.setTree ns n).nodes = ns := rfl
@[simp] theorem State.setTree_latchedCmd (ns : List Node) (n : Nat) : (s.setTree ns n).latchedCmd = s.latchedCmd := rfl
@[simp] theorem State.setTree_turns (ns : List Node) (n : Nat) : (s.setTree ns n).turns = s.turns := rfl
@[simp] theorem State.setTree_hosts (ns : List Node) (n : Nat) : (s.setTree ns n).hosts = s.hosts := rfl
@[simp] theorem State.setTree_draws (ns : List Node) (n : Nat) : (s.setTree ns n).draws = s.draws := rfl

@[simp] theorem State.setCtrl_inst (v : Word) : (s.setCtrl v).inst = s.inst := rfl
@[simp] theorem State.setCtrl_ie (v : Word) : (s.setCtrl v).ie = v.getLsbD 0 := rfl
@[simp] theorem State.setCtrl_widthM1 (v : Word) : (s.setCtrl v).widthM1 = s.widthM1 := rfl
@[simp] theorem State.setCtrl_busy (v : Word) : (s.setCtrl v).busy = s.busy := rfl
@[simp] theorem State.setCtrl_done (v : Word) : (s.setCtrl v).done = s.done := rfl
@[simp] theorem State.setCtrl_treeValid (v : Word) : (s.setCtrl v).treeValid = s.treeValid := rfl
@[simp] theorem State.setCtrl_errcode (v : Word) : (s.setCtrl v).errcode = s.errcode := rfl
@[simp] theorem State.setCtrl_ilen (v : Word) : (s.setCtrl v).ilen = s.ilen := rfl
@[simp] theorem State.setCtrl_olen (v : Word) : (s.setCtrl v).olen = s.olen := rfl
@[simp] theorem State.setCtrl_resid (v : Word) : (s.setCtrl v).resid = s.resid := rfl
@[simp] theorem State.setCtrl_nodeCount (v : Word) : (s.setCtrl v).nodeCount = s.nodeCount := rfl
@[simp] theorem State.setCtrl_nodeSel (v : Word) : (s.setCtrl v).nodeSel = s.nodeSel := rfl
@[simp] theorem State.setCtrl_tblSel (v : Word) : (s.setCtrl v).tblSel = s.tblSel := rfl
@[simp] theorem State.setCtrl_ibuf (v : Word) : (s.setCtrl v).ibuf = s.ibuf := rfl
@[simp] theorem State.setCtrl_obuf (v : Word) : (s.setCtrl v).obuf = s.obuf := rfl
@[simp] theorem State.setCtrl_nodes (v : Word) : (s.setCtrl v).nodes = s.nodes := rfl
@[simp] theorem State.setCtrl_latchedCmd (v : Word) : (s.setCtrl v).latchedCmd = s.latchedCmd := rfl
@[simp] theorem State.setCtrl_turns (v : Word) : (s.setCtrl v).turns = s.turns := rfl
@[simp] theorem State.setCtrl_hosts (v : Word) : (s.setCtrl v).hosts = s.hosts := rfl
@[simp] theorem State.setCtrl_draws (v : Word) : (s.setCtrl v).draws = s.draws := rfl

@[simp] theorem State.setCfg_inst (v : Word) : (s.setCfg v).inst = s.inst := rfl
@[simp] theorem State.setCfg_ie (v : Word) : (s.setCfg v).ie = s.ie := rfl
@[simp] theorem State.setCfg_widthM1 (v : Word) : (s.setCfg v).widthM1 = v.extractLsb' 0 3 := rfl
@[simp] theorem State.setCfg_busy (v : Word) : (s.setCfg v).busy = s.busy := rfl
@[simp] theorem State.setCfg_done (v : Word) : (s.setCfg v).done = s.done := rfl
@[simp] theorem State.setCfg_treeValid (v : Word) : (s.setCfg v).treeValid = s.treeValid := rfl
@[simp] theorem State.setCfg_errcode (v : Word) : (s.setCfg v).errcode = s.errcode := rfl
@[simp] theorem State.setCfg_ilen (v : Word) : (s.setCfg v).ilen = s.ilen := rfl
@[simp] theorem State.setCfg_olen (v : Word) : (s.setCfg v).olen = s.olen := rfl
@[simp] theorem State.setCfg_resid (v : Word) : (s.setCfg v).resid = s.resid := rfl
@[simp] theorem State.setCfg_nodeCount (v : Word) : (s.setCfg v).nodeCount = s.nodeCount := rfl
@[simp] theorem State.setCfg_nodeSel (v : Word) : (s.setCfg v).nodeSel = s.nodeSel := rfl
@[simp] theorem State.setCfg_tblSel (v : Word) : (s.setCfg v).tblSel = s.tblSel := rfl
@[simp] theorem State.setCfg_ibuf (v : Word) : (s.setCfg v).ibuf = s.ibuf := rfl
@[simp] theorem State.setCfg_obuf (v : Word) : (s.setCfg v).obuf = s.obuf := rfl
@[simp] theorem State.setCfg_nodes (v : Word) : (s.setCfg v).nodes = s.nodes := rfl
@[simp] theorem State.setCfg_latchedCmd (v : Word) : (s.setCfg v).latchedCmd = s.latchedCmd := rfl
@[simp] theorem State.setCfg_turns (v : Word) : (s.setCfg v).turns = s.turns := rfl
@[simp] theorem State.setCfg_hosts (v : Word) : (s.setCfg v).hosts = s.hosts := rfl
@[simp] theorem State.setCfg_draws (v : Word) : (s.setCfg v).draws = s.draws := rfl

@[simp] theorem State.setIlen_inst (v : Word) : (s.setIlen v).inst = s.inst := rfl
@[simp] theorem State.setIlen_ie (v : Word) : (s.setIlen v).ie = s.ie := rfl
@[simp] theorem State.setIlen_widthM1 (v : Word) : (s.setIlen v).widthM1 = s.widthM1 := rfl
@[simp] theorem State.setIlen_busy (v : Word) : (s.setIlen v).busy = s.busy := rfl
@[simp] theorem State.setIlen_done (v : Word) : (s.setIlen v).done = s.done := rfl
@[simp] theorem State.setIlen_treeValid (v : Word) : (s.setIlen v).treeValid = s.treeValid := rfl
@[simp] theorem State.setIlen_errcode (v : Word) : (s.setIlen v).errcode = s.errcode := rfl
@[simp] theorem State.setIlen_ilen (v : Word) : (s.setIlen v).ilen = v := rfl
@[simp] theorem State.setIlen_olen (v : Word) : (s.setIlen v).olen = s.olen := rfl
@[simp] theorem State.setIlen_resid (v : Word) : (s.setIlen v).resid = s.resid := rfl
@[simp] theorem State.setIlen_nodeCount (v : Word) : (s.setIlen v).nodeCount = s.nodeCount := rfl
@[simp] theorem State.setIlen_nodeSel (v : Word) : (s.setIlen v).nodeSel = s.nodeSel := rfl
@[simp] theorem State.setIlen_tblSel (v : Word) : (s.setIlen v).tblSel = s.tblSel := rfl
@[simp] theorem State.setIlen_ibuf (v : Word) : (s.setIlen v).ibuf = s.ibuf := rfl
@[simp] theorem State.setIlen_obuf (v : Word) : (s.setIlen v).obuf = s.obuf := rfl
@[simp] theorem State.setIlen_nodes (v : Word) : (s.setIlen v).nodes = s.nodes := rfl
@[simp] theorem State.setIlen_latchedCmd (v : Word) : (s.setIlen v).latchedCmd = s.latchedCmd := rfl
@[simp] theorem State.setIlen_turns (v : Word) : (s.setIlen v).turns = s.turns := rfl
@[simp] theorem State.setIlen_hosts (v : Word) : (s.setIlen v).hosts = s.hosts := rfl
@[simp] theorem State.setIlen_draws (v : Word) : (s.setIlen v).draws = s.draws := rfl

@[simp] theorem State.setNodeSel_inst (v : Word) : (s.setNodeSel v).inst = s.inst := rfl
@[simp] theorem State.setNodeSel_ie (v : Word) : (s.setNodeSel v).ie = s.ie := rfl
@[simp] theorem State.setNodeSel_widthM1 (v : Word) : (s.setNodeSel v).widthM1 = s.widthM1 := rfl
@[simp] theorem State.setNodeSel_busy (v : Word) : (s.setNodeSel v).busy = s.busy := rfl
@[simp] theorem State.setNodeSel_done (v : Word) : (s.setNodeSel v).done = s.done := rfl
@[simp] theorem State.setNodeSel_treeValid (v : Word) : (s.setNodeSel v).treeValid = s.treeValid := rfl
@[simp] theorem State.setNodeSel_errcode (v : Word) : (s.setNodeSel v).errcode = s.errcode := rfl
@[simp] theorem State.setNodeSel_ilen (v : Word) : (s.setNodeSel v).ilen = s.ilen := rfl
@[simp] theorem State.setNodeSel_olen (v : Word) : (s.setNodeSel v).olen = s.olen := rfl
@[simp] theorem State.setNodeSel_resid (v : Word) : (s.setNodeSel v).resid = s.resid := rfl
@[simp] theorem State.setNodeSel_nodeCount (v : Word) : (s.setNodeSel v).nodeCount = s.nodeCount := rfl
@[simp] theorem State.setNodeSel_nodeSel (v : Word) : (s.setNodeSel v).nodeSel = v.extractLsb' 0 8 := rfl
@[simp] theorem State.setNodeSel_tblSel (v : Word) : (s.setNodeSel v).tblSel = s.tblSel := rfl
@[simp] theorem State.setNodeSel_ibuf (v : Word) : (s.setNodeSel v).ibuf = s.ibuf := rfl
@[simp] theorem State.setNodeSel_obuf (v : Word) : (s.setNodeSel v).obuf = s.obuf := rfl
@[simp] theorem State.setNodeSel_nodes (v : Word) : (s.setNodeSel v).nodes = s.nodes := rfl
@[simp] theorem State.setNodeSel_latchedCmd (v : Word) : (s.setNodeSel v).latchedCmd = s.latchedCmd := rfl
@[simp] theorem State.setNodeSel_turns (v : Word) : (s.setNodeSel v).turns = s.turns := rfl
@[simp] theorem State.setNodeSel_hosts (v : Word) : (s.setNodeSel v).hosts = s.hosts := rfl
@[simp] theorem State.setNodeSel_draws (v : Word) : (s.setNodeSel v).draws = s.draws := rfl

@[simp] theorem State.setTblSel_inst (v : Word) : (s.setTblSel v).inst = s.inst := rfl
@[simp] theorem State.setTblSel_ie (v : Word) : (s.setTblSel v).ie = s.ie := rfl
@[simp] theorem State.setTblSel_widthM1 (v : Word) : (s.setTblSel v).widthM1 = s.widthM1 := rfl
@[simp] theorem State.setTblSel_busy (v : Word) : (s.setTblSel v).busy = s.busy := rfl
@[simp] theorem State.setTblSel_done (v : Word) : (s.setTblSel v).done = s.done := rfl
@[simp] theorem State.setTblSel_treeValid (v : Word) : (s.setTblSel v).treeValid = s.treeValid := rfl
@[simp] theorem State.setTblSel_errcode (v : Word) : (s.setTblSel v).errcode = s.errcode := rfl
@[simp] theorem State.setTblSel_ilen (v : Word) : (s.setTblSel v).ilen = s.ilen := rfl
@[simp] theorem State.setTblSel_olen (v : Word) : (s.setTblSel v).olen = s.olen := rfl
@[simp] theorem State.setTblSel_resid (v : Word) : (s.setTblSel v).resid = s.resid := rfl
@[simp] theorem State.setTblSel_nodeCount (v : Word) : (s.setTblSel v).nodeCount = s.nodeCount := rfl
@[simp] theorem State.setTblSel_nodeSel (v : Word) : (s.setTblSel v).nodeSel = s.nodeSel := rfl
@[simp] theorem State.setTblSel_tblSel (v : Word) : (s.setTblSel v).tblSel = v.extractLsb' 0 8 := rfl
@[simp] theorem State.setTblSel_ibuf (v : Word) : (s.setTblSel v).ibuf = s.ibuf := rfl
@[simp] theorem State.setTblSel_obuf (v : Word) : (s.setTblSel v).obuf = s.obuf := rfl
@[simp] theorem State.setTblSel_nodes (v : Word) : (s.setTblSel v).nodes = s.nodes := rfl
@[simp] theorem State.setTblSel_latchedCmd (v : Word) : (s.setTblSel v).latchedCmd = s.latchedCmd := rfl
@[simp] theorem State.setTblSel_turns (v : Word) : (s.setTblSel v).turns = s.turns := rfl
@[simp] theorem State.setTblSel_hosts (v : Word) : (s.setTblSel v).hosts = s.hosts := rfl
@[simp] theorem State.setTblSel_draws (v : Word) : (s.setTblSel v).draws = s.draws := rfl

@[simp] theorem State.writeIbuf_inst (i : Nat) (b : Byte) : (s.writeIbuf i b).inst = s.inst := rfl
@[simp] theorem State.writeIbuf_ie (i : Nat) (b : Byte) : (s.writeIbuf i b).ie = s.ie := rfl
@[simp] theorem State.writeIbuf_widthM1 (i : Nat) (b : Byte) : (s.writeIbuf i b).widthM1 = s.widthM1 := rfl
@[simp] theorem State.writeIbuf_busy (i : Nat) (b : Byte) : (s.writeIbuf i b).busy = s.busy := rfl
@[simp] theorem State.writeIbuf_done (i : Nat) (b : Byte) : (s.writeIbuf i b).done = s.done := rfl
@[simp] theorem State.writeIbuf_treeValid (i : Nat) (b : Byte) : (s.writeIbuf i b).treeValid = s.treeValid := rfl
@[simp] theorem State.writeIbuf_errcode (i : Nat) (b : Byte) : (s.writeIbuf i b).errcode = s.errcode := rfl
@[simp] theorem State.writeIbuf_ilen (i : Nat) (b : Byte) : (s.writeIbuf i b).ilen = s.ilen := rfl
@[simp] theorem State.writeIbuf_olen (i : Nat) (b : Byte) : (s.writeIbuf i b).olen = s.olen := rfl
@[simp] theorem State.writeIbuf_resid (i : Nat) (b : Byte) : (s.writeIbuf i b).resid = s.resid := rfl
@[simp] theorem State.writeIbuf_nodeCount (i : Nat) (b : Byte) : (s.writeIbuf i b).nodeCount = s.nodeCount := rfl
@[simp] theorem State.writeIbuf_nodeSel (i : Nat) (b : Byte) : (s.writeIbuf i b).nodeSel = s.nodeSel := rfl
@[simp] theorem State.writeIbuf_tblSel (i : Nat) (b : Byte) : (s.writeIbuf i b).tblSel = s.tblSel := rfl
@[simp] theorem State.writeIbuf_ibuf (i : Nat) (b : Byte) : (s.writeIbuf i b).ibuf = s.ibuf.write i b := rfl
@[simp] theorem State.writeIbuf_obuf (i : Nat) (b : Byte) : (s.writeIbuf i b).obuf = s.obuf := rfl
@[simp] theorem State.writeIbuf_nodes (i : Nat) (b : Byte) : (s.writeIbuf i b).nodes = s.nodes := rfl
@[simp] theorem State.writeIbuf_latchedCmd (i : Nat) (b : Byte) : (s.writeIbuf i b).latchedCmd = s.latchedCmd := rfl
@[simp] theorem State.writeIbuf_turns (i : Nat) (b : Byte) : (s.writeIbuf i b).turns = s.turns := rfl
@[simp] theorem State.writeIbuf_hosts (i : Nat) (b : Byte) : (s.writeIbuf i b).hosts = s.hosts := rfl
@[simp] theorem State.writeIbuf_draws (i : Nat) (b : Byte) : (s.writeIbuf i b).draws = s.draws := rfl

@[simp] theorem State.drawn_inst : (s.drawn).inst = s.inst := rfl
@[simp] theorem State.drawn_ie : (s.drawn).ie = s.ie := rfl
@[simp] theorem State.drawn_widthM1 : (s.drawn).widthM1 = s.widthM1 := rfl
@[simp] theorem State.drawn_busy : (s.drawn).busy = s.busy := rfl
@[simp] theorem State.drawn_done : (s.drawn).done = s.done := rfl
@[simp] theorem State.drawn_treeValid : (s.drawn).treeValid = s.treeValid := rfl
@[simp] theorem State.drawn_errcode : (s.drawn).errcode = s.errcode := rfl
@[simp] theorem State.drawn_ilen : (s.drawn).ilen = s.ilen := rfl
@[simp] theorem State.drawn_olen : (s.drawn).olen = s.olen := rfl
@[simp] theorem State.drawn_resid : (s.drawn).resid = s.resid := rfl
@[simp] theorem State.drawn_nodeCount : (s.drawn).nodeCount = s.nodeCount := rfl
@[simp] theorem State.drawn_nodeSel : (s.drawn).nodeSel = s.nodeSel := rfl
@[simp] theorem State.drawn_tblSel : (s.drawn).tblSel = s.tblSel := rfl
@[simp] theorem State.drawn_ibuf : (s.drawn).ibuf = s.ibuf := rfl
@[simp] theorem State.drawn_obuf : (s.drawn).obuf = s.obuf := rfl
@[simp] theorem State.drawn_nodes : (s.drawn).nodes = s.nodes := rfl
@[simp] theorem State.drawn_latchedCmd : (s.drawn).latchedCmd = s.latchedCmd := rfl
@[simp] theorem State.drawn_turns : (s.drawn).turns = s.turns := rfl
@[simp] theorem State.drawn_hosts : (s.drawn).hosts = s.hosts := rfl
@[simp] theorem State.drawn_draws : (s.drawn).draws = s.draws + 1 := rfl

@[simp] theorem State.setHosts_inst (hs : List HostAgent) : (s.setHosts hs).inst = s.inst := rfl
@[simp] theorem State.setHosts_ie (hs : List HostAgent) : (s.setHosts hs).ie = s.ie := rfl
@[simp] theorem State.setHosts_widthM1 (hs : List HostAgent) : (s.setHosts hs).widthM1 = s.widthM1 := rfl
@[simp] theorem State.setHosts_busy (hs : List HostAgent) : (s.setHosts hs).busy = s.busy := rfl
@[simp] theorem State.setHosts_done (hs : List HostAgent) : (s.setHosts hs).done = s.done := rfl
@[simp] theorem State.setHosts_treeValid (hs : List HostAgent) : (s.setHosts hs).treeValid = s.treeValid := rfl
@[simp] theorem State.setHosts_errcode (hs : List HostAgent) : (s.setHosts hs).errcode = s.errcode := rfl
@[simp] theorem State.setHosts_ilen (hs : List HostAgent) : (s.setHosts hs).ilen = s.ilen := rfl
@[simp] theorem State.setHosts_olen (hs : List HostAgent) : (s.setHosts hs).olen = s.olen := rfl
@[simp] theorem State.setHosts_resid (hs : List HostAgent) : (s.setHosts hs).resid = s.resid := rfl
@[simp] theorem State.setHosts_nodeCount (hs : List HostAgent) : (s.setHosts hs).nodeCount = s.nodeCount := rfl
@[simp] theorem State.setHosts_nodeSel (hs : List HostAgent) : (s.setHosts hs).nodeSel = s.nodeSel := rfl
@[simp] theorem State.setHosts_tblSel (hs : List HostAgent) : (s.setHosts hs).tblSel = s.tblSel := rfl
@[simp] theorem State.setHosts_ibuf (hs : List HostAgent) : (s.setHosts hs).ibuf = s.ibuf := rfl
@[simp] theorem State.setHosts_obuf (hs : List HostAgent) : (s.setHosts hs).obuf = s.obuf := rfl
@[simp] theorem State.setHosts_nodes (hs : List HostAgent) : (s.setHosts hs).nodes = s.nodes := rfl
@[simp] theorem State.setHosts_latchedCmd (hs : List HostAgent) : (s.setHosts hs).latchedCmd = s.latchedCmd := rfl
@[simp] theorem State.setHosts_turns (hs : List HostAgent) : (s.setHosts hs).turns = s.turns := rfl
@[simp] theorem State.setHosts_hosts (hs : List HostAgent) : (s.setHosts hs).hosts = hs := rfl
@[simp] theorem State.setHosts_draws (hs : List HostAgent) : (s.setHosts hs).draws = s.draws := rfl

@[simp] theorem State.dropTurn_inst : (s.dropTurn).inst = s.inst := rfl
@[simp] theorem State.dropTurn_ie : (s.dropTurn).ie = s.ie := rfl
@[simp] theorem State.dropTurn_widthM1 : (s.dropTurn).widthM1 = s.widthM1 := rfl
@[simp] theorem State.dropTurn_busy : (s.dropTurn).busy = s.busy := rfl
@[simp] theorem State.dropTurn_done : (s.dropTurn).done = s.done := rfl
@[simp] theorem State.dropTurn_treeValid : (s.dropTurn).treeValid = s.treeValid := rfl
@[simp] theorem State.dropTurn_errcode : (s.dropTurn).errcode = s.errcode := rfl
@[simp] theorem State.dropTurn_ilen : (s.dropTurn).ilen = s.ilen := rfl
@[simp] theorem State.dropTurn_olen : (s.dropTurn).olen = s.olen := rfl
@[simp] theorem State.dropTurn_resid : (s.dropTurn).resid = s.resid := rfl
@[simp] theorem State.dropTurn_nodeCount : (s.dropTurn).nodeCount = s.nodeCount := rfl
@[simp] theorem State.dropTurn_nodeSel : (s.dropTurn).nodeSel = s.nodeSel := rfl
@[simp] theorem State.dropTurn_tblSel : (s.dropTurn).tblSel = s.tblSel := rfl
@[simp] theorem State.dropTurn_ibuf : (s.dropTurn).ibuf = s.ibuf := rfl
@[simp] theorem State.dropTurn_obuf : (s.dropTurn).obuf = s.obuf := rfl
@[simp] theorem State.dropTurn_nodes : (s.dropTurn).nodes = s.nodes := rfl
@[simp] theorem State.dropTurn_latchedCmd : (s.dropTurn).latchedCmd = s.latchedCmd := rfl
@[simp] theorem State.dropTurn_turns : (s.dropTurn).turns = s.turns.tail := rfl
@[simp] theorem State.dropTurn_hosts : (s.dropTurn).hosts = s.hosts := rfl
@[simp] theorem State.dropTurn_draws : (s.dropTurn).draws = s.draws := rfl

@[simp] theorem State.engineFirst_inst : (s.engineFirst).inst = s.inst := rfl
@[simp] theorem State.engineFirst_ie : (s.engineFirst).ie = s.ie := rfl
@[simp] theorem State.engineFirst_widthM1 : (s.engineFirst).widthM1 = s.widthM1 := rfl
@[simp] theorem State.engineFirst_busy : (s.engineFirst).busy = s.busy := rfl
@[simp] theorem State.engineFirst_done : (s.engineFirst).done = s.done := rfl
@[simp] theorem State.engineFirst_treeValid : (s.engineFirst).treeValid = s.treeValid := rfl
@[simp] theorem State.engineFirst_errcode : (s.engineFirst).errcode = s.errcode := rfl
@[simp] theorem State.engineFirst_ilen : (s.engineFirst).ilen = s.ilen := rfl
@[simp] theorem State.engineFirst_olen : (s.engineFirst).olen = s.olen := rfl
@[simp] theorem State.engineFirst_resid : (s.engineFirst).resid = s.resid := rfl
@[simp] theorem State.engineFirst_nodeCount : (s.engineFirst).nodeCount = s.nodeCount := rfl
@[simp] theorem State.engineFirst_nodeSel : (s.engineFirst).nodeSel = s.nodeSel := rfl
@[simp] theorem State.engineFirst_tblSel : (s.engineFirst).tblSel = s.tblSel := rfl
@[simp] theorem State.engineFirst_ibuf : (s.engineFirst).ibuf = s.ibuf := rfl
@[simp] theorem State.engineFirst_obuf : (s.engineFirst).obuf = s.obuf := rfl
@[simp] theorem State.engineFirst_nodes : (s.engineFirst).nodes = s.nodes := rfl
@[simp] theorem State.engineFirst_latchedCmd : (s.engineFirst).latchedCmd = s.latchedCmd := rfl
@[simp] theorem State.engineFirst_turns : (s.engineFirst).turns = .engine :: s.turns := rfl
@[simp] theorem State.engineFirst_hosts : (s.engineFirst).hosts = s.hosts := rfl
@[simp] theorem State.engineFirst_draws : (s.engineFirst).draws = s.draws := rfl

@[simp] theorem State.resetBlock_inst : (s.resetBlock).inst = s.inst := rfl
@[simp] theorem State.resetBlock_ie : (s.resetBlock).ie = false := rfl
@[simp] theorem State.resetBlock_widthM1 : (s.resetBlock).widthM1 = 7 := rfl
@[simp] theorem State.resetBlock_busy : (s.resetBlock).busy = false := rfl
@[simp] theorem State.resetBlock_done : (s.resetBlock).done = false := rfl
@[simp] theorem State.resetBlock_treeValid : (s.resetBlock).treeValid = false := rfl
@[simp] theorem State.resetBlock_errcode : (s.resetBlock).errcode = 0 := rfl
@[simp] theorem State.resetBlock_ilen : (s.resetBlock).ilen = 0 := rfl
@[simp] theorem State.resetBlock_olen : (s.resetBlock).olen = 0 := rfl
@[simp] theorem State.resetBlock_resid : (s.resetBlock).resid = 0 := rfl
@[simp] theorem State.resetBlock_nodeCount : (s.resetBlock).nodeCount = 0 := rfl
@[simp] theorem State.resetBlock_nodeSel : (s.resetBlock).nodeSel = 0 := rfl
@[simp] theorem State.resetBlock_tblSel : (s.resetBlock).tblSel = 0 := rfl
@[simp] theorem State.resetBlock_ibuf : (s.resetBlock).ibuf = [] := rfl
@[simp] theorem State.resetBlock_obuf : (s.resetBlock).obuf = [] := rfl
@[simp] theorem State.resetBlock_nodes : (s.resetBlock).nodes = List.replicate s.inst.nodeCap Node.blank := rfl
@[simp] theorem State.resetBlock_latchedCmd : (s.resetBlock).latchedCmd = 0 := rfl
@[simp] theorem State.resetBlock_turns : (s.resetBlock).turns = s.turns := rfl
@[simp] theorem State.resetBlock_hosts : (s.resetBlock).hosts = s.hosts := rfl
@[simp] theorem State.resetBlock_draws : (s.resetBlock).draws = s.draws := rfl

@[simp] theorem State.setAgent_inst (k : Nat) (p : List HostStmt) (vs : List ((Nat × Nat) × Nat)) : (s.setAgent k p vs).inst = s.inst := rfl
@[simp] theorem State.setAgent_ie (k : Nat) (p : List HostStmt) (vs : List ((Nat × Nat) × Nat)) : (s.setAgent k p vs).ie = s.ie := rfl
@[simp] theorem State.setAgent_widthM1 (k : Nat) (p : List HostStmt) (vs : List ((Nat × Nat) × Nat)) : (s.setAgent k p vs).widthM1 = s.widthM1 := rfl
@[simp] theorem State.setAgent_busy (k : Nat) (p : List HostStmt) (vs : List ((Nat × Nat) × Nat)) : (s.setAgent k p vs).busy = s.busy := rfl
@[simp] theorem State.setAgent_done (k : Nat) (p : List HostStmt) (vs : List ((Nat × Nat) × Nat)) : (s.setAgent k p vs).done = s.done := rfl
@[simp] theorem State.setAgent_treeValid (k : Nat) (p : List HostStmt) (vs : List ((Nat × Nat) × Nat)) : (s.setAgent k p vs).treeValid = s.treeValid := rfl
@[simp] theorem State.setAgent_errcode (k : Nat) (p : List HostStmt) (vs : List ((Nat × Nat) × Nat)) : (s.setAgent k p vs).errcode = s.errcode := rfl
@[simp] theorem State.setAgent_ilen (k : Nat) (p : List HostStmt) (vs : List ((Nat × Nat) × Nat)) : (s.setAgent k p vs).ilen = s.ilen := rfl
@[simp] theorem State.setAgent_olen (k : Nat) (p : List HostStmt) (vs : List ((Nat × Nat) × Nat)) : (s.setAgent k p vs).olen = s.olen := rfl
@[simp] theorem State.setAgent_resid (k : Nat) (p : List HostStmt) (vs : List ((Nat × Nat) × Nat)) : (s.setAgent k p vs).resid = s.resid := rfl
@[simp] theorem State.setAgent_nodeCount (k : Nat) (p : List HostStmt) (vs : List ((Nat × Nat) × Nat)) : (s.setAgent k p vs).nodeCount = s.nodeCount := rfl
@[simp] theorem State.setAgent_nodeSel (k : Nat) (p : List HostStmt) (vs : List ((Nat × Nat) × Nat)) : (s.setAgent k p vs).nodeSel = s.nodeSel := rfl
@[simp] theorem State.setAgent_tblSel (k : Nat) (p : List HostStmt) (vs : List ((Nat × Nat) × Nat)) : (s.setAgent k p vs).tblSel = s.tblSel := rfl
@[simp] theorem State.setAgent_ibuf (k : Nat) (p : List HostStmt) (vs : List ((Nat × Nat) × Nat)) : (s.setAgent k p vs).ibuf = s.ibuf := rfl
@[simp] theorem State.setAgent_obuf (k : Nat) (p : List HostStmt) (vs : List ((Nat × Nat) × Nat)) : (s.setAgent k p vs).obuf = s.obuf := rfl
@[simp] theorem State.setAgent_nodes (k : Nat) (p : List HostStmt) (vs : List ((Nat × Nat) × Nat)) : (s.setAgent k p vs).nodes = s.nodes := rfl
@[simp] theorem State.setAgent_latchedCmd (k : Nat) (p : List HostStmt) (vs : List ((Nat × Nat) × Nat)) : (s.setAgent k p vs).latchedCmd = s.latchedCmd := rfl
@[simp] theorem State.setAgent_turns (k : Nat) (p : List HostStmt) (vs : List ((Nat × Nat) × Nat)) : (s.setAgent k p vs).turns = s.turns := rfl
@[simp] theorem State.setAgent_hosts (k : Nat) (p : List HostStmt) (vs : List ((Nat × Nat) × Nat)) : (s.setAgent k p vs).hosts = s.hosts.set k { prog := p, vars := vs } := rfl
@[simp] theorem State.setAgent_draws (k : Nat) (p : List HostStmt) (vs : List ((Nat × Nat) × Nat)) : (s.setAgent k p vs).draws = s.draws := rfl

end Sys2Proof.Machine
end

