-- ==== Sys2Proof/Laws/Bus.lean ====
section
/-! SUPPORT. What an access at an offset of the window reaches (20_memory R53): one lemma per region, for reads and for
writes. -/

namespace Sys2Proof.Machine

variable (s : State)

theorem windowOffset_base (p : Instance) {off : Nat} (h : off < 0x40000) :
    windowOffset p (p.blockBase + off) = some off := by
  unfold windowOffset windowSize
  rw [if_pos (by omega), Nat.add_sub_cancel_left]

/-- Inside the window a host address and its offset are one: the base drops out (20_memory R54). -/
theorem busRead_base (width : Nat) {off : Nat} (h : off < 0x40000) :
    busRead width (s.inst.blockBase + off) s = readOffset width off s := by
  simp [busRead, windowOffset_base _ h]

theorem busWrite_base (width : Nat) {off : Nat} (v : Word) (h : off < 0x40000) :
    busWrite width (s.inst.blockBase + off) v s = writeOffset width off v s := by
  simp [busWrite, windowOffset_base _ h]

theorem regionOf_regs (p : Instance) {off : Nat} (h : off < 0x100) : regionOf p off = .regs off := by
  simp [regionOf, h]

theorem regionOf_ibuf_at (p : Instance) {i : Nat} (h : i < p.ibufSize) (h' : i < 0x10000) :
    regionOf p (0x10000 + i) = .ibuf i := by
  unfold regionOf
  rw [if_neg (by omega), if_neg (by omega), if_pos (by omega), if_pos (by omega), Nat.add_sub_cancel_left]

theorem regionOf_obuf_at (p : Instance) {i : Nat} (h : i < p.obufSize) (h' : i < 0x10000) :
    regionOf p (0x20000 + i) = .obuf i := by
  unfold regionOf
  rw [if_neg (by omega), if_neg (by omega), if_neg (by omega), if_pos (by omega), if_pos (by omega),
    Nat.add_sub_cancel_left]

theorem regionOf_reserved (p : Instance) {off : Nat} (h : ReservedOffset p off) : regionOf p off = .reserved := by
  unfold ReservedOffset at h
  unfold regionOf
  rw [if_neg (by omega)]
  split
  · rfl
  · split
    · rw [if_neg (by omega)]
    · split
      · rw [if_neg (by omega)]
      · rfl

/-- A 32-bit aligned read of the register space reads the register there. -/
theorem busRead_reg {off : Nat} (h : off < 0x100) (ha : off % 4 = 0) :
    busRead 32 (s.inst.blockBase + off) s = .next (readReg (regAt off) s) := by
  rw [busRead_base s 32 (by omega)]
  simp [readOffset, regionOf_regs _ h, regAccessOk, ha]

/-- A 32-bit aligned write of the register space writes the register there. -/
theorem busWrite_reg {off : Nat} (v : Word) (h : off < 0x100) (ha : off % 4 = 0) :
    busWrite 32 (s.inst.blockBase + off) v s = .next (writeReg (regAt off) v s) := by
  rw [busWrite_base s 32 v (by omega)]
  simp [writeOffset, regionOf_regs _ h, regAccessOk, ha]

theorem busRead_ibuf {i : Nat} (h : i < s.inst.ibufSize) (h' : i < 0x10000) :
    busRead 8 (s.inst.blockBase + 0x10000 + i) s = readIbuf i s := by
  rw [Nat.add_assoc, busRead_base s 8 (by omega)]
  simp [readOffset, regionOf_ibuf_at _ h h']

theorem busWrite_ibuf {i : Nat} (v : Word) (h : i < s.inst.ibufSize) (h' : i < 0x10000) :
    busWrite 8 (s.inst.blockBase + 0x10000 + i) v s = .next (writeIbufByte i v s) := by
  rw [Nat.add_assoc, busWrite_base s 8 v (by omega)]
  simp [writeOffset, regionOf_ibuf_at _ h h']

theorem busRead_obuf {i : Nat} (h : i < s.inst.obufSize) (h' : i < 0x10000) :
    busRead 8 (s.inst.blockBase + 0x20000 + i) s = readObuf i s := by
  rw [Nat.add_assoc, busRead_base s 8 (by omega)]
  simp [readOffset, regionOf_obuf_at _ h h']

theorem busWrite_obuf {i : Nat} (v : Word) (h : i < s.inst.obufSize) (h' : i < 0x10000) :
    busWrite 8 (s.inst.blockBase + 0x20000 + i) v s = .next s := by
  rw [Nat.add_assoc, busWrite_base s 8 v (by omega)]
  simp [writeOffset, regionOf_obuf_at _ h h']

/-- A register whose reads are never unspecified reads the same, busy or not (70_reset_and_hazards R152). -/
theorem readReg_specified {r : Reg} (h : r.unspecifiedWhileBusy = false) : readReg r s = (s.regWord r, s) := by
  simp [readReg, h]

theorem readReg_idle (r : Reg) (h : s.busy = false) : readReg r s = (s.regWord r, s) := by simp [readReg, h]

end Sys2Proof.Machine
end

