-- ==== Sys2Proof/Laws/HostAgent.lean ====
section
/-! SUPPORT. The host agents: variables, expressions, and what one statement of an agent does, each said once (30_encoding
R85). -/

namespace Sys2Proof.Machine

/-- An assignment sets its variable and no other. -/
theorem assignVar_assigned (vars : List ((Nat × Nat) × Nat)) (x : Nat × Nat) (v : Nat) :
    Assigned vars (assignVar vars x v) x v := by
  induction vars with
  | nil => exact ⟨by simp [assignVar, lookupVar], fun y h => by simp [assignVar, lookupVar, Ne.symm h]⟩
  | cons head vars ih =>
    obtain ⟨k, w⟩ := head
    unfold assignVar
    split
    · next h =>
      subst h
      exact ⟨by simp [lookupVar], fun y hy => by simp [lookupVar, Ne.symm hy]⟩
    · next h =>
      refine ⟨by simpa [lookupVar, h] using ih.1, fun y hy => ?_⟩
      simp only [lookupVar]
      split
      · rfl
      · exact ih.2 y hy

@[simp] theorem lookupVar_assignVar_same (vars : List ((Nat × Nat) × Nat)) (x : Nat × Nat) (v : Nat) :
    lookupVar (assignVar vars x v) x = some v := (assignVar_assigned vars x v).1

theorem lookupVar_assignVar_other (vars : List ((Nat × Nat) × Nat)) {x y : Nat × Nat} (v : Nat) (h : y ≠ x) :
    lookupVar (assignVar vars x v) y = lookupVar vars y := (assignVar_assigned vars x v).2 y h

@[simp] theorem setAgent_eq_withAgent (s : State) (k : Nat) (prog : List HostStmt) (vars : List ((Nat × Nat) × Nat)) :
    s.setAgent k prog vars = withAgent s k prog vars := rfl

/-- What one agent has left replaced twice is replaced once. -/
@[simp] theorem withAgent_withAgent (s : State) (k : Nat) (prog prog' : List HostStmt)
    (vars vars' : List ((Nat × Nat) × Nat)) :
    withAgent (withAgent s k prog vars) k prog' vars' = withAgent s k prog' vars' := by simp [withAgent]

/-- The agent put into a state is the agent found there. -/
theorem withAgent_getElem? (s : State) {k : Nat} {a : HostAgent} (h : s.hosts[k]? = some a) (prog : List HostStmt)
    (vars : List ((Nat × Nat) × Nat)) : (withAgent s k prog vars).hosts[k]? = some { prog := prog, vars := vars } := by
  obtain ⟨hk, -⟩ := List.getElem?_eq_some_iff.1 h
  simp [withAgent, hk]

/-- A turn of an agent with a statement left runs that statement. -/
theorem hostStep_cons {s : State} {k : Nat} {a : HostAgent} {st : HostStmt} {rest : List HostStmt}
    (h : s.hosts[k]? = some a) (hp : a.prog = st :: rest) : hostStep k s = runStmt k a.vars st rest s := by
  simp [hostStep, h, hp]

@[simp] theorem hostTurns_zero (k : Nat) (s : State) : hostTurns k 0 s = .next s := rfl

/-- The first turn of several, where it answers a state. -/
theorem hostTurns_succ {k n : Nat} {s t : State} (h : hostStep k s = .next t) :
    hostTurns k (n + 1) s = hostTurns k n t := by simp [hostTurns, h]

/-- On an idle block an aligned 32-bit read of the register space reads the register's word. -/
theorem reads_reg {t : State} {off : Nat} (idle : t.busy = false) (h : off < 0x100) (ha : off % 4 = 0) :
    Reads t off (t.regWord (regAt off)) := by
  simp only [Reads, busRead_reg t h ha, readReg_idle _ _ idle]

end Sys2Proof.Machine
end

