-- ==== Sys2Proof/Laws/Operands.lean ====
section
/-! SUPPORT. The laws of the layout primitives: bit strings, chunks, tokens and hex digits. -/

namespace Sys2Proof.Machine

@[simp] theorem byteBit_bitByte (b : Bool) : byteBit (bitByte b) = some b := by cases b <;> rfl

theorem byteBit_eq_some {c : Byte} {b : Bool} (h : byteBit c = some b) : c = bitByte b := by
  unfold byteBit at h
  split at h
  · next hc =>
    cases h
    exact hc
  · split at h
    · next hc =>
      cases h
      exact hc
    · cases h

theorem byteBit_eq_none_iff {c : Byte} : byteBit c = none ↔ c ≠ 0x30 ∧ c ≠ 0x31 := by
  unfold byteBit
  split
  · next h => simp [h]
  · split
    · next h => simp [h]
    · next h1 h2 => exact ⟨fun _ => ⟨h1, h2⟩, fun _ => rfl⟩

@[simp] theorem serBits_nil : serBits [] = [] := rfl

@[simp] theorem serBits_cons (b : Bool) (bs : Bits) : serBits (b :: bs) = bitByte b :: serBits bs := rfl

@[simp] theorem serBits_append (as bs : Bits) : serBits (as ++ bs) = serBits as ++ serBits bs := List.map_append

@[simp] theorem serBits_length (bs : Bits) : (serBits bs).length = bs.length := List.length_map _

/-- Parsing a BITSTR gives back the bits it was made of (30_encoding R82). -/
@[simp] theorem bitsOfBytes_serBits (e : ErrorKind) (bs : Bits) : bitsOfBytes e (serBits bs) = .ok bs := by
  induction bs with
  | nil => rfl
  | cons b bs ih => simp [bitsOfBytes, ih]

/-- Everything a parse of a bit string can answer: it succeeds exactly on the BITSTR form of its answer. -/
theorem bitsOfBytes_eq_ok_iff {e : ErrorKind} {s : List Byte} {bs : Bits} :
    bitsOfBytes e s = .ok bs ↔ s = serBits bs := by
  constructor
  · intro h
    induction s generalizing bs with
    | nil =>
      cases h
      rfl
    | cons c cs ih =>
      simp only [bitsOfBytes] at h
      split at h
      · cases h
      · next b hb =>
        split at h
        · next bs' hbs =>
          cases h
          rw [serBits_cons, ← ih hbs, byteBit_eq_some hb]
        · cases h
  · rintro rfl
    exact bitsOfBytes_serBits e bs

/-- It fails, with the error it was given, exactly when some byte is neither '0' nor '1'. -/
theorem bitsOfBytes_eq_error_iff {e e' : ErrorKind} {s : List Byte} :
    bitsOfBytes e s = .error e' ↔ e' = e ∧ ∃ c ∈ s, c ≠ 0x30 ∧ c ≠ 0x31 := by
  induction s with
  | nil => simp [bitsOfBytes]
  | cons c cs ih =>
    simp only [bitsOfBytes, List.exists_mem_cons_iff, ← byteBit_eq_none_iff] at ih ⊢
    cases hb : byteBit c with
    | none => simp [eq_comm]
    | some b =>
      cases hr : bitsOfBytes e cs with
      | ok bs => simpa [hr] using ih
      | error e1 =>
        rw [hr] at ih
        simpa using ih

theorem splitChunks_flatten (w k : Nat) (bs : Bits) (h : bs.length = k * w) : (splitChunks w k bs).flatten = bs := by
  induction k generalizing bs with
  | zero => simpa [splitChunks, eq_comm] using h
  | succ k ih =>
    simp only [splitChunks, List.flatten_cons]
    rw [ih (bs.drop w) (by simp [h, Nat.succ_mul]), List.take_append_drop]

theorem splitChunks_append (w k : Nat) (ch bs : Bits) (h : ch.length = w) :
    splitChunks w (k + 1) (ch ++ bs) = ch :: splitChunks w k bs := by
  subst h
  simp [splitChunks]

/-- Splitting a concatenation of chunks of one width gives the chunks back (30_encoding R83). -/
theorem splitChunks_of_flatten (w : Nat) (chunks : List Bits) (h : ∀ ch ∈ chunks, ch.length = w) :
    splitChunks w chunks.length chunks.flatten = chunks := by
  induction chunks with
  | nil => rfl
  | cons ch chunks ih =>
    rw [List.length_cons, List.flatten_cons, splitChunks_append w _ _ _ (h ch (by simp)),
      ih (fun c hc => h c (by simp [hc]))]

@[simp] theorem parseTokensUpTo_nil (n : Nat) : parseTokensUpTo n [] = .ok [] := by cases n <;> rfl

/-- The bound on the number of records does not matter once it reaches the length of the input. -/
theorem parseTokensUpTo_bound (n m : Nat) (s : List Byte) (hn : s.length ≤ n) (hm : s.length ≤ m) :
    parseTokensUpTo n s = parseTokensUpTo m s := by
  induction n generalizing m s with
  | zero =>
    obtain rfl : s = [] := List.length_eq_zero_iff.1 (by omega)
    simp
  | succ n ih =>
    match s, m with
    | [], m => simp
    | [c], m => cases m <;> rfl
    | h :: l :: rest, 0 => simp at hm
    | h :: l :: rest, m + 1 =>
      simp only [parseTokensUpTo]
      simp only [List.length_cons] at hn hm
      rw [ih m (rest.drop (h.toNat * 256 + l.toNat)) (by simp; omega) (by simp; omega)]

/-- ParseTokens as the loop of 40_command_framework R96, one record at a time. -/
theorem parseTokens_cons (h l : Byte) (rest : List Byte) :
    parseTokens (h :: l :: rest) =
      if rest.length < h.toNat * 256 + l.toNat then .error .malformedList
      else
        match parseTokens (rest.drop (h.toNat * 256 + l.toNat)) with
        | .ok toks => .ok (rest.take (h.toNat * 256 + l.toNat) :: toks)
        | .error e => .error e := by
  simp only [parseTokens, List.length_cons, parseTokensUpTo]
  have hb := parseTokensUpTo_bound (rest.length + 1) (rest.drop (h.toNat * 256 + l.toNat)).length _ (by simp; omega)
    (Nat.le_refl _)
  split
  · rfl
  · cases hd : parseTokensUpTo (rest.drop (h.toNat * 256 + l.toNat)).length (rest.drop (h.toNat * 256 + l.toNat)) <;>
      rw [hd] at hb <;> simp [hb]

theorem parseTokens_nil : parseTokens [] = .ok [] := rfl

theorem parseTokens_single (c : Byte) : parseTokens [c] = .error .malformedList := rfl

/-- ParseTokens fails with MALFORMED_LIST only (60_exceptions R133). -/
theorem parseTokensUpTo_error {n : Nat} {s : List Byte} {e : ErrorKind} (h : parseTokensUpTo n s = .error e) :
    e = .malformedList := by
  induction n generalizing s with
  | zero =>
    match s with
    | [] => cases h
    | [c] =>
      cases h
      rfl
    | a :: b :: rest =>
      cases h
      rfl
  | succ n ih =>
    match s with
    | [] => cases h
    | [c] =>
      cases h
      rfl
    | a :: b :: rest =>
      simp only [parseTokensUpTo] at h
      split at h
      · cases h
        rfl
      · split at h
        · cases h
        · next he =>
          cases h
          exact ih he

/-- The value of a `w`-bit chunk is below `2^w` (43_hex_codec R115). -/
theorem bitsVal_lt (bs : Bits) : bitsVal bs < 2 ^ bs.length := by
  induction bs with
  | nil => simp [bitsVal]
  | cons b bs ih =>
    simp only [bitsVal, List.length_cons, Nat.pow_succ]
    cases b <;> simp <;> omega

@[simp] theorem valBits_length (w v : Nat) : (valBits w v).length = w := by simp [valBits]

/-- HexVal undoes HexDigit (40_command_framework R99, R100). -/
theorem hexVal_hexDigit {d : Nat} (h : d < 16) : hexVal (hexDigit d) = some d := by
  have : ∀ d : Fin 16, hexVal (hexDigit d) = some d.val := by decide
  exact this ⟨d, h⟩

/-- Padding fills a bit string up to a whole number of chunks (42_bit_packer R111). -/
theorem padBits_length (w : Nat) (bs : Bits) (hw : 0 < w) : (padBits w bs).length = chunkCount bs.length w * w := by
  have h := Nat.div_add_mod (bs.length + (w - 1)) w
  have hm := Nat.mod_lt (bs.length + (w - 1)) hw
  have hk : chunkCount bs.length w * w = w * ((bs.length + (w - 1)) / w) := Nat.mul_comm _ _
  simp only [padBits, List.length_append, List.length_replicate]
  omega

@[simp] theorem codeBits_nil (table : List Entry) : codeBits table [] = .ok [] := rfl

/-- What TOBITS computes when every byte has an entry: the codes, concatenated (42_bit_packer R110). -/
theorem codeBits_of_codes {table : List Entry} {input : List Byte} {codes : List Bits}
    (h : List.Forall₂ (fun c k => lookup table c = some k) input codes) : codeBits table input = .ok codes.flatten := by
  induction h with
  | nil => rfl
  | cons hck _ ih => simp [codeBits, hck, ih]

end Sys2Proof.Machine
end

