-- ==== Sys2Proof/Laws/Ops.lean ====
section
/-! SUPPORT. What the shared operations of a command can do, each said once: reading the input, committing, EnsureTree,
and the whole shape of a command that reads its input. -/

namespace Sys2Proof.Machine

variable {s t : State}

/-- What MemRead answers for the input a state has. -/
theorem HasInput.readBytes {input : List Byte} (h : HasInput s input) :
    s.ibuf.readBytes 0 s.ilen.toNat = some input := by
  obtain ⟨hl, _, hb⟩ := h
  refine (Memory.readBytes_eq_some_iff _ _ _ _).2 ⟨hl.symm, fun i hi => ?_⟩
  rw [Nat.zero_add]
  exact hb i (hl ▸ hi)

theorem HasInput.ilen_le {input : List Byte} (h : HasInput s input) : ¬ s.inst.ibufSize < s.ilen.toNat := by
  obtain ⟨hl, hs, _⟩ := h
  omega

/-- A commit of a success is a success, and leaves the tree and everything else. -/
theorem commitOk_succeeds (s : State) (out : List Byte) (r : Nat) : Succeeds (s.commitOk out r) out r :=
  ⟨rfl, rfl, rfl, Memory.read_ofBytes out, rfl, rfl⟩

theorem commitErr_fails (s : State) (c : ErrorKind) : Fails (s.commitErr c) c := ⟨rfl, rfl, rfl, fun _ => rfl, rfl, rfl⟩

theorem commit_sameElsewhere (s : State) (res : CommandResult) : SameElsewhere s (s.commit res) := by
  rcases res with c | ⟨out, r⟩ <;> exact ⟨rfl, rfl, rfl, rfl, rfl, rfl, rfl, rfl, rfl, rfl, rfl⟩

theorem commit_sameTree (s : State) (res : CommandResult) : SameTree s (s.commit res) := by
  rcases res with c | ⟨out, r⟩ <;> exact ⟨rfl, rfl, rfl⟩

@[simp] theorem commit_done (s : State) (res : CommandResult) : (s.commit res).done = true := by
  rcases res with c | ⟨out, r⟩ <;> rfl

@[simp] theorem commit_busy (s : State) (res : CommandResult) : (s.commit res).busy = false := by
  rcases res with c | ⟨out, r⟩ <;> rfl

theorem SameElsewhere.refl (s : State) : SameElsewhere s s := ⟨rfl, rfl, rfl, rfl, rfl, rfl, rfl, rfl, rfl, rfl, rfl⟩

theorem SameElsewhere.trans {u : State} (h : SameElsewhere s t) (k : SameElsewhere t u) : SameElsewhere s u := by
  obtain ⟨a1, a2, a3, a4, a5, a6, a7, a8, a9, a10, a11⟩ := h
  obtain ⟨b1, b2, b3, b4, b5, b6, b7, b8, b9, b10, b11⟩ := k
  exact ⟨b1.trans a1, b2.trans a2, b3.trans a3, b4.trans a4, b5.trans a5, b6.trans a6, b7.trans a7, b8.trans a8,
    b9.trans a9, b10.trans a10, b11.trans a11⟩

/-- EnsureTree writes the tree and nothing else (44_decoding_tree R123). -/
theorem ensureTree_sameElsewhere (s : State) : SameElsewhere s (ensureTree s) := by
  unfold ensureTree
  split
  · exact SameElsewhere.refl s
  · exact ⟨rfl, rfl, rfl, rfl, rfl, rfl, rfl, rfl, rfl, rfl, rfl⟩

theorem ensureTree_of_valid (h : s.treeValid = true) : ensureTree s = s := by simp [ensureTree, h]

theorem ensureTree_of_invalid (h : s.treeValid = false) :
    ensureTree s = s.setTree (buildTree s.inst.codeTable s.nodes).nodes (buildTree s.inst.codeTable s.nodes).count := by
  simp [ensureTree, h]

@[simp] theorem ensureTree_treeValid (s : State) : (ensureTree s).treeValid = true := by
  unfold ensureTree
  split
  · assumption
  · rfl

@[simp] theorem ensureTree_inst (s : State) : (ensureTree s).inst = s.inst := (ensureTree_sameElsewhere s).1

@[simp] theorem ensureTree_widthM1 (s : State) : (ensureTree s).widthM1 = s.widthM1 := (ensureTree_sameElsewhere s).2.2.1

/-- A command whose length is out of range commits BAD_LEN and builds nothing (60_exceptions R135). -/
theorem runCommand_badLen {prep : State → State} {op : State → List Byte → CommandResult}
    (h : s.inst.ibufSize < s.ilen.toNat) : runCommand prep op s = .next (s.commitErr .badLen) := by
  simp [runCommand, h]

/-- A command whose input holds an undefined byte has no commit (20_memory R61). -/
theorem runCommand_undefined {prep : State → State} {op : State → List Byte → CommandResult} {i : Nat}
    (hl : s.ilen.toNat ≤ s.inst.ibufSize) (hi : i < s.ilen.toNat) (h : s.ibuf.read i = none) :
    runCommand prep op s = .fault .undefinedRead := by
  have hn : s.ibuf.readBytes 0 s.ilen.toNat = none :=
    Memory.readBytes_eq_none_of_undefined _ hi (by rwa [Nat.zero_add])
  simp [runCommand, Nat.not_lt.2 hl, hn]

/-- A command that has its input commits what its own computation answers, after the size check. -/
theorem runCommand_of_hasInput {prep : State → State} {op : State → List Byte → CommandResult} {input : List Byte}
    (h : HasInput s input) :
    runCommand prep op s = .next ((prep s).commit (checkOutput s.inst.obufSize (op (prep s) input))) := by
  simp [runCommand, h.ilen_le, h.readBytes]

/-- Everything a command that reads its input can answer as a next state: BAD_LEN on the state itself, or a commit on
the state `prep` left. -/
theorem runCommand_next {prep : State → State} {op : State → List Byte → CommandResult}
    (h : runCommand prep op s = .next t) :
    t = s.commitErr .badLen ∨
    ∃ input, HasInput s input ∧ t = (prep s).commit (checkOutput s.inst.obufSize (op (prep s) input)) := by
  unfold runCommand at h
  split at h
  · cases h
    exact .inl rfl
  · next hle =>
    split at h
    · cases h
    · next input hin =>
      cases h
      obtain ⟨hl, hb⟩ := (Memory.readBytes_eq_some_iff _ _ _ _).1 hin
      refine .inr ⟨input, ⟨hl.symm, by omega, fun i hi => ?_⟩, rfl⟩
      have := hb i (by omega)
      rwa [Nat.zero_add] at this

/-- An output that passes the size check is one the computation answered and that fits (40_command_framework R89). -/
theorem checkOutput_eq_ok_iff {size : Nat} {res : CommandResult} {out : List Byte} {r : Nat} :
    checkOutput size res = .ok (out, r) ↔ res = .ok (out, r) ∧ out.length ≤ size := by
  rcases res with c | ⟨o, r'⟩
  · simp [checkOutput]
  · simp only [checkOutput, Except.ok.injEq, Prod.mk.injEq]
    split
    · next h =>
      constructor
      · intro h'
        cases h'
      · rintro ⟨⟨rfl, rfl⟩, hle⟩
        omega
    · next h =>
      simp only [Except.ok.injEq, Prod.mk.injEq]
      constructor
      · rintro ⟨rfl, rfl⟩
        exact ⟨⟨rfl, rfl⟩, by omega⟩
      · exact fun h' => h'.1

@[simp] theorem checkOutput_error (size : Nat) (c : ErrorKind) : checkOutput size (.error c) = .error c := rfl

theorem checkOutput_fits {size : Nat} {out : List Byte} {r : Nat} (h : out.length ≤ size) :
    checkOutput size (.ok (out, r)) = .ok (out, r) := checkOutput_eq_ok_iff.2 ⟨rfl, h⟩

theorem checkOutput_overflow {size : Nat} {out : List Byte} {r : Nat} (h : size < out.length) :
    checkOutput size (.ok (out, r)) = .error .overflow := by simp [checkOutput, h]

/-- The preparation of a command, nothing or EnsureTree, writes nothing but the tree. -/
def PrepOk (prep : State → State) : Prop := ∀ s, SameElsewhere s (prep s)

theorem prepOk_id : PrepOk id := fun s => SameElsewhere.refl s

theorem prepOk_ensureTree : PrepOk ensureTree := ensureTree_sameElsewhere

/-- The frame of a command that reads its input. -/
theorem runCommand_frame {prep : State → State} {op : State → List Byte → CommandResult} (hp : PrepOk prep)
    (h : runCommand prep op s = .next t) : SameElsewhere s t ∧ t.done = true ∧ t.busy = false := by
  rcases runCommand_next h with rfl | ⟨input, _, rfl⟩
  · exact ⟨commit_sameElsewhere s (.error .badLen), rfl, rfl⟩
  · exact ⟨(hp s).trans (commit_sameElsewhere _ _), commit_done _ _, commit_busy _ _⟩

/-- When the run has ended (log entry 25). -/
theorem runEnded_iff : s.runEnded = true ↔ (∀ h ∈ s.hosts, h.prog = []) ∧ s.busy = false := by
  simp [State.runEnded, State.quiescent]

/-- For one host program: it has no statement left, and BUSY is 0 (70_reset_and_hazards R157). -/
theorem runEnded_single {h : HostAgent} (hs : s.hosts = [h]) : s.runEnded = true ↔ h.prog = [] ∧ s.busy = false := by
  simp [runEnded_iff, hs]

end Sys2Proof.Machine
end

