-- ==== Sys2Proof/Laws/PerInstr.lean ====
section
/-! SUPPORT. Statements about every command as syntax, one lemma per constructor. -/

namespace Sys2Proof.Laws.CommandWord

/-- The command word of `i` is well-formed: its MBZ bits are zero, its OP is the opcode map's row of `i`, and the opcode is
none of the reserved ones (30_encoding R75 to R77). -/
def Statement (i : Instr) : Prop :=
  i.wf = true ∧ mbzField (encode i) = 0#28 ∧ opcodeMap (opField (encode i)).toNat = some i ∧
  opField (encode i) ≠ 0x0#4 ∧ (opField (encode i)).toNat < 0xC

theorem build : Statement .build := by unfold Statement; decide
theorem tobits : Statement .tobits := by unfold Statement; decide
theorem chunk : Statement .chunk := by unfold Statement; decide
theorem join : Statement .join := by unfold Statement; decide
theorem tohex : Statement .tohex := by unfold Statement; decide
theorem fromhex : Statement .fromhex := by unfold Statement; decide
theorem tokjoin : Statement .tokjoin := by unfold Statement; decide
theorem toksplit : Statement .toksplit := by unfold Statement; decide
theorem decode : Statement .decode := by unfold Statement; decide
theorem pack : Statement .pack := by unfold Statement; decide
theorem unpack : Statement .unpack := by unfold Statement; decide

end Sys2Proof.Laws.CommandWord
end

