-- ==== Sys2Proof/Laws/Step.lean ====
section
/-! SUPPORT. What a command, a bus access, a host statement and a step can do, each said once: if it answers a next
state, then that state is one of these. -/

namespace Sys2Proof.Machine

variable {s t : State}

/-- Everything a command can answer as a next state: one commit, on the state itself or on the state EnsureTree leaves;
a committed output fits OBUF (40_command_framework R89, R90). -/
theorem exec_next {i : Instr} (h : exec i s = .next t) :
    ∃ u res, (u = s ∨ u = ensureTree s) ∧ t = u.commit res ∧
      ∀ out r, res = .ok (out, r) → out.length ≤ s.inst.obufSize := by
  have key : ∀ (prep : State → State) (op : State → List Byte → CommandResult),
      (prep s = s ∨ prep s = ensureTree s) → runCommand prep op s = .next t →
      ∃ u res, (u = s ∨ u = ensureTree s) ∧ t = u.commit res ∧
        ∀ out r, res = .ok (out, r) → out.length ≤ s.inst.obufSize := by
    intro prep op hp hr
    rcases runCommand_next hr with rfl | ⟨input, _, rfl⟩
    · exact ⟨s, .error .badLen, .inl rfl, rfl, fun out r h => by cases h⟩
    · exact ⟨prep s, _, hp, rfl, fun out r h => (checkOutput_eq_ok_iff.1 h).2⟩
  cases i with
  | build =>
    cases h
    exact ⟨ensureTree s, .ok ([], 0), .inr rfl, rfl, fun out r h => by cases h; exact Nat.zero_le _⟩
  | decode => exact key ensureTree opDecode (.inr rfl) h
  | unpack => exact key ensureTree opUnpack (.inr rfl) h
  | tobits => exact key id opTobits (.inl rfl) h
  | chunk => exact key id opChunk (.inl rfl) h
  | join => exact key id opJoin (.inl rfl) h
  | tohex => exact key id opTohex (.inl rfl) h
  | fromhex => exact key id opFromhex (.inl rfl) h
  | tokjoin => exact key id opTokjoin (.inl rfl) h
  | toksplit => exact key id opToksplit (.inl rfl) h
  | pack => exact key id opPack (.inl rfl) h

/-- No command is refused: it commits, or its input holds an undefined byte (60_exceptions R138). -/
theorem exec_not_refused (i : Instr) (s : State) (r : Refusal) : exec i s ≠ .refused r := by
  have key : ∀ (prep : State → State) (op : State → List Byte → CommandResult), runCommand prep op s ≠ .refused r := by
    intro prep op
    unfold runCommand
    split
    · nofun
    · split <;> nofun
  cases i with
  | build => nofun
  | _ => exact key _ _

/-- A register read leaves the state, or counts one unspecified value read (20_memory R66, 70_reset_and_hazards R152). -/
theorem readReg_state (r : Reg) (s : State) : (readReg r s).2 = s ∨ (s.busy = true ∧ (readReg r s).2 = s.drawn) := by
  unfold readReg
  split
  · next h =>
    rw [Bool.and_eq_true] at h
    exact .inr ⟨h.1, rfl⟩
  · exact .inl rfl

/-- Everything a host read can do to the state: nothing, or count one unspecified value read while busy. -/
theorem readOffset_next {width off : Nat} {v : Word} (h : readOffset width off s = .next (v, t)) :
    t = s ∨ (s.busy = true ∧ t = s.drawn) := by
  unfold readOffset at h
  split at h
  · split at h
    · next o _ _ =>
      have := readReg_state (regAt o) s
      simp only [Host.Outcome.next.injEq] at h
      rwa [h] at this
    · cases h
  · split at h
    · unfold readIbuf at h
      split at h
      · cases h
        exact .inl rfl
      · cases h
    · cases h
  · split at h
    · unfold readObuf at h
      split at h
      · next hb =>
        cases h
        exact .inr ⟨hb, rfl⟩
      · split at h
        · cases h
          exact .inl rfl
        · cases h
    · cases h
  · cases h
    exact .inl rfl

/-- The same for a read at a host address. -/
theorem busRead_next {width addr : Nat} {v : Word} (h : busRead width addr s = .next (v, t)) :
    t = s ∨ (s.busy = true ∧ t = s.drawn) := by
  unfold busRead at h
  split at h
  · exact readOffset_next h
  · cases h

/-- Everything a host write can do (10_state R24 to R40, 20_memory R58, R60): nothing, or one named update, the locked
ones only while idle. -/
inductive WriteEffect (s : State) : State → Prop where
  | ignored : WriteEffect s s
  | ctrl (v : Word) : WriteEffect s (s.setCtrl v)
  | cfg (v : Word) (idle : s.busy = false) : WriteEffect s (s.setCfg v)
  | cmd (v : Word) (idle : s.busy = false) : WriteEffect s (s.start v)
  | ack : WriteEffect s s.ackDone
  | ilen (v : Word) (idle : s.busy = false) : WriteEffect s (s.setIlen v)
  | nodeSel (v : Word) : WriteEffect s (s.setNodeSel v)
  | tblSel (v : Word) : WriteEffect s (s.setTblSel v)
  | ibuf (i : Nat) (b : Byte) (idle : s.busy = false) (inside : i < s.inst.ibufSize) : WriteEffect s (s.writeIbuf i b)

theorem writeReg_effect (r : Reg) (v : Word) (s : State) : WriteEffect s (writeReg r v s) := by
  cases r <;> simp only [writeReg] <;>
    first
      | exact .ignored
      | exact .ctrl v
      | exact .nodeSel v
      | exact .tblSel v
      | (split
         · exact .ignored
         · next h => first
             | exact .cfg v (by simpa using h)
             | exact .cmd v (by simpa using h)
             | exact .ilen v (by simpa using h))
      | (split
         · exact .ack
         · exact .ignored)

theorem regionOf_ibuf {p : Instance} {off i : Nat} (h : regionOf p off = .ibuf i) : i < p.ibufSize := by
  unfold regionOf at h
  split at h
  · simp at h
  · split at h
    · simp at h
    · split at h
      · split at h
        · next hi =>
          rw [Region.ibuf.injEq] at h
          exact h ▸ hi
        · simp at h
      · split at h
        · split at h <;> simp at h
        · simp at h

theorem writeOffset_next {width off : Nat} {v : Word} (h : writeOffset width off v s = .next t) : WriteEffect s t := by
  unfold writeOffset at h
  split at h
  · split at h
    · cases h
      exact writeReg_effect _ v s
    · cases h
  · next i hr =>
    split at h
    · cases h
      unfold writeIbufByte
      split
      · exact .ignored
      · next hb => exact .ibuf i _ (by simpa using hb) (regionOf_ibuf hr)
    · cases h
  · split at h
    · cases h
      exact .ignored
    · cases h
  · cases h
    exact .ignored

theorem busWrite_next {width addr : Nat} {v : Word} (h : busWrite width addr v s = .next t) : WriteEffect s t := by
  unfold busWrite at h
  split at h
  · exact writeOffset_next h
  · cases h

/-- Everything a turn of a host agent can do: one bus access or none, and a change of the host agents. -/
inductive HostEffect (s : State) : State → Prop where
  | still : HostEffect s s
  | internal (hs : List HostAgent) : HostEffect s (s.setHosts hs)
  | wrote {u : State} (w : WriteEffect s u) (hs : List HostAgent) : HostEffect s (u.setHosts hs)
  | read (hs : List HostAgent) : HostEffect s (s.setHosts hs)
  | drew (busy : s.busy = true) (hs : List HostAgent) : HostEffect s (s.drawn.setHosts hs)

theorem HostEffect.of_read {u : State} (h : u = s ∨ (s.busy = true ∧ u = s.drawn)) (hs : List HostAgent) :
    HostEffect s (u.setHosts hs) := by
  rcases h with rfl | ⟨hb, rfl⟩
  · exact .read hs
  · exact .drew hb hs

theorem runStmt_next {k : Nat} {vars : List ((Nat × Nat) × Nat)} {st : HostStmt} {rest : List HostStmt}
    (h : runStmt k vars st rest s = .next t) : HostEffect s t := by
  unfold runStmt at h
  split at h
  · split at h
    · split at h
      · next hw =>
        cases h
        exact .wrote (busWrite_next hw) _
      · cases h
      · cases h
    · cases h
  · split at h
    · split at h
      · next hr =>
        cases h
        exact .of_read (busRead_next hr) _
      · cases h
      · cases h
    · cases h
  · split at h
    · split at h
      · next hr =>
        split at h <;> cases h <;> exact .of_read (busRead_next hr) _
      · cases h
      · cases h
    · cases h
  · split at h
    · split at h <;> cases h <;> exact .internal _
    · cases h
  · cases h
    exact .internal _
  · split at h
    · cases h
      exact .internal _
    · cases h

theorem hostStep_next {k : Nat} (h : hostStep k s = .next t) : HostEffect s t := by
  unfold hostStep at h
  split at h
  · cases h
    exact .still
  · split at h
    · cases h
      exact .still
    · exact runStmt_next h

/-- A step is a turn of a block whose parameters are valid. -/
theorem step_next (h : step s = .next t) :
    validInstance s.inst = true ∧ runTurn s.nextTurn s.dropTurn = .next t := by
  unfold step at h
  split at h
  · next hv => exact ⟨hv, h⟩
  · cases h

theorem step_of_valid (h : validInstance s.inst = true) : step s = runTurn s.nextTurn s.dropTurn := by
  simp [step, h]

/-- Everything a step can do: the turn taken off the schedule, then a command's commit, BAD_CMD, a host's turn, a reset,
or nothing. -/
inductive StepEffect (s : State) : State → Prop where
  | passed : StepEffect s s
  | command (i : Instr) (busy : s.busy = true) (word : decode s.latchedCmd = .ok i) {t : State}
      (run : exec i s = .next t) : StepEffect s t
  | badCmd (busy : s.busy = true) (e : Reserved) (word : decode s.latchedCmd = .error e) :
      StepEffect s (s.commitErr .badCmd)
  | host {t : State} (eff : HostEffect s t) : StepEffect s t
  | reset : StepEffect s s.resetBlock

theorem runTurn_next {m : Turn} (h : runTurn m s = .next t) : StepEffect s t := by
  cases m with
  | engine =>
    simp only [runTurn] at h
    split at h
    · next hb =>
      unfold engineStep at h
      split at h
      · next e he =>
        cases h
        exact .badCmd hb e he
      · next i hi => exact .command i hb hi h
    · cases h
      exact .passed
  | host k => exact .host (hostStep_next h)
  | reset =>
    cases h
    exact .reset

theorem step_effect (h : step s = .next t) : validInstance s.inst = true ∧ StepEffect s.dropTurn t :=
  ⟨(step_next h).1, runTurn_next (step_next h).2⟩

end Sys2Proof.Machine
end

