-- ==== Sys2Proof/Laws/Tree.lean ====
section
/-! SUPPORT. The decoding tree: the walk as a relation, the size of the node RAM under Build, and what EnsureTree leaves. -/

namespace Sys2Proof.Machine

/-- The walk answers a text and a residue exactly when the relation of 44_decoding_tree R125 has them. -/
theorem walk_eq_ok_iff {nodes : List Node} {n r r' : Nat} {bits : Bits} {out : List Byte} :
    walk nodes n r bits = .ok (out, r') ↔ Walks nodes n r bits out r' := by
  constructor
  · intro h
    induction bits generalizing n r out with
    | nil =>
      cases h
      exact .finished _ _
    | cons b bs ih =>
      simp only [walk] at h
      split at h
      · cases h
      · next hm =>
        split at h
        · next hv =>
          split at h
          · next hw =>
            cases h
            exact .emits hm hv (ih hw)
          · cases h
        · next hv => exact .moves hm (by simpa using hv) (ih h)
  · intro h
    induction h with
    | finished n r => rfl
    | moves child plain _ ih => simp [walk, child, plain, ih]
    | emits child valued _ ih => simp [walk, child, valued, ih]

/-- The only error of the walk is NO_PATH (44_decoding_tree R125). -/
theorem walk_error {nodes : List Node} {n r : Nat} {bits : Bits} {c : ErrorKind} (h : walk nodes n r bits = .error c) :
    c = .noPath := by
  induction bits generalizing n r with
  | nil => cases h
  | cons b bs ih =>
    simp only [walk] at h
    split at h
    · cases h
      rfl
    · split at h
      · split at h
        · cases h
        · next hw =>
          cases h
          exact ih hw
      · exact ih h

@[simp] theorem addChild_length (t : Tree) (n : Nat) (b : Bool) : (addChild t n b).nodes.length = t.nodes.length := by
  simp [addChild]

@[simp] theorem storeChar_length (t : Tree) (n : Nat) (c : Byte) : (storeChar t n c).nodes.length = t.nodes.length := by
  simp [storeChar]

@[simp] theorem insertPath_length (t : Tree) (n : Nat) (bs : Bits) :
    (insertPath t n bs).1.nodes.length = t.nodes.length := by
  induction bs generalizing t n with
  | nil => rfl
  | cons b bs ih =>
    simp only [insertPath]
    split <;> simp [ih]

@[simp] theorem insertEntry_length (t : Tree) (e : Entry) : (insertEntry t e).nodes.length = t.nodes.length := by
  simp [insertEntry]

/-- Build keeps the size of the node RAM (10_state R47). -/
@[simp] theorem buildTree_length (table : List Entry) (ram : List Node) :
    (buildTree table ram).nodes.length = ram.length := by
  have key : ∀ (es : List Entry) (t : Tree), (es.foldl insertEntry t).nodes.length = t.nodes.length := by
    intro es
    induction es with
    | nil => exact fun t => rfl
    | cons e es ih =>
      intro t
      rw [List.foldl_cons, ih, insertEntry_length]
  simp [buildTree, key]

/-- What EnsureTree leaves of the tree: what was there, or what Build makes (44_decoding_tree R123). -/
theorem ensureTree_cases (s : State) :
    (s.treeValid = true ∧ ensureTree s = s) ∨
    (s.treeValid = false ∧ (ensureTree s).nodes = (buildTree s.inst.codeTable s.nodes).nodes ∧
      (ensureTree s).nodeCount = BitVec.ofNat 32 (buildTree s.inst.codeTable s.nodes).count) := by
  cases h : s.treeValid with
  | true => exact .inl ⟨rfl, ensureTree_of_valid h⟩
  | false => exact .inr ⟨rfl, by rw [ensureTree_of_invalid h]; exact ⟨rfl, rfl⟩⟩

end Sys2Proof.Machine
end

