-- ==== Sys2Proof/Tests/Slice0.lean ====
section
/-! SUPPORT. Tests of the model on fixed values, each with its source in spec/, and the witnesses that the hypotheses of
the statements can be met. -/

namespace Sys2Proof.Tests

set_option Elab.async false

open Sys2Proof.Machine

/-- The state after reset with an input loaded and CFG set to a width. -/
def loaded (w : Nat) (bytes : List Byte) : State :=
  { State.reset with
    ibuf := Memory.ofBytes 0 bytes, ilen := BitVec.ofNat 32 bytes.length, widthM1 := BitVec.ofNat 3 (w - 1) }

/-- The same on a busy block that has latched a command word, the engine to move. -/
def started (v : Word) (s : State) : State := (s.start v).engineFirst

/-- Whether an outcome is a next state with a property. -/
def after (o : Host.Outcome State Fault Refusal) (p : State → Bool) : Bool :=
  match o with
  | .next t => p t
  | _ => false

/-- Whether an outcome is a given fault. -/
def faults (o : Host.Outcome State Fault Refusal) (f : Fault) : Bool :=
  match o with
  | .fault g => f == g
  | _ => false

/-- The defined bytes of OBUF, in order. -/
def outOf (t : State) : List Byte := t.obuf.map (fun c => c.2)

/-- A success with an output and a residue, as a test on a state. -/
def succeeded (out : List Byte) (resid : Nat) (t : State) : Bool :=
  outOf t == out && t.olen.toNat == out.length && t.resid.toNat == resid && t.errcode == 0 && t.done && !t.busy

/-- A failure with an error number, as a test on a state. -/
def failed (code : Nat) (t : State) : Bool :=
  outOf t == [] && t.olen == 0 && t.resid == 0 && t.errcode.toNat == code && t.done && !t.busy

/-! ## Well-formedness: an ill-formed term for each check (00_scope R8, R9, 30_encoding R85) -/

theorem test_wf_default : defaultInstance.wf = true := by decide +kernel
theorem test_wf_no_entry : ({ defaultInstance with codeTable := [] } : Instance).wf = false := by decide +kernel
theorem test_wf_257_entries :
    ({ defaultInstance with codeTable := List.replicate 257 (entry 0x61 [1]) } : Instance).wf = false := by decide +kernel
theorem test_wf_code_len_0 : ({ defaultInstance with maxCodeLen := 0 } : Instance).wf = false := by decide +kernel
theorem test_wf_code_len_33 : ({ defaultInstance with maxCodeLen := 33 } : Instance).wf = false := by decide +kernel
theorem test_wf_node_cap_1 :
    ({ defaultInstance with codeTable := [], nodeCap := 1 } : Instance).wf = false := by decide +kernel
theorem test_wf_node_cap_257 : ({ defaultInstance with nodeCap := 257 } : Instance).wf = false := by decide +kernel
theorem test_wf_ibuf_0 : ({ defaultInstance with ibufSize := 0 } : Instance).wf = false := by decide +kernel
theorem test_wf_ibuf_65537 : ({ defaultInstance with ibufSize := 65537 } : Instance).wf = false := by decide +kernel
theorem test_wf_obuf_0 : ({ defaultInstance with obufSize := 0 } : Instance).wf = false := by decide +kernel
theorem test_wf_obuf_65537 : ({ defaultInstance with obufSize := 65537 } : Instance).wf = false := by decide +kernel
theorem test_wf_base_unaligned : ({ defaultInstance with blockBase := 0x20000 } : Instance).wf = false := by
  decide +kernel
theorem test_wf_empty_code : ({ defaultInstance with codeTable := [entry 0x61 []] } : Instance).wf = false := by
  decide +kernel
theorem test_wf_code_too_long : ({ defaultInstance with maxCodeLen := 11 } : Instance).wf = false := by decide +kernel
theorem test_wf_nodes_do_not_fit : ({ defaultInstance with nodeCap := 54 } : Instance).wf = false := by decide +kernel
theorem test_wf_nodes_just_fit : ({ defaultInstance with nodeCap := 55 } : Instance).wf = true := by decide +kernel
theorem test_wf_write_width : (HostStmt.wr 16 (.lit 0) (.lit 0)).wf = false := by decide
theorem test_wf_read_width : (HostStmt.rd 64 (.lit 0) 0 (.lit 0)).wf = false := by decide
theorem test_wf_poll_mask : (HostStmt.poll (.lit 0) 0x100000000 0).wf = false := by decide
theorem test_wf_poll_value : (HostStmt.poll (.lit 0) 0 0x100000000).wf = false := by decide
theorem test_wf_for_body : (HostStmt.forIn 0 (.lit 0) (.lit 1) (.wr 16 (.lit 0) (.lit 0))).wf = false := by decide
theorem test_wf_group : (HostStmt.seq (wr32 0 0) (.wr 16 (.lit 0) (.lit 0))).wf = false := by decide
theorem test_wf_copyout : (copyoutStmts 0 1 2).all HostStmt.wf = true := by decide

/-! ## Decoding: each command's word written out bit by bit, OP in bits 3 to 0 (30_encoding R75, R76) -/

theorem test_decode_build : decode 0b00000000000000000000000000000001 = .ok .build := by decide
theorem test_decode_tobits : decode 0b00000000000000000000000000000010 = .ok .tobits := by decide
theorem test_decode_chunk : decode 0b00000000000000000000000000000011 = .ok .chunk := by decide
theorem test_decode_join : decode 0b00000000000000000000000000000100 = .ok .join := by decide
theorem test_decode_tohex : decode 0b00000000000000000000000000000101 = .ok .tohex := by decide
theorem test_decode_fromhex : decode 0b00000000000000000000000000000110 = .ok .fromhex := by decide
theorem test_decode_tokjoin : decode 0b00000000000000000000000000000111 = .ok .tokjoin := by decide
theorem test_decode_toksplit : decode 0b00000000000000000000000000001000 = .ok .toksplit := by decide
theorem test_decode_decode : decode 0b00000000000000000000000000001001 = .ok .decode := by decide
theorem test_decode_pack : decode 0b00000000000000000000000000001010 = .ok .pack := by decide
theorem test_decode_unpack : decode 0b00000000000000000000000000001011 = .ok .unpack := by decide
/-- Vectors of 95_test_vectors 2.9: 0x12 and 0x1A are OPs with an MBZ bit set. -/
theorem test_decode_mbz : decode 0x00000012 = .error .mbzSet ∧ decode 0x0000001A = .error .mbzSet := by decide
theorem test_decode_reserved_op : decode 0x0000000C = .error (.reservedOp 12) := by decide
theorem test_decode_table_word : decodeTableWord 32 0xA = some .pack ∧ decodeTableWord 32 0 = none := by decide

/-! ## The code table and its tree (95_test_vectors 2.6) -/

/-- NODE_DATA of all 55 nodes, as 95_test_vectors 2.6 lists them. -/
theorem test_default_tree :
    ((freshTree defaultInstance).nodes.take 55).map nodeWord =
      [0x00000103, 0x00000214, 0x01200000, 0x00000904, 0x0000050B, 0x00001A06, 0x00001307, 0x00002408, 0x01210000,
        0x00000A1B, 0x01610000, 0x0000100C, 0x0000170D, 0x00000E1E, 0x0000330F, 0x01620000, 0x00003111, 0x00001216,
        0x01630000, 0x01640000, 0x00001526, 0x01650000, 0x01660000, 0x00002518, 0x00002A19, 0x01670000, 0x01680000] ++
      [0x00002F1C, 0x00001D2E, 0x01690000, 0x0000351F, 0x00003220, 0x00002122, 0x016A0000, 0x0000232B, 0x016B0000,
        0x016C0000, 0x016D0000, 0x00003027, 0x00002928, 0x016E0000, 0x016F0000, 0x01700000, 0x0000342C, 0x00002D36,
        0x01710000, 0x01720000, 0x01730000, 0x01740000, 0x01750000, 0x01760000, 0x01770000, 0x01780000, 0x01790000,
        0x017A0000] := by decide +kernel

/-- TBL_DATA and TBL_CODE of entries 0, 18 and 27, and past the table (95_test_vectors 2.6). -/
theorem test_table_view :
    ([0, 18, 27, 28].map (fun j => ({ State.reset with tblSel := j } : State).tblDataWord)) = [0x220, 0xC71, 0xC7A, 0] ∧
    ([0, 16, 18, 28].map (fun j => ({ State.reset with tblSel := j } : State).tblCodeWord)) = [0x3, 0x11, 0x1, 0] := by
  decide +kernel

/-! ## The commands: at most two vectors of 95_test_vectors each -/

/-- BUILD from reset: TREE_VALID, NODE_COUNT 55, STATUS 0x0A; it does not check ILEN (2.6). -/
theorem test_build :
    after (exec .build { State.reset with ilen := 70000 })
      (fun t => succeeded [] 0 t && t.nodeCount == 55 && t.statusWord == 0x0000000A) = true := by decide +kernel
/-- "ab" gives "0110000010" (2.1). -/
theorem test_tobits :
    after (exec .tobits (loaded 8 [0x61, 0x62]))
      (succeeded [0x30, 0x31, 0x31, 0x30, 0x30, 0x30, 0x30, 0x30, 0x31, 0x30] 0) = true := by decide +kernel
/-- "a1" is UNKNOWN_CHARACTER, with no partial output (2.1). -/
theorem test_tobits_unknown : after (exec .tobits (loaded 8 [0x61, 0x31])) (failed 1) = true := by decide +kernel
/-- "10110" with W = 3 gives "101100" (2.2). -/
theorem test_chunk :
    after (exec .chunk (loaded 3 [0x31, 0x30, 0x31, 0x31, 0x30])) (succeeded [0x31, 0x30, 0x31, 0x31, 0x30, 0x30] 0) =
      true := by decide +kernel
/-- "012" is MALFORMED_BITS (2.2). -/
theorem test_chunk_malformed : after (exec .chunk (loaded 8 [0x30, 0x31, 0x32])) (failed 4) = true := by decide +kernel
/-- "101" with W = 3 comes out unchanged (2.3). -/
theorem test_join : after (exec .join (loaded 3 [0x31, 0x30, 0x31])) (succeeded [0x31, 0x30, 0x31] 0) = true := by
  decide +kernel
/-- Seven bytes with W = 8 are MALFORMED_CHUNK (2.3). -/
theorem test_join_short :
    after (exec .join (loaded 8 [0x31, 0x30, 0x31, 0x30, 0x30, 0x30, 0x30])) (failed 3) = true := by decide +kernel
/-- "101011" with W = 3 gives ["05","03"] (2.4). -/
theorem test_tohex :
    after (exec .tohex (loaded 3 [0x31, 0x30, 0x31, 0x30, 0x31, 0x31]))
      (succeeded [0x00, 0x02, 0x30, 0x35, 0x00, 0x02, 0x30, 0x33] 0) = true := by decide +kernel
/-- "1111111x" is MALFORMED_CHUNK (2.4). -/
theorem test_tohex_malformed :
    after (exec .tohex (loaded 8 [0x31, 0x31, 0x31, 0x31, 0x31, 0x31, 0x31, 0x78])) (failed 3) = true := by decide +kernel
/-- ["2F"] gives "00101111" (W6). -/
theorem test_fromhex :
    after (exec .fromhex (loaded 8 [0x00, 0x02, 0x32, 0x46]))
      (succeeded [0x30, 0x30, 0x31, 0x30, 0x31, 0x31, 0x31, 0x31] 0) = true := by decide +kernel
/-- 00 02 32 47 00 05 is MALFORMED_LIST, not MALFORMED_TOKEN (2.4). -/
theorem test_fromhex_list_first :
    after (exec .fromhex (loaded 8 [0x00, 0x02, 0x32, 0x47, 0x00, 0x05])) (failed 5) = true := by decide +kernel
/-- ["a b","c"] gives "a b c" (2.5). -/
theorem test_tokjoin :
    after (exec .tokjoin (loaded 8 [0x00, 0x03, 0x61, 0x20, 0x62, 0x00, 0x01, 0x63]))
      (succeeded [0x61, 0x20, 0x62, 0x20, 0x63] 0) = true := by decide +kernel
/-- ["",""] gives " " (2.5). -/
theorem test_tokjoin_empty_tokens :
    after (exec .tokjoin (loaded 8 [0x00, 0x00, 0x00, 0x00])) (succeeded [0x20] 0) = true := by decide +kernel
/-- "20  30" gives ["20","","30"] (2.5). -/
theorem test_toksplit :
    after (exec .toksplit (loaded 8 [0x32, 0x30, 0x20, 0x20, 0x33, 0x30]))
      (succeeded [0x00, 0x02, 0x32, 0x30, 0x00, 0x00, 0x00, 0x02, 0x33, 0x30] 0) = true := by decide +kernel
/-- "" gives [""] (W9). -/
theorem test_toksplit_empty : after (exec .toksplit (loaded 8 [])) (succeeded [0x00, 0x00] 0) = true := by decide +kernel
/-- "01101" gives "a", RESID 2, and builds the tree (2.7). -/
theorem test_decode_walk :
    after (exec .decode (loaded 8 [0x30, 0x31, 0x31, 0x30, 0x31]))
      (fun t => succeeded [0x61] 2 t && t.treeValid && t.nodeCount == 55) = true := by decide +kernel
/-- With the table [('a', "0"), ('b', "10")], "11" is NO_PATH (2.7). -/
theorem test_decode_no_path :
    after (exec .decode { loaded 8 [0x31, 0x31] with
      inst := { defaultInstance with codeTable := [entry 0x61 [0], entry 0x62 [1, 0]] } })
      (fun t => failed 6 t && t.treeValid) = true := by decide +kernel
/-- PACK of "!my name is !ted" gives the wire text of W10, in a state whose CFG holds W = 1. -/
theorem test_pack :
    after (exec .pack (loaded 1 [0x21, 0x6D, 0x79, 0x20, 0x6E, 0x61, 0x6D, 0x65, 0x20, 0x69, 0x73, 0x20, 0x21, 0x74, 0x65,
      0x64]))
      (succeeded [0x32, 0x30, 0x20, 0x33, 0x30, 0x20, 0x33, 0x43, 0x20, 0x31, 0x38, 0x20, 0x37, 0x37, 0x20, 0x34, 0x41,
        0x20, 0x45, 0x34, 0x20, 0x34, 0x44, 0x20, 0x32, 0x38] 0) = true := by decide +kernel
/-- PACK of "My" is UNKNOWN_CHARACTER (2.8). -/
theorem test_pack_uppercase : after (exec .pack (loaded 8 [0x4D, 0x79])) (failed 1) = true := by decide +kernel
/-- UNPACK of "20 30 3C 18" gives "!my na", RESID 3 (W14). -/
theorem test_unpack :
    after (exec .unpack (loaded 8 [0x32, 0x30, 0x20, 0x33, 0x30, 0x20, 0x33, 0x43, 0x20, 0x31, 0x38]))
      (succeeded [0x21, 0x6D, 0x79, 0x20, 0x6E, 0x61] 3) = true := by decide +kernel
/-- UNPACK of "" is MALFORMED_TOKEN, and the tree is built all the same (2.8). -/
theorem test_unpack_empty :
    after (exec .unpack (loaded 8 [])) (fun t => failed 2 t && t.treeValid) = true := by decide +kernel

/-! ## Steps, host accesses, reset (95_test_vectors 2.9) -/

/-- A step on a started block runs the latched command: PACK of "e" gives "A0". -/
theorem test_step_runs_command :
    after (step (started 0xA (loaded 8 [0x65]))) (succeeded [0x41, 0x30] 0) = true := by decide +kernel
/-- CMD 0x1A completes with BAD_CMD, STATUS 0x906 after it; ILEN and IBUF do not matter. -/
theorem test_step_bad_cmd :
    after (step (started 0x1A { State.reset with ilen := 70000 })) (fun t => failed 9 t && t.statusWord == 0x906) = true := by
  decide +kernel
/-- TOBITS with ILEN = 65537 is BAD_LEN before any byte is read. -/
theorem test_bad_len :
    after (exec .tobits { State.reset with ilen := 65537 }) (failed 8) = true := by decide +kernel
/-- TOBITS with ILEN = 3 after two bytes were written faults UndefinedRead. -/
theorem test_undefined_read :
    faults (exec .tobits { loaded 8 [0x61, 0x62] with ilen := 3 }) .undefinedRead = true := by decide +kernel
/-- WR8 to 0x10, RD32 of 0x12 and WR32 to IBUF are bus errors. -/
theorem test_bus_errors :
    faults (busWrite 8 0x10 0 State.reset) .busError = true ∧ faults (busWrite 32 0x10000 0 State.reset) .busError = true ∧
    (match busRead 32 0x12 State.reset with | .fault f => f == .busError | _ => false) = true := by decide +kernel
/-- WR32 CFG = 0xFFFFFFFF is read back as 7; ID reads its constant. -/
theorem test_cfg_reads_back :
    after (busWrite 32 0x08 0xFFFFFFFF State.reset) (fun t => t.regWord .cfg == 7 && t.regWord .id == 0x564C4301) = true := by
  decide +kernel
/-- An access outside the window of a block at 0x40000 is refused. -/
theorem test_outside_window :
    (match busWrite 32 0x0 0 { State.reset with inst := { defaultInstance with blockBase := 0x40000 } } with
      | .refused r => r == .outsideWindow
      | _ => false) = true := by decide +kernel
/-- RD8 of OBUF[OLEN] after a success faults UndefinedRead; of OBUF[0] it reads the byte. -/
theorem test_obuf_reads :
    after (exec .pack (loaded 8 [0x65])) (fun t =>
      (match busRead 8 0x20002 t with | .fault f => f == .undefinedRead | _ => false) &&
      (match busRead 8 0x20000 t with | .next (v, _) => v == 0x41 | _ => false)) = true := by decide +kernel
/-- A reset of a busy block gives the reset state again. -/
theorem test_reset :
    after (step { started 0xA (loaded 8 [0x65]) with turns := [.reset] })
      (fun t => decide (t = State.reset)) = true := by decide +kernel
/-- An invalid instance is refused (60_exceptions R138). -/
theorem test_invalid_instance_refused :
    (match step (State.resetOf { defaultInstance with nodeCap := 54 }) with
      | .refused r => r == .invalidInstance
      | _ => false) = true := by decide +kernel
/-- A host program's WR8 writes IBUF, and the statement is used up (30_encoding R85). -/
theorem test_host_write :
    after (step { State.reset with hosts := [{ prog := [wr8 0x10000 0x65], vars := [] }] })
      (fun t => t.ibuf == [(0, 0x65)] && t.hosts == [{ prog := [], vars := [] }]) = true := by decide +kernel
/-- WAIT on a busy block keeps polling (30_encoding R85, R86). -/
theorem test_host_poll :
    after (step { started 0xA (loaded 8 [0x65]) with turns := [.host 0], hosts := [{ prog := [waitStmt], vars := [] }] })
      (fun t => t.hosts == [{ prog := [waitStmt], vars := [] }] && t.busy) = true := by decide +kernel
/-- A FOR assigns its variable and goes on with its body (30_encoding R85). -/
theorem test_host_for :
    after (hostStep 0 { State.reset with hosts := [{ prog := loadStmts 0 [0x65], vars := [] }] })
      (fun t => match t.hosts with
        | [h] => h.prog.length == 3 && h.vars == [((0, 0), 0)]
        | _ => false) = true := by decide +kernel
/-- The command words of CMD m are the opcodes (30_encoding R86). -/
theorem test_cmd_stmt : cmdStmt .pack = wr32 0x0C 0xA ∧ setwStmt 8 = wr32 0x08 7 ∧ ackStmt = wr32 0x10 2 := by decide
/-- prepare("My name is Ted") and restore of it (95_test_vectors 2.11). -/
theorem test_host_text :
    prepare [0x4D, 0x79, 0x20, 0x54] = [0x21, 0x6D, 0x79, 0x20, 0x21, 0x74] ∧
    restore [0x21, 0x6D, 0x79, 0x20, 0x21, 0x74] = [0x4D, 0x79, 0x20, 0x54] ∧
    restore [0x21, 0x21] = [0x21] ∧ restore (prepare [0x61, 0x21, 0x62]) = [0x61, 0x42] := by decide

/-! ## Witnesses: the hypotheses of each statement can be met, together -/

/-- What an outcome's test found is there. -/
theorem after_exists {o : Host.Outcome State Fault Refusal} {p : State → Bool} (h : after o p = true) :
    ∃ t, o = .next t ∧ p t = true := by
  cases o with
  | next t => exact ⟨t, rfl, h⟩
  | fault f => cases h
  | refused r => cases h

/-- An exact test of a success. -/
def committed (out : List Byte) (resid : Nat) (t : State) : Bool :=
  decide (t.errcode = 0 ∧ t.olen = BitVec.ofNat 32 out.length ∧ t.resid = BitVec.ofNat 32 resid ∧
    t.obuf = Memory.ofBytes 0 out ∧ t.done = true ∧ t.busy = false)

theorem exists_succeeds {o : Host.Outcome State Fault Refusal} {out : List Byte} {r : Nat}
    (h : after o (committed out r) = true) : ∃ t, o = .next t ∧ Succeeds t out r := by
  obtain ⟨t, ht, hc⟩ := after_exists h
  obtain ⟨h1, h2, h3, h4, h5, h6⟩ := of_decide_eq_true hc
  exact ⟨t, ht, h1, h2, h3, fun i => by rw [h4, Memory.read_ofBytes], h5, h6⟩

/-- A loaded input is the input of the state it was loaded into. -/
theorem loaded_hasInput (w : Nat) (bytes : List Byte) (h : bytes.length ≤ 65536) : HasInput (loaded w bytes) bytes := by
  refine ⟨?_, h, fun i _ => Memory.read_ofBytes bytes i⟩
  show (BitVec.ofNat 32 bytes.length).toNat = bytes.length
  rw [BitVec.toNat_ofNat]
  omega

theorem reset_treeOk : State.reset.TreeOk := ⟨by decide, fun _ => rfl, nofun⟩

theorem loaded_treeOk (w : Nat) (bytes : List Byte) : (loaded w bytes).TreeOk := ⟨by simp [loaded, State.reset, State.resetOf], fun _ => rfl, nofun⟩

theorem witness_StepRunsTheLatchedCommand :
    (validInstance (State.reset.start 0xA).inst = true ∧ (State.reset.start 0xA).busy = true ∧
      decode (State.reset.start 0xA).latchedCmd = .ok .pack ∧ (State.reset.start 0xA).turns = []) ∧
    (started 0xA State.reset).turns = .engine :: [] ∧ decode (started 0xA State.reset).latchedCmd = .ok .pack ∧
    ({ State.reset with turns := [.host 0] } : State).turns = .host 0 :: [] ∧ validInstance State.reset.inst = true := by
  decide +kernel

/-- The reserved words at the edges of their ranges; 1 and 11 are not reserved. -/
theorem witness_ReservedWordsCompleteWithBadCmd :
    (validInstance (started 0xC State.reset).inst = true ∧ (started 0xC State.reset).busy = true ∧
      (started 0xC State.reset).turns = .engine :: [] ∧ ReservedWord (started 0xC State.reset).latchedCmd) ∧
    ReservedWord 0x0 ∧ ReservedWord 0xF ∧ ReservedWord 0x10 ∧ ReservedWord 0xFFFFFFFF ∧
    ¬ ReservedWord 0x1 ∧ ¬ ReservedWord 0xB ∧ State.reset.busy = false := by
  refine ⟨⟨by decide +kernel, rfl, rfl, .inr (.inr (by decide))⟩, .inr (.inl rfl), .inr (.inr (by decide)), .inl (by decide),
    .inl (by decide), ?_, ?_, rfl⟩
  · rintro (h | h | h) <;> revert h <;> decide
  · rintro (h | h | h) <;> revert h <;> decide

theorem witness_OnlyEngineOrResetEndsACommand :
    ∃ t, step (started 0x1 State.reset) = .next t ∧ (started 0x1 State.reset).busy = true ∧ t.busy = false := by
  obtain ⟨t, ht, h⟩ := after_exists (o := step (started 0x1 State.reset)) (p := fun t => !t.busy) (by decide +kernel)
  exact ⟨t, ht, rfl, by simpa using h⟩

theorem witness_UsedUpScheduleLetsTheEngineFinish :
    ∃ t, (State.reset.start 0x1).busy = true ∧ (State.reset.start 0x1).turns = [] ∧ step (State.reset.start 0x1) = .next t := by
  obtain ⟨t, ht, _⟩ := after_exists (o := step (State.reset.start 0x1)) (p := fun _ => true) (by decide +kernel)
  exact ⟨t, rfl, rfl, ht⟩

theorem witness_IdleBlockKeepsItsState :
    validInstance State.reset.inst = true ∧ State.reset.busy = false ∧
    ({ State.reset with turns := [.engine] } : State).turns = .engine :: [] ∧
    ({ State.reset with turns := [.host 0], hosts := [{ prog := [], vars := [] }] } : State).turns = .host 0 :: [] ∧
    ∀ h ∈ ({ State.reset with hosts := [{ prog := [], vars := [] }] } : State).hosts, h.prog = [] := by decide +kernel

theorem witness_ResetGivesEveryPieceItsValue :
    validInstance ({ loaded 8 [0x65] with turns := [.reset] } : State).inst = true ∧
    ({ loaded 8 [0x65] with turns := [.reset] } : State).turns = .reset :: [] ∧
    defaultInstance.codeTable[0]? = some (entry 0x20 [1, 1]) ∧ ReservedOffset defaultInstance 0x100 := by
  unfold ReservedOffset
  decide +kernel

/-- Both sides of the bus error rule at the edges: the last register, the first and last byte of each buffer. -/
theorem witness_BusErrorsExactly :
    BadAccess defaultInstance 8 0xFC ∧ BadAccess defaultInstance 32 0xFE ∧ ¬ BadAccess defaultInstance 32 0xFC ∧
    ¬ BadAccess defaultInstance 8 0x100 ∧ BadAccess defaultInstance 32 0x10000 ∧ BadAccess defaultInstance 16 0x1FFFF ∧
    ¬ BadAccess defaultInstance 8 0x1FFFF ∧ BadAccess defaultInstance 32 0x20000 ∧ BadAccess defaultInstance 32 0x2FFFF ∧
    ¬ BadAccess defaultInstance 8 0x20000 ∧ ¬ BadAccess defaultInstance 32 0x30000 := by
  unfold BadAccess
  simp [defaultInstance]

/-- The reserved ranges at their edges; a buffer smaller than its region leaves the rest of it reserved. -/
theorem witness_ReservedOffsetsReadZeroAndIgnoreWrites :
    ReservedOffset defaultInstance 0x100 ∧ ReservedOffset defaultInstance 0xFFFF ∧ ¬ ReservedOffset defaultInstance 0xFF ∧
    ¬ ReservedOffset defaultInstance 0x10000 ∧ ReservedOffset { defaultInstance with ibufSize := 4 } 0x10004 ∧
    ReservedOffset { defaultInstance with obufSize := 4 } 0x20004 ∧ ¬ ReservedOffset defaultInstance 0x2FFFF ∧
    ReservedOffset defaultInstance 0x30000 ∧ ReservedOffset defaultInstance 0x3FFFF ∧ regAt 0x3C = .none ∧
    regAt 0xFC = .none := by
  unfold ReservedOffset
  simp [defaultInstance, regAt]

theorem witness_HostReadsHaveNoSideEffect :
    busRead 32 0x08 State.reset = .next (7, State.reset) ∧ State.reset.busy = false := ⟨rfl, rfl⟩

theorem witness_RegistersReadBackWhatTheyKeep : State.reset.busy = false := rfl

theorem witness_LockedWhileBusy : (started 0xA State.reset).busy = true ∧ 0xFFFF < (started 0xA State.reset).inst.ibufSize := by
  decide

theorem witness_CmdWriteStartsACommand : State.reset.busy = false ∧ (started 0xA State.reset).busy = true := by decide

/-- A defined and an undefined byte of IBUF, idle and busy. -/
theorem witness_IbufWritesAndReads :
    0xFFFF < (loaded 8 [0x65]).inst.ibufSize ∧ (loaded 8 [0x65]).busy = false ∧ (loaded 8 [0x65]).ibuf.read 0 = some 0x65 ∧
    (loaded 8 [0x65]).ibuf.read 0xFFFF = none ∧ (started 0xA (loaded 8 [0x65])).busy = true := by decide

/-- A defined and an undefined byte of OBUF, on an idle block. -/
theorem witness_ObufIsReadOnlyToTheHost :
    0xFFFF < (State.reset.commitOk [0x65] 0).inst.obufSize ∧ (State.reset.commitOk [0x65] 0).busy = false ∧
    (State.reset.commitOk [0x65] 0).obuf.read 0 = some 0x65 ∧ (State.reset.commitOk [0x65] 0).obuf.read 0xFFFF = none := by
  decide

theorem witness_ReadsWhileBusy : (started 0xA State.reset).busy = true ∧ (started 0xA State.reset).StatusOk ∧
    0xFFFF < (started 0xA State.reset).inst.obufSize := by
  refine ⟨rfl, ⟨fun _ => ⟨rfl, rfl⟩, by decide, fun h => absurd rfl h⟩, by decide⟩

/-- An idle state with a valid tree and the last node selected, and one with an index past the nodes. -/
theorem witness_NodeDataShowsTheSelectedNode :
    after (exec .build { State.reset with nodeSel := 54 })
      (fun t => !t.busy && t.treeValid && decide (t.nodeSel.toNat < t.nodeCount.toNat)) = true ∧
    after (exec .build { State.reset with nodeSel := 55 })
      (fun t => !t.busy && t.treeValid && !decide (t.nodeSel.toNat < t.nodeCount.toNat)) = true := by decide +kernel

/-- The last entry of the table and the first index past it. -/
theorem witness_TableRegistersShowTheSelectedEntry :
    validInstance State.reset.inst = true ∧
    ({ State.reset with tblSel := 27 } : State).inst.codeTable[(27#8).toNat]? =
      some (entry 0x7A [0, 0, 0, 0, 0, 0, 0, 0, 0, 0, 0, 0]) ∧
    ({ State.reset with tblSel := 28 } : State).inst.codeTable.length ≤ (28#8).toNat := by decide +kernel

theorem witness_InterruptFollowsEnableAndDone :
    (∃ t, exec .build { State.reset with ie := true } = .next t) ∧ State.reset.busy = false ∧
    (∃ t, busWrite 32 0x0C 1 State.reset = .next t) ∧ (∃ t, busWrite 32 0x10 2 State.reset = .next t) ∧
    (∃ t, busWrite 32 0x04 0 State.reset = .next t) := ⟨⟨_, rfl⟩, rfl, ⟨_, rfl⟩, ⟨_, rfl⟩, ⟨_, rfl⟩⟩

/-- One agent for each statement: WR, RD, POLL, FOR that goes round, FOR that is over, a group, a failure test that fails and
one that goes on; and a WR and an RD that are bus errors. -/
theorem witness_HostStatementsAreBusAccesses :
    (∀ a ∈ ([{ prog := [.wr 8 (.lit 0x10000) (.lit 0x65)], vars := [] }, { prog := [.rd 32 (.lit 0x08) 5 (.lit 0)], vars := [] },
        { prog := [.poll (.lit 0x10) 1 0], vars := [] }] : List HostAgent),
      after (hostStep 0 { State.reset with hosts := [a] }) (fun t => decide (t.hosts.map (fun h => h.prog) = [[]])) = true) ∧
    after (busWrite 8 (0 + 0x10000) 0x65 State.reset) (fun _ => true) = true ∧
    busRead 32 (0 + 0x08) State.reset = .next (7, State.reset) ∧ busRead 32 (0 + 0x10) State.reset = .next (0, State.reset) ∧
    faults (hostStep 0 { State.reset with hosts := [{ prog := [.wr 8 (.lit 0x10) (.lit 0)], vars := [] }] }) .busError = true ∧
    faults (hostStep 0 { State.reset with hosts := [{ prog := [.rd 8 (.lit 0x10) 0 (.lit 0)], vars := [] }] }) .busError = true ∧
    evalExpr [((0, 0), 2)] (.add (.lit 1) (hostVar 0)) = some 3 ∧ evalExpr [] (.lit 0) = some 0 ∧
    (∃ a : HostAgent, ({ State.reset with hosts := [a] } : State).hosts[0]? = some a ∧
      a.prog = .forIn 0 (.lit 2) (.lit 3) ackStmt :: []) ∧
    (∃ a : HostAgent, ({ State.reset with hosts := [a] } : State).hosts[0]? = some a ∧
      a.prog = .forIn 0 (.lit 3) (.lit 3) ackStmt :: []) ∧
    (∃ a : HostAgent, ({ State.reset with hosts := [a] } : State).hosts[0]? = some a ∧ a.prog = .seq ackStmt waitStmt :: []) ∧
    ∃ a : HostAgent, ({ State.reset with hosts := [a] } : State).hosts[0]? = some a ∧ a.prog = .failIf (.lit 4) :: [ackStmt] := by
  refine ⟨by decide +kernel, by decide +kernel, rfl, rfl, by decide +kernel, by decide +kernel, by decide, by decide,
    ⟨⟨_, []⟩, rfl, rfl⟩, ⟨⟨_, []⟩, rfl, rfl⟩, ⟨⟨_, []⟩, rfl, rfl⟩, ⟨_, []⟩, rfl, rfl⟩

/-- A command of each kind that answers a next state. -/
theorem witness_CommandsKeepEverythingElse :
    (∃ t, exec .pack (loaded 8 [0x65]) = .next t) ∧ (∃ t, exec .unpack (loaded 8 [0x46, 0x46]) = .next t) := by
  obtain ⟨t, ht, _⟩ := after_exists (o := exec .pack (loaded 8 [0x65])) (p := fun _ => true) (by decide +kernel)
  obtain ⟨u, hu, _⟩ := after_exists (o := exec .unpack (loaded 8 [0x46, 0x46])) (p := fun _ => true) (by decide +kernel)
  exact ⟨⟨t, ht⟩, ⟨u, hu⟩⟩

/-- A command that succeeds and one that fails, on a valid instance. -/
theorem witness_NoPartialResults :
    validInstance (loaded 8 [0x65]).inst = true ∧ after (exec .pack (loaded 8 [0x65])) (fun t => t.errcode == 0) = true ∧
    after (exec .pack (loaded 8 [0x45])) (fun t => t.errcode != 0) = true := by decide +kernel

/-- Every command answers a next state somewhere. -/
theorem witness_CommandsRaiseOnlyTheirErrors :
    ([.build, .tobits, .chunk, .join, .tohex, .fromhex, .tokjoin, .toksplit, .decode, .pack, .unpack] : List Instr).all
      (fun i => after (exec i State.reset) (fun _ => true)) = true := by decide +kernel

/-- ILEN one above IBUF_SIZE. -/
theorem witness_BadLenComesBeforeTheInput :
    ({ State.reset with ilen := 65537 } : State).inst.ibufSize < ({ State.reset with ilen := 65537 } : State).ilen.toNat := by
  decide

/-- ILEN at IBUF_SIZE and its last byte undefined. -/
theorem witness_UndefinedInputHasNoCommit :
    ({ State.reset with ilen := 65536 } : State).ilen.toNat ≤ ({ State.reset with ilen := 65536 } : State).inst.ibufSize ∧
    65535 < ({ State.reset with ilen := 65536 } : State).ilen.toNat ∧
    ({ State.reset with ilen := 65536 } : State).ibuf.read 65535 = none := by decide

/-- The small instance of these witnesses: an OBUF of 3 bytes. -/
def smallOut (s : State) : State := { s with inst := { defaultInstance with obufSize := 3 } }

theorem smallOut_hasInput {s : State} {bytes : List Byte} (h : HasInput s bytes) (hi : s.inst = defaultInstance) :
    HasInput (smallOut s) bytes := by
  obtain ⟨h1, h2, h3⟩ := h
  rw [hi] at h2
  exact ⟨h1, h2, h3⟩

/-- The OVERFLOW clauses of TOBITS, CHUNK, JOIN, TOHEX, FROMHEX and TOKJOIN: outputs of 6, 4, 4, 4, 8 and 4 bytes. -/
theorem witness_overflow_clauses :
    (HasInput (smallOut (loaded 8 [0x21])) [0x21] ∧
      List.Forall₂ (fun c k => lookup defaultTable c = some k) [0x21] [bitsOf [0, 0, 1, 0, 0, 0]] ∧
      3 < [bitsOf [0, 0, 1, 0, 0, 0]].flatten.length) ∧
    (HasInput (smallOut (loaded 2 [0x31, 0x31, 0x31])) ((bitsOf [1, 1, 1]).map bitByte) ∧
      (bitsOf [1, 1, 1]).length ≤ 2 * (loaded 2 [0x31]).width ∧
      2 * (loaded 2 [0x31]).width < (bitsOf [1, 1, 1]).length + (loaded 2 [0x31]).width ∧ 3 < 2 * (loaded 2 [0x31]).width) ∧
    (HasInput (smallOut (loaded 4 [0x31, 0x31, 0x31, 0x31])) ([bitsOf [1, 1, 1, 1]].flatten.map bitByte) ∧
      (∀ ch ∈ [bitsOf [1, 1, 1, 1]], ch.length = (loaded 4 [0x31]).width) ∧ 3 < [bitsOf [1, 1, 1, 1]].flatten.length) ∧
    (HasInput (smallOut (loaded 1 [0x31])) ([bitsOf [1]].flatten.map bitByte) ∧
      (∀ ch ∈ [bitsOf [1]], ch.length = (loaded 1 [0x31]).width) ∧ 3 < 4 * [bitsOf [1]].length) ∧
    (HasInput (smallOut (loaded 8 (tokensForm [hexToken 65]))) (tokensForm [hexToken 65]) ∧ 65 < 2 ^ (loaded 8 []).width ∧
      3 < (loaded 8 []).width * [65].length) ∧
    HasInput (smallOut (loaded 8 (tokensForm [[0x61, 0x61, 0x61, 0x61]]))) (tokensForm [[0x61, 0x61, 0x61, 0x61]]) ∧
    3 < ([sep].intercalate ([[0x61, 0x61, 0x61, 0x61]] : List Token)).length := by
  refine ⟨⟨smallOut_hasInput (loaded_hasInput 8 _ (by decide)) rfl, .cons rfl .nil, by decide⟩,
    ⟨smallOut_hasInput (loaded_hasInput 2 _ (by decide)) rfl, by decide, by decide, by decide⟩,
    ⟨smallOut_hasInput (loaded_hasInput 4 _ (by decide)) rfl, by decide, by decide⟩,
    ⟨smallOut_hasInput (loaded_hasInput 1 _ (by decide)) rfl, by decide, by decide⟩,
    ⟨smallOut_hasInput (loaded_hasInput 8 _ (by decide)) rfl, by decide, by decide⟩,
    smallOut_hasInput (loaded_hasInput 8 _ (by decide)) rfl, by decide⟩

theorem witness_TobitsConcatenatesTheCodes :
    (HasInput (loaded 8 [0x61, 0x62]) [0x61, 0x62] ∧
      List.Forall₂ (fun c k => lookup (loaded 8 [0x61, 0x62]).inst.codeTable c = some k) [0x61, 0x62]
        [bitsOf [0, 1, 1], bitsOf [0, 0, 0, 0, 0, 1, 0]] ∧
      [bitsOf [0, 1, 1], bitsOf [0, 0, 0, 0, 0, 1, 0]].flatten.length ≤ (loaded 8 [0x61, 0x62]).inst.obufSize) ∧
    HasInput (loaded 8 [0x41]) [0x41] ∧ lookup (loaded 8 [0x41]).inst.codeTable 0x41 = none :=
  ⟨⟨loaded_hasInput 8 _ (by decide), .cons rfl (.cons rfl .nil), by decide⟩, loaded_hasInput 8 _ (by decide), by decide⟩

/-- Five bits with W = 3 take two chunks; the byte '2' is no bit. -/
theorem witness_ChunkPadsWithZeros :
    (HasInput (loaded 3 ((bitsOf [1, 0, 1, 1, 0]).map bitByte)) ((bitsOf [1, 0, 1, 1, 0]).map bitByte) ∧
      (bitsOf [1, 0, 1, 1, 0]).length ≤ 2 * (loaded 3 []).width ∧
      2 * (loaded 3 []).width < (bitsOf [1, 0, 1, 1, 0]).length + (loaded 3 []).width ∧
      2 * (loaded 3 []).width ≤ (loaded 3 []).inst.obufSize) ∧
    HasInput (loaded 8 [0x32]) [0x32] ∧ (0x32 : Byte) ∈ [(0x32 : Byte)] ∧ (0x32 : Byte) ≠ 0x30 ∧ (0x32 : Byte) ≠ 0x31 :=
  ⟨⟨loaded_hasInput 3 _ (by decide), by decide, by decide, by decide⟩, loaded_hasInput 8 _ (by decide), by decide,
    by decide, by decide⟩

theorem witness_StreamingChunkGivesTheSameOutput : 1 ≤ 3 ∧ 3 ≤ 8 ∧ streamChunks 3 [] (bitsOf [1, 0, 1, 1, 0]) =
    bitsOf [1, 0, 1, 1, 0, 0] := by decide

/-- Two chunks of width 1, a byte that is no bit, and a length that is no multiple of W; the same states serve TOHEX. -/
theorem witness_JoinConcatenatesChunks :
    (HasInput (loaded 1 ([bitsOf [1], bitsOf [0]].flatten.map bitByte)) ([bitsOf [1], bitsOf [0]].flatten.map bitByte) ∧
      (∀ ch ∈ [bitsOf [1], bitsOf [0]], ch.length = (loaded 1 []).width) ∧
      [bitsOf [1], bitsOf [0]].flatten.length ≤ (loaded 1 []).inst.obufSize) ∧
    (HasInput (loaded 1 [0x32]) [0x32] ∧ ∃ c ∈ [(0x32 : Byte)], c ≠ 0x30 ∧ c ≠ 0x31) ∧
    HasInput (loaded 2 [0x31]) [0x31] ∧ [(0x31 : Byte)].length % (loaded 2 [0x31]).width ≠ 0 :=
  ⟨⟨loaded_hasInput 1 _ (by decide), by decide, by decide⟩, ⟨loaded_hasInput 1 _ (by decide), by decide⟩,
    loaded_hasInput 2 _ (by decide), by decide⟩

theorem witness_PackerLaws :
    (∃ t t', HasInput (loaded 8 ((bitsOf [1, 0, 1]).map bitByte)) ((bitsOf [1, 0, 1]).map bitByte) ∧
      exec .chunk (loaded 8 ((bitsOf [1, 0, 1]).map bitByte)) = .next t ∧
      Succeeds t ((bitsOf [1, 0, 1, 0, 0, 0, 0, 0]).map bitByte) 0 ∧
      HasInput (loaded 8 ((bitsOf [1, 0, 1, 0, 0, 0, 0, 0]).map bitByte)) ((bitsOf [1, 0, 1, 0, 0, 0, 0, 0]).map bitByte) ∧
      exec .join (loaded 8 ((bitsOf [1, 0, 1, 0, 0, 0, 0, 0]).map bitByte)) = .next t' ∧ t'.errcode ≠ errorCode .overflow) ∧
    (∃ t t', HasInput (loaded 3 ((bitsOf [1, 0, 1]).map bitByte)) ((bitsOf [1, 0, 1]).map bitByte) ∧
      exec .join (loaded 3 ((bitsOf [1, 0, 1]).map bitByte)) = .next t ∧ Succeeds t ((bitsOf [1, 0, 1]).map bitByte) 0 ∧
      exec .chunk (loaded 3 ((bitsOf [1, 0, 1]).map bitByte)) = .next t' ∧ t'.errcode ≠ errorCode .overflow) := by
  obtain ⟨t, ht, hs⟩ := exists_succeeds (o := exec .chunk (loaded 8 ((bitsOf [1, 0, 1]).map bitByte)))
    (out := (bitsOf [1, 0, 1, 0, 0, 0, 0, 0]).map bitByte) (r := 0) (by decide +kernel)
  obtain ⟨u, hu, hv⟩ := exists_succeeds (o := exec .join (loaded 8 ((bitsOf [1, 0, 1, 0, 0, 0, 0, 0]).map bitByte)))
    (out := (bitsOf [1, 0, 1, 0, 0, 0, 0, 0]).map bitByte) (r := 0) (by decide +kernel)
  obtain ⟨t2, ht2, hs2⟩ := exists_succeeds (o := exec .join (loaded 3 ((bitsOf [1, 0, 1]).map bitByte)))
    (out := (bitsOf [1, 0, 1]).map bitByte) (r := 0) (by decide +kernel)
  obtain ⟨u2, hu2, hv2⟩ := exists_succeeds (o := exec .chunk (loaded 3 ((bitsOf [1, 0, 1]).map bitByte)))
    (out := (bitsOf [1, 0, 1]).map bitByte) (r := 0) (by decide +kernel)
  exact ⟨⟨t, u, loaded_hasInput 8 _ (by decide), ht, hs, loaded_hasInput 8 _ (by decide), hu, by rw [hv.1]; decide⟩,
    ⟨t2, u2, loaded_hasInput 3 _ (by decide), ht2, hs2, hu2, by rw [hv2.1]; decide⟩⟩

theorem witness_HexDigitsAndChunkValues : 9 ≤ 9 ∧ 10 ≤ 10 ∧ 15 ≤ 15 ∧ 7 < 8 ∧ 255 < 2 ^ 8 := by decide

theorem witness_TohexRendersEachChunk :
    (HasInput (loaded 8 ([bitsOf [1, 1, 1, 1, 1, 1, 1, 1]].flatten.map bitByte))
        ([bitsOf [1, 1, 1, 1, 1, 1, 1, 1]].flatten.map bitByte) ∧
      (∀ ch ∈ [bitsOf [1, 1, 1, 1, 1, 1, 1, 1]], ch.length = (loaded 8 []).width) ∧
      4 * [bitsOf [1, 1, 1, 1, 1, 1, 1, 1]].length ≤ (loaded 8 []).inst.obufSize) ∧
    HasInput (loaded 8 [0x31]) [0x31] ∧ [(0x31 : Byte)].length % (loaded 8 [0x31]).width ≠ 0 :=
  ⟨⟨loaded_hasInput 8 _ (by decide), by decide, by decide⟩, loaded_hasInput 8 _ (by decide), by decide⟩

/-- Two tokens below 2^3 with W = 3; a token of one digit; the token "08", whose value is just too large for W = 3. -/
theorem witness_FromhexRendersEachToken :
    (HasInput (loaded 3 (tokensForm ([5, 7].map hexToken))) (tokensForm ([5, 7].map hexToken)) ∧
      (∀ v ∈ [5, 7], v < 2 ^ (loaded 3 []).width) ∧ (loaded 3 []).width * [5, 7].length ≤ (loaded 3 []).inst.obufSize) ∧
    (HasInput (loaded 8 (tokensForm [[0x32]])) (tokensForm [[0x32]]) ∧ (∀ u ∈ [[(0x32 : Byte)]], u.length ≤ 65535) ∧
      [(0x32 : Byte)] ∈ [[(0x32 : Byte)]] ∧ ¬ IsHexToken [0x32]) ∧
    HasInput (loaded 3 (tokensForm [hexToken 8])) (tokensForm [hexToken 8]) ∧ (∀ u ∈ [hexToken 8], u.length ≤ 65535) ∧
    ∃ v, v < 256 ∧ hexToken 8 = hexToken v ∧ 2 ^ (loaded 3 []).width ≤ v := by
  refine ⟨⟨loaded_hasInput 3 _ (by decide), by decide, by decide⟩, ⟨loaded_hasInput 8 _ (by decide), by decide, by decide, ?_⟩,
    loaded_hasInput 3 _ (by decide), by decide, 8, by decide, rfl, by decide⟩
  rintro ⟨v, _, h⟩
  exact absurd (congrArg List.length h) (by simp [hexToken])

/-- The MALFORMED_LIST clauses of FROMHEX and TOKJOIN: one byte is no TOKENS form. -/
theorem witness_malformed_list_clauses :
    HasInput (loaded 8 [0x00]) [0x00] ∧
    ∀ toks : List Token, (∀ u ∈ toks, u.length ≤ 65535) → ([0x00] : List Byte) ≠ tokensForm toks := by
  refine ⟨loaded_hasInput 8 _ (by decide), fun toks _ h => ?_⟩
  have := congrArg List.length h
  cases toks with
  | nil => simp [tokensForm] at this
  | cons t ts => simp [tokensForm] at this

theorem witness_TokjoinPutsSingleSeparators :
    HasInput (loaded 8 (tokensForm [[0x61], []])) (tokensForm [[0x61], []]) ∧
    (∀ u ∈ ([[0x61], []] : List Token), u.length ≤ 65535) ∧
    ([sep].intercalate ([[0x61], []] : List Token)).length ≤ (loaded 8 []).inst.obufSize :=
  ⟨loaded_hasInput 8 _ (by decide), by decide, by decide⟩

/-- Two tokens that fit, and the same where OBUF has 3 bytes. -/
theorem witness_ToksplitSplitsAtEverySeparator :
    ([[0x61], []] : List Token) ≠ [] ∧ (∀ u ∈ ([[0x61], []] : List Token), sep ∉ u) ∧
    HasInput (loaded 8 ([sep].intercalate [[0x61], []])) ([sep].intercalate [[0x61], []]) ∧
    (loaded 8 []).inst.obufSize ≤ 65536 ∧ (tokensForm [[0x61], []]).length ≤ (loaded 8 []).inst.obufSize ∧
    HasInput (smallOut (loaded 8 ([sep].intercalate [[0x61], []]))) ([sep].intercalate [[0x61], []]) ∧
    (smallOut (loaded 8 [])).inst.obufSize < (tokensForm [[0x61], []]).length :=
  ⟨by decide, by decide, loaded_hasInput 8 _ (by decide), by decide, by decide,
    smallOut_hasInput (loaded_hasInput 8 _ (by decide)) rfl, by decide⟩

theorem witness_HexCodecLaws :
    (∃ t t', HasInput (loaded 8 [0x61, 0x20]) [0x61, 0x20] ∧ exec .toksplit (loaded 8 [0x61, 0x20]) = .next t ∧
      Succeeds t (tokensForm [[0x61], []]) 0 ∧ HasInput (loaded 8 (tokensForm [[0x61], []])) (tokensForm [[0x61], []]) ∧
      exec .tokjoin (loaded 8 (tokensForm [[0x61], []])) = .next t' ∧ Succeeds t' [0x61, 0x20] 0) ∧
    (∃ t t', exec .tokjoin (loaded 8 []) = .next t ∧ Succeeds t [] 0 ∧ exec .toksplit (loaded 8 []) = .next t' ∧
      t'.errcode ≠ errorCode .overflow) ∧
    (∃ t t', exec .tohex (loaded 3 ((bitsOf [1, 0, 1]).map bitByte)) = .next t ∧
      Succeeds t (tokensForm ([5].map hexToken)) 0 ∧ exec .fromhex (loaded 3 (tokensForm ([5].map hexToken))) = .next t' ∧
      Succeeds t' ((bitsOf [1, 0, 1]).map bitByte) 0 ∧ ∀ v ∈ [5], v < 2 ^ (loaded 3 []).width) := by
  obtain ⟨t, ht, hs⟩ := exists_succeeds (o := exec .toksplit (loaded 8 [0x61, 0x20]))
    (out := tokensForm [[0x61], []]) (r := 0) (by decide +kernel)
  obtain ⟨u, hu, hv⟩ := exists_succeeds (o := exec .tokjoin (loaded 8 (tokensForm [[0x61], []])))
    (out := [0x61, 0x20]) (r := 0) (by decide +kernel)
  obtain ⟨t2, ht2, hs2⟩ := exists_succeeds (o := exec .tokjoin (loaded 8 [])) (out := []) (r := 0) (by decide +kernel)
  obtain ⟨u2, hu2, hv2⟩ := exists_succeeds (o := exec .toksplit (loaded 8 [])) (out := [0, 0]) (r := 0) (by decide +kernel)
  obtain ⟨t3, ht3, hs3⟩ := exists_succeeds (o := exec .tohex (loaded 3 ((bitsOf [1, 0, 1]).map bitByte)))
    (out := tokensForm ([5].map hexToken)) (r := 0) (by decide +kernel)
  obtain ⟨u3, hu3, hv3⟩ := exists_succeeds (o := exec .fromhex (loaded 3 (tokensForm ([5].map hexToken))))
    (out := (bitsOf [1, 0, 1]).map bitByte) (r := 0) (by decide +kernel)
  exact ⟨⟨t, u, loaded_hasInput 8 _ (by decide), ht, hs, loaded_hasInput 8 _ (by decide), hu, hv⟩,
    ⟨t2, u2, ht2, hs2, hu2, by rw [hv2.1]; decide⟩, ⟨t3, u3, ht3, hs3, hu3, hv3, by decide⟩⟩

theorem witness_BuildAllocatesOneNodePerPrefix :
    validInstance defaultInstance = true ∧ (List.replicate 64 Node.blank).length = defaultInstance.nodeCap := by
  decide +kernel

/-- The walk of "0110" emits 'a' and leaves one bit. -/
theorem witness_DecodeFollowsTheWalk :
    (HasInput (loaded 8 ((bitsOf [0, 1, 1, 0]).map bitByte)) ((bitsOf [0, 1, 1, 0]).map bitByte) ∧
      Walks (ensureTree (loaded 8 ((bitsOf [0, 1, 1, 0]).map bitByte))).nodes 0 0 (bitsOf [0, 1, 1, 0]) [0x61] 1) ∧
    HasInput (loaded 8 [0x32]) [0x32] ∧ (0x32 : Byte) ≠ 0x30 ∧ (0x32 : Byte) ≠ 0x31 :=
  ⟨⟨loaded_hasInput 8 _ (by decide), walk_eq_ok_iff.1 (by decide +kernel)⟩, loaded_hasInput 8 _ (by decide), by decide,
    by decide⟩

/-- The incomplete table of 95_test_vectors 2.7: the bits 11 have no walk. -/
theorem witness_DecodeFollowsTheWalk_noPath :
    ¬ ∃ out r, Walks (ensureTree { loaded 8 [0x31, 0x31] with
      inst := { defaultInstance with codeTable := [entry 0x61 [0], entry 0x62 [1, 0]] } }).nodes 0 0 (bitsOf [1, 1]) out r := by
  rintro ⟨out, r, h⟩
  have h1 := walk_eq_ok_iff.2 h
  have h2 : walk (ensureTree { loaded 8 [0x31, 0x31] with
      inst := { defaultInstance with codeTable := [entry 0x61 [0], entry 0x62 [1, 0]] } }).nodes 0 0 (bitsOf [1, 1]) =
      .error .noPath := by decide +kernel
  rw [h2] at h1
  cases h1

/-- No code of DEFAULT_TABLE is a prefix of another's. -/
theorem defaultTable_prefixFree : PrefixFree defaultTable := by
  have key : ∀ i j : Fin 28, i ≠ j → ¬ (defaultTable[i.val]).code <+: (defaultTable[j.val]).code := by decide +kernel
  intro i j e f hi hj hne hp
  obtain ⟨hi1, rfl⟩ := List.getElem?_eq_some_iff.1 hi
  obtain ⟨hj1, rfl⟩ := List.getElem?_eq_some_iff.1 hj
  exact key ⟨i, hi1⟩ ⟨j, hj1⟩ (fun h => hne (congrArg Fin.val h)) hp

theorem witness_DecodeInvertsTobits :
    validInstance (loaded 8 ((bitsOf [0, 1, 1, 0]).map bitByte)).inst = true ∧ PrefixFree defaultTable ∧
    (loaded 8 ((bitsOf [0, 1, 1, 0]).map bitByte)).TreeOk ∧
    List.Forall₂ (fun c k => lookup defaultTable c = some k) [0x61] [bitsOf [0, 1, 1]] ∧
    entry 0x61 [0, 1, 1] ∈ defaultTable ∧ (entry 0x61 [0, 1, 1]).code = bitsOf [0] ++ bitsOf [1, 1] ∧
    HasInput (loaded 8 ((bitsOf [0, 1, 1, 0]).map bitByte)) (([bitsOf [0, 1, 1]].flatten ++ bitsOf [0]).map bitByte) :=
  ⟨by decide +kernel, defaultTable_prefixFree, loaded_treeOk 8 _, .cons rfl .nil, by decide, rfl,
    loaded_hasInput 8 _ (by decide)⟩

theorem witness_DefaultTableHasNoAbsentPath :
    ∃ t, OfThisSpec (loaded 8 [0x46, 0x46]).inst ∧ (loaded 8 [0x46, 0x46]).TreeOk ∧
      exec .unpack (loaded 8 [0x46, 0x46]) = .next t := by
  obtain ⟨t, ht, _⟩ := after_exists (o := exec .unpack (loaded 8 [0x46, 0x46])) (p := fun _ => true) (by decide +kernel)
  exact ⟨t, ⟨rfl, rfl, rfl, rfl, rfl⟩, loaded_treeOk 8 _, ht⟩

/-- One char that fits, the same with an OBUF of 3 bytes and two chunks, the empty text, and an unknown byte. -/
theorem witness_PackMakesTheWireText :
    (HasInput (loaded 8 [0x65]) [0x65] ∧ List.Forall₂ (fun c k => lookup defaultTable c = some k) [0x65] [bitsOf [1, 0, 1]] ∧
      bitsOf [1, 0, 1, 0, 0, 0, 0, 0] = [bitsOf [1, 0, 1]].flatten ++ List.replicate 5 false ∧ 3 * 1 - 1 ≤ 65536) ∧
    (HasInput (smallOut (loaded 8 [0x7A])) [0x7A] ∧
      List.Forall₂ (fun c k => lookup defaultTable c = some k) [0x7A] [List.replicate 12 false] ∧
      [List.replicate 8 false, List.replicate 8 false].flatten = [List.replicate 12 false].flatten ++ List.replicate 4 false ∧
      3 < 3 * 2 - 1) ∧
    (HasInput (loaded 8 []) [] ∧ ([] : List Bits).flatten = ([] : List Bits).flatten ++ List.replicate 0 false) ∧
    HasInput (loaded 8 [0x41]) [0x41] ∧ lookup defaultTable 0x41 = none :=
  ⟨⟨loaded_hasInput 8 _ (by decide), .cons rfl .nil, by decide, by decide⟩,
    ⟨smallOut_hasInput (loaded_hasInput 8 _ (by decide)) rfl, .cons rfl .nil, by decide, by decide⟩,
    ⟨loaded_hasInput 8 _ (by decide), rfl⟩, loaded_hasInput 8 _ (by decide), by decide⟩

/-- The wire text "60" walks to 'a' with five bits left; the empty text's token is no hex token. -/
theorem witness_UnpackDecodesTheWireText :
    (([0x60] : List Nat) ≠ [] ∧ (∀ v ∈ ([0x60] : List Nat), v < 256) ∧
      HasInput (loaded 8 ([sep].intercalate ([0x60].map hexToken))) ([sep].intercalate ([0x60].map hexToken)) ∧
      Walks (ensureTree (loaded 8 ([sep].intercalate ([0x60].map hexToken)))).nodes 0 0 ([0x60].flatMap (valBits 8)) [0x61] 5) ∧
    ([[]] : List Token) ≠ [] ∧ (∀ u ∈ ([[]] : List Token), sep ∉ u) ∧
    HasInput (loaded 8 ([sep].intercalate [[]])) ([sep].intercalate [[]]) ∧ ¬ IsHexToken [] := by
  refine ⟨⟨by decide, by decide, loaded_hasInput 8 _ (by decide), walk_eq_ok_iff.1 (by decide +kernel)⟩, by decide,
    by decide, loaded_hasInput 8 _ (by decide), ?_⟩
  rintro ⟨v, _, h⟩
  cases h

/-- A wire text with no walk, on the incomplete table of 95_test_vectors 2.7. -/
theorem witness_UnpackDecodesTheWireText_noPath :
    ¬ ∃ out r, Walks (ensureTree { loaded 8 (hexToken 0xFF) with
      inst := { defaultInstance with codeTable := [entry 0x61 [0], entry 0x62 [1, 0]] } }).nodes 0 0
      ([0xFF].flatMap (valBits 8)) out r := by
  rintro ⟨out, r, h⟩
  have h1 := walk_eq_ok_iff.2 h
  have h2 : walk (ensureTree { loaded 8 (hexToken 0xFF) with
      inst := { defaultInstance with codeTable := [entry 0x61 [0], entry 0x62 [1, 0]] } }).nodes 0 0
      ([0xFF].flatMap (valBits 8)) = .error .noPath := by decide +kernel
  rw [h2] at h1
  cases h1

/-- The chain of "a": 011, 01100000, ["60"], "60". -/
theorem witness_PackEqualsItsChain :
    (∃ t0 t1 t2 t3,
      (loaded 8 []).width = 8 ∧ HasInput (loaded 8 [0x61]) [0x61] ∧
      exec .tobits (loaded 8 [0x61]) = .next t0 ∧ Succeeds t0 ((bitsOf [0, 1, 1]).map bitByte) 0 ∧
      exec .chunk (loaded 8 ((bitsOf [0, 1, 1]).map bitByte)) = .next t1 ∧
      Succeeds t1 ((bitsOf [0, 1, 1, 0, 0, 0, 0, 0]).map bitByte) 0 ∧
      exec .tohex (loaded 8 ((bitsOf [0, 1, 1, 0, 0, 0, 0, 0]).map bitByte)) = .next t2 ∧
      Succeeds t2 [0x00, 0x02, 0x36, 0x30] 0 ∧
      exec .tokjoin (loaded 8 [0x00, 0x02, 0x36, 0x30]) = .next t3 ∧ Succeeds t3 [0x36, 0x30] 0) ∧
    HasInput (loaded 8 [0x41]) [0x41] ∧ ∃ t, exec .tobits (loaded 8 [0x41]) = .next t ∧ Fails t .unknownCharacter := by
  obtain ⟨t0, h0, s0⟩ := exists_succeeds (o := exec .tobits (loaded 8 [0x61])) (out := (bitsOf [0, 1, 1]).map bitByte)
    (r := 0) (by decide +kernel)
  obtain ⟨t1, h1, s1⟩ := exists_succeeds (o := exec .chunk (loaded 8 ((bitsOf [0, 1, 1]).map bitByte)))
    (out := (bitsOf [0, 1, 1, 0, 0, 0, 0, 0]).map bitByte) (r := 0) (by decide +kernel)
  obtain ⟨t2, h2, s2⟩ := exists_succeeds (o := exec .tohex (loaded 8 ((bitsOf [0, 1, 1, 0, 0, 0, 0, 0]).map bitByte)))
    (out := [0x00, 0x02, 0x36, 0x30]) (r := 0) (by decide +kernel)
  obtain ⟨t3, h3, s3⟩ := exists_succeeds (o := exec .tokjoin (loaded 8 [0x00, 0x02, 0x36, 0x30])) (out := [0x36, 0x30])
    (r := 0) (by decide +kernel)
  have hin := loaded_hasInput 8 [0x41] (by decide)
  refine ⟨⟨t0, t1, t2, t3, by decide, loaded_hasInput 8 _ (by decide), h0, s0, h1, s1, h2, s2, h3, s3⟩, hin, _,
    runCommand_of_hasInput hin, ?_⟩
  exact commitErr_fails _ .unknownCharacter

/-- An exact test of a failure. -/
def rejected (c : ErrorKind) (t : State) : Bool :=
  decide (t.errcode = errorCode c ∧ t.olen = 0 ∧ t.resid = 0 ∧ t.obuf = [] ∧ t.done = true ∧ t.busy = false)

theorem exists_fails {o : Host.Outcome State Fault Refusal} {c : ErrorKind} (h : after o (rejected c) = true) :
    ∃ t, o = .next t ∧ Fails t c := by
  obtain ⟨t, ht, hc⟩ := after_exists h
  obtain ⟨h1, h2, h3, h4, h5, h6⟩ := of_decide_eq_true hc
  exact ⟨t, ht, h1, h2, h3, fun i => by rw [h4]; rfl, h5, h6⟩

/-- The block with the incomplete table of 95_test_vectors 2.7. -/
def abTable (s : State) : State :=
  { s with inst := { defaultInstance with codeTable := [entry 0x61 [0], entry 0x62 [1, 0]] } }

theorem abTable_hasInput {s : State} {bytes : List Byte} (h : HasInput s bytes) (hi : s.inst = defaultInstance) :
    HasInput (abTable s) bytes := by
  obtain ⟨h1, h2, h3⟩ := h
  rw [hi] at h2
  exact ⟨h1, h2, h3⟩

/-- The chain of the wire text "60": ["60"], 01100000, "a" with five bits left. -/
theorem witness_UnpackEqualsItsChain :
    ∃ t0 t1 t2 t3,
      (loaded 8 []).width = 8 ∧ SameTree (loaded 8 [0x36, 0x30]) (loaded 8 ((bitsOf [0, 1, 1, 0, 0, 0, 0, 0]).map bitByte)) ∧
      HasInput (loaded 8 [0x36, 0x30]) [0x36, 0x30] ∧
      exec .toksplit (loaded 8 [0x36, 0x30]) = .next t0 ∧ Succeeds t0 [0x00, 0x02, 0x36, 0x30] 0 ∧
      HasInput (loaded 8 [0x00, 0x02, 0x36, 0x30]) [0x00, 0x02, 0x36, 0x30] ∧
      exec .fromhex (loaded 8 [0x00, 0x02, 0x36, 0x30]) = .next t1 ∧
      Succeeds t1 ((bitsOf [0, 1, 1, 0, 0, 0, 0, 0]).map bitByte) 0 ∧
      HasInput (loaded 8 ((bitsOf [0, 1, 1, 0, 0, 0, 0, 0]).map bitByte)) ((bitsOf [0, 1, 1, 0, 0, 0, 0, 0]).map bitByte) ∧
      exec .join (loaded 8 ((bitsOf [0, 1, 1, 0, 0, 0, 0, 0]).map bitByte)) = .next t2 ∧
      Succeeds t2 ((bitsOf [0, 1, 1, 0, 0, 0, 0, 0]).map bitByte) 0 ∧
      exec .decode (loaded 8 ((bitsOf [0, 1, 1, 0, 0, 0, 0, 0]).map bitByte)) = .next t3 ∧ Succeeds t3 [0x61] 5 := by
  obtain ⟨t0, h0, s0⟩ := exists_succeeds (o := exec .toksplit (loaded 8 [0x36, 0x30])) (out := [0x00, 0x02, 0x36, 0x30])
    (r := 0) (by decide +kernel)
  obtain ⟨t1, h1, s1⟩ := exists_succeeds (o := exec .fromhex (loaded 8 [0x00, 0x02, 0x36, 0x30]))
    (out := (bitsOf [0, 1, 1, 0, 0, 0, 0, 0]).map bitByte) (r := 0) (by decide +kernel)
  obtain ⟨t2, h2, s2⟩ := exists_succeeds (o := exec .join (loaded 8 ((bitsOf [0, 1, 1, 0, 0, 0, 0, 0]).map bitByte)))
    (out := (bitsOf [0, 1, 1, 0, 0, 0, 0, 0]).map bitByte) (r := 0) (by decide +kernel)
  obtain ⟨t3, h3, s3⟩ := exists_succeeds (o := exec .decode (loaded 8 ((bitsOf [0, 1, 1, 0, 0, 0, 0, 0]).map bitByte)))
    (out := [0x61]) (r := 5) (by decide +kernel)
  exact ⟨t0, t1, t2, t3, by decide, ⟨rfl, rfl, rfl⟩, loaded_hasInput 8 _ (by decide), h0, s0, loaded_hasInput 8 _ (by decide),
    h1, s1, loaded_hasInput 8 _ (by decide), h2, s2, h3, s3⟩

/-- The chain that fails: the bits of "FF" meet an absent child in the incomplete table; the token "6" is no hex token. -/
theorem witness_UnpackEqualsItsChain_errors :
    (∃ t0 t1 t2 t3,
      SameTree (abTable (loaded 8 [0x46, 0x46])) (abTable (loaded 8 ((List.replicate 8 true).map bitByte))) ∧
      HasInput (abTable (loaded 8 [0x46, 0x46])) [0x46, 0x46] ∧
      exec .toksplit (abTable (loaded 8 [0x46, 0x46])) = .next t0 ∧ Succeeds t0 [0x00, 0x02, 0x46, 0x46] 0 ∧
      HasInput (loaded 8 [0x00, 0x02, 0x46, 0x46]) [0x00, 0x02, 0x46, 0x46] ∧
      exec .fromhex (loaded 8 [0x00, 0x02, 0x46, 0x46]) = .next t1 ∧ Succeeds t1 ((List.replicate 8 true).map bitByte) 0 ∧
      exec .join (loaded 8 ((List.replicate 8 true).map bitByte)) = .next t2 ∧
      Succeeds t2 ((List.replicate 8 true).map bitByte) 0 ∧
      HasInput (abTable (loaded 8 ((List.replicate 8 true).map bitByte))) ((List.replicate 8 true).map bitByte) ∧
      exec .decode (abTable (loaded 8 ((List.replicate 8 true).map bitByte))) = .next t3 ∧ Fails t3 .noPath) ∧
    ∃ t0 t1, HasInput (loaded 8 [0x36]) [0x36] ∧ exec .toksplit (loaded 8 [0x36]) = .next t0 ∧
      Succeeds t0 [0x00, 0x01, 0x36] 0 ∧ HasInput (loaded 8 [0x00, 0x01, 0x36]) [0x00, 0x01, 0x36] ∧
      exec .fromhex (loaded 8 [0x00, 0x01, 0x36]) = .next t1 ∧ Fails t1 .malformedToken := by
  obtain ⟨t0, h0, s0⟩ := exists_succeeds (o := exec .toksplit (abTable (loaded 8 [0x46, 0x46])))
    (out := [0x00, 0x02, 0x46, 0x46]) (r := 0) (by decide +kernel)
  obtain ⟨t1, h1, s1⟩ := exists_succeeds (o := exec .fromhex (loaded 8 [0x00, 0x02, 0x46, 0x46]))
    (out := (List.replicate 8 true).map bitByte) (r := 0) (by decide +kernel)
  obtain ⟨t2, h2, s2⟩ := exists_succeeds (o := exec .join (loaded 8 ((List.replicate 8 true).map bitByte)))
    (out := (List.replicate 8 true).map bitByte) (r := 0) (by decide +kernel)
  obtain ⟨t3, h3, s3⟩ := exists_fails (o := exec .decode (abTable (loaded 8 ((List.replicate 8 true).map bitByte))))
    (c := .noPath) (by decide +kernel)
  obtain ⟨u0, g0, r0⟩ := exists_succeeds (o := exec .toksplit (loaded 8 [0x36])) (out := [0x00, 0x01, 0x36]) (r := 0)
    (by decide +kernel)
  obtain ⟨u1, g1, r1⟩ := exists_fails (o := exec .fromhex (loaded 8 [0x00, 0x01, 0x36])) (c := .malformedToken)
    (by decide +kernel)
  exact ⟨⟨t0, t1, t2, t3, ⟨rfl, rfl, rfl⟩, abTable_hasInput (loaded_hasInput 8 _ (by decide)) rfl, h0, s0,
    loaded_hasInput 8 _ (by decide), h1, s1, h2, s2, abTable_hasInput (loaded_hasInput 8 _ (by decide)) rfl, h3, s3⟩,
    u0, u1, loaded_hasInput 8 _ (by decide), g0, r0, loaded_hasInput 8 _ (by decide), g1, r1⟩

theorem witness_UnpackInvertsPack :
    ∃ t, OfThisSpec (loaded 8 [0x65]).inst ∧ (loaded 8 [0x41, 0x30]).TreeOk ∧
      List.Forall₂ (fun c k => lookup defaultTable c = some k) [0x65] [bitsOf [1, 0, 1]] ∧
      HasInput (loaded 8 [0x65]) [0x65] ∧ exec .pack (loaded 8 [0x65]) = .next t ∧ Succeeds t [0x41, 0x30] 0 ∧
      HasInput (loaded 8 [0x41, 0x30]) [0x41, 0x30] ∧ HasInput (loaded 8 []) [] := by
  obtain ⟨t, ht, hs⟩ := exists_succeeds (o := exec .pack (loaded 8 [0x65])) (out := [0x41, 0x30]) (r := 0) (by decide +kernel)
  exact ⟨t, ⟨rfl, rfl, rfl, rfl, rfl⟩, loaded_treeOk 8 _, .cons rfl .nil, loaded_hasInput 8 _ (by decide), ht, hs,
    loaded_hasInput 8 _ (by decide), loaded_hasInput 8 _ (by decide)⟩

theorem witness_RestoreInvertsPrepare : (0x21 : Byte) ∉ ([0x4D, 0x79] : List Byte) ∧ (0x4D : Byte) ≠ 0x21 := by decide

theorem witness_InvariantHoldsAfterReset : validInstance defaultInstance = true := by decide +kernel

/-- The reset state meets the invariant, and a step from it answers a next state. -/
theorem witness_EveryStepKeepsTheInvariant : State.reset.Inv ∧ ∃ t, step State.reset = .next t := by
  refine ⟨⟨⟨rfl, rfl, nofun⟩, ⟨by decide, fun i => by simp [State.reset, State.resetOf]⟩,
    ⟨nofun, by decide, fun h => absurd rfl h⟩, reset_treeOk⟩, ?_⟩
  obtain ⟨t, ht, _⟩ := after_exists (o := step State.reset) (p := fun _ => true) (by decide +kernel)
  exact ⟨t, ht⟩

theorem witness_NothingButResetChangesABuiltTree :
    ∃ s t, step s = .next t ∧ s.treeValid = true ∧ s.nextTurn ≠ .reset := by
  obtain ⟨s, _, hs⟩ := after_exists (o := exec .build State.reset)
    (p := fun s => s.treeValid && decide (s.nextTurn ≠ .reset) && after (step s) (fun _ => true)) (by decide +kernel)
  rw [Bool.and_eq_true, Bool.and_eq_true] at hs
  obtain ⟨t, ht, _⟩ := after_exists hs.2
  exact ⟨s, t, ht, hs.1.1, of_decide_eq_true hs.1.2⟩

theorem witness_NoStepChangesTheParameters :
    (∃ t, step State.reset = .next t) ∧ validInstance (State.resetOf { defaultInstance with nodeCap := 54 }).inst = false := by
  obtain ⟨t, ht, _⟩ := after_exists (o := step State.reset) (p := fun _ => true) (by decide +kernel)
  exact ⟨⟨t, ht⟩, by decide +kernel⟩

theorem witness_LoadPutsTheInputInPlace :
    ∃ a : HostAgent, State.reset.busy = false ∧ ([0x65, 0x66] : List Byte).length ≤ State.reset.inst.ibufSize ∧
      State.reset.inst.ibufSize ≤ 65536 ∧ ({ State.reset with hosts := [a] } : State).hosts[0]? = some a ∧
      a.prog = loadStmts 0 [0x65, 0x66] ++ [cmdStmt .pack] :=
  ⟨{ prog := loadStmts 0 [0x65, 0x66] ++ [cmdStmt .pack], vars := [] }, rfl, by decide, by decide, rfl, rfl⟩

/-- LOAD takes its turns as the statement counts them, and leaves the input and what comes after it. -/
theorem test_host_load :
    after (hostTurns 0 6 { State.reset with hosts := [{ prog := loadStmts 0 [0x65, 0x66] ++ [waitStmt], vars := [] }] })
      (fun t => t.ibuf == [(0, 0x65), (1, 0x66)] && t.ilen == 2 && t.hosts.map (fun h => h.prog) == [[waitStmt]]) =
      true := by decide +kernel

theorem witness_HostExpressionsHaveTheirValues :
    evalExpr [((1, 0), 0x904)] (hostVar 1) = some (0x904#32).toNat ∧ evalExpr [] (.lit 1) = some 1 ∧
    ([0x65] : List Byte)[0]? = some 0x65 ∧ evalExpr [((1, 0), 0x904)] (.bits (hostVar 1) 11 8) = some 9 := by decide

/-- STATUS 0x904 shows ERRCODE 9, STATUS 0x00A shows none; the agent that has read either; a failed and a successful command
with the agent after its RUN; a text that fits IBUF and one that does not. -/
theorem witness_HostCallsFailOnAnError :
    (0x904#32).extractLsb' 8 4 ≠ 0 ∧ (0x00A#32).extractLsb' 8 4 = 0 ∧
    lookupVar [((varSt, 0), 0x904)] (varSt, 0) = some (0x904#32).toNat ∧
    lookupVar [((varSt, 0), 0x00A)] (varSt, 0) = some (0x00A#32).toNat ∧
    ∃ a : HostAgent, ({ State.reset with hosts := [a] } : State).hosts[0]? = some a ∧
      a.prog = .failIf statusError :: [rd32 0x18 varN] ∧
      Fails { State.reset.commitErr .noPath with hosts := [{ prog := callReads, vars := [] }] } .noPath ∧
      Succeeds { State.reset.commitOk [0x65] 0 with hosts := [{ prog := callReads, vars := [] }] } [0x65] 0 ∧
      ([0x65] : List Byte).length ≤ State.reset.inst.obufSize ∧ State.reset.inst.obufSize ≤ 65536 ∧
      (prepare [0x41]).length ≤ 2 ∧ 1 < (prepare [0x41]).length :=
  ⟨by decide, by decide, rfl, rfl, ⟨_, []⟩, rfl, rfl, ⟨rfl, rfl, rfl, fun _ => rfl, rfl, rfl⟩,
    ⟨rfl, rfl, rfl, fun i => Memory.read_ofBytes [0x65] i, rfl, rfl⟩, by decide, by decide, by decide, by decide⟩

/-- A call whose command gave two bytes answers them in order (41_host_text_transform R106). -/
theorem test_host_call_succeeds :
    after (hostTurns 0 8 { (State.reset.commitOk [0x41, 0x30] 0) with
        hosts := [{ prog := (callProgram .pack []).drop 4, vars := [] }] })
      (fun t => t.hosts.map (fun h => h.prog) == [[]] && match t.hosts with
        | [h] => (match encodeAnswer h.vars with | some (.ok out) => out == [0x41, 0x30] | _ => false)
        | _ => false) = true := by decide +kernel

theorem witness_RegistersShowTheirFields :
    (State.reset.commitOk [0x65] 5).busy = false ∧ (State.reset.commitOk [0x65] 5).olen = 1 ∧
    (State.reset.commitOk [0x65] 5).resid = 5 := by decide

/-- After an error the call reads STATUS and nothing more (41_host_text_transform R106); before it fails it has no answer. -/
theorem test_host_call_fails :
    after (hostTurns 0 2 { (State.reset.commitErr .unknownCharacter) with
        hosts := [{ prog := (callProgram .pack []).drop 4, vars := [] }] })
      (fun t => t.hosts == [{ prog := [], vars := [((varSt, 0), 0x106)] }]) = true ∧
    encodeAnswer [((varSt, 0), 0x106)] = some (.error 1) ∧ encodeAnswer [] = none := by decide +kernel
/-- A run whose program has ended while BUSY is still 1 is not over (70_reset_and_hazards R157). -/
theorem test_run_end :
    ({ State.reset with hosts := [{ prog := [], vars := [] }] } : State).runEnded = true ∧
    ({ started 0xA State.reset with hosts := [{ prog := [], vars := [] }] } : State).runEnded = false ∧
    ({ State.reset with hosts := [{ prog := [waitStmt], vars := [] }] } : State).runEnded = false := by decide +kernel

end Sys2Proof.Tests
end

section
/-! PROOF. The distinct non-empty prefixes of a list of codes, and that the validity check counts exactly them
(00_scope R9). -/

namespace Sys2Proof.Machine

/-- The non-empty prefixes of all codes of a list, with repetitions (00_scope R9). -/
def codePrefixes (ks : List Bits) : List Bits := ks.flatMap (fun k => k.inits.tail)

theorem mem_codePrefixes {ks : List Bits} {q : Bits} : q ∈ codePrefixes ks ↔ q ≠ [] ∧ ∃ k ∈ ks, q <+: k := by
  have key : ∀ k : Bits, q ∈ k.inits.tail ↔ q ≠ [] ∧ q <+: k := by
    intro k
    cases k with
    | nil => simp
    | cons b k =>
      cases q with
      | nil => simp
      | cons a q => simp [List.cons_prefix_cons, and_comm, eq_comm]
  simp only [codePrefixes, List.mem_flatMap, key]
  tauto

/-- An initial segment of `k` is one of `c` too exactly when it lies within what the two share. -/
theorem prefix_iff_length_le_sharedLength {q k : Bits} (c : Bits) (hq : q <+: k) :
    q <+: c ↔ q.length ≤ sharedLength c k := by
  induction q generalizing c k with
  | nil => simp
  | cons a q ih =>
    obtain ⟨r, rfl⟩ := hq
    cases c with
    | nil => simp [sharedLength]
    | cons b c =>
      have hrest := ih c (List.prefix_append q r)
      by_cases hab : a = b
      · subst hab
        simpa [sharedLength, List.cons_prefix_cons] using hrest
      · simp [sharedLength, List.cons_prefix_cons, hab, Ne.symm hab]

/-- A non-empty initial segment of `k` is one of a code seen before exactly when it is no longer than `longestShared`. -/
theorem exists_prefix_iff_length_le_longestShared {q k : Bits} (seen : List Bits) (hq : q <+: k) (hne : q ≠ []) :
    (∃ c ∈ seen, q <+: c) ↔ q.length ≤ longestShared k seen := by
  induction seen with
  | nil => simp [longestShared, hne]
  | cons c cs ih =>
    rw [longestShared, le_max_iff, ← ih, ← prefix_iff_length_le_sharedLength c hq]
    simp

/-- A code adds as many new prefixes as it has bits beyond what it shares with the codes before it. -/
theorem card_codePrefixes_singleton_sdiff (k : Bits) (seen : List Bits) :
    ((codePrefixes [k]).toFinset \ (codePrefixes seen).toFinset).card = k.length - longestShared k seen := by
  have himage : (codePrefixes [k]).toFinset \ (codePrefixes seen).toFinset =
      (Finset.Ioc (longestShared k seen) k.length).image (fun j => k.take j) := by
    ext q
    simp only [Finset.mem_sdiff, List.mem_toFinset, mem_codePrefixes, List.mem_singleton, exists_eq_left,
      Finset.mem_image, Finset.mem_Ioc]
    constructor
    · rintro ⟨⟨hne, hq⟩, hnew⟩
      have hlong := mt (exists_prefix_iff_length_le_longestShared seen hq hne).mpr (fun h => hnew ⟨hne, h⟩)
      exact ⟨q.length, ⟨by omega, hq.length_le⟩, (List.prefix_iff_eq_take.mp hq).symm⟩
    · rintro ⟨j, ⟨hlo, hhi⟩, rfl⟩
      have hlen : (k.take j).length = j := List.length_take_of_le hhi
      have hne : k.take j ≠ [] := List.ne_nil_of_length_pos (by omega)
      have hq : k.take j <+: k := List.take_prefix j k
      refine ⟨⟨hne, hq⟩, fun ⟨_, hold⟩ => ?_⟩
      have := (exists_prefix_iff_length_le_longestShared seen hq hne).mp hold
      omega
  rw [himage, Finset.card_image_of_injOn, Nat.card_Ioc]
  intro i hi j hj hij
  have hlen := congrArg List.length hij
  simp only [Finset.coe_Ioc, Set.mem_Ioc] at hi hj
  rwa [List.length_take_of_le hi.2, List.length_take_of_le hj.2] at hlen

theorem toFinset_codePrefixes_cons (k : Bits) (ks : List Bits) :
    (codePrefixes (k :: ks)).toFinset = (codePrefixes [k]).toFinset ∪ (codePrefixes ks).toFinset := by
  simp [codePrefixes, List.toFinset_append]

/-- `prefixCount` counts the prefixes of the codes that no code seen before has. -/
theorem card_codePrefixes_sdiff (seen ks : List Bits) :
    ((codePrefixes ks).toFinset \ (codePrefixes seen).toFinset).card = prefixCount seen ks := by
  induction ks generalizing seen with
  | nil => simp [codePrefixes, prefixCount]
  | cons k ks ih =>
    have hsplit (A B S : Finset Bits) : (A ∪ B) \ S = (A \ S) ∪ (B \ (A ∪ S)) := by
      ext q
      simp only [Finset.mem_sdiff, Finset.mem_union]
      tauto
    have hdisjoint (A B S : Finset Bits) : Disjoint (A \ S) (B \ (A ∪ S)) :=
      Finset.disjoint_sdiff.mono_left (Finset.sdiff_subset.trans Finset.subset_union_left)
    rw [toFinset_codePrefixes_cons, hsplit, Finset.card_union_of_disjoint (hdisjoint _ _ _),
      card_codePrefixes_singleton_sdiff, ← toFinset_codePrefixes_cons, ih, prefixCount]

/-- The validity check's count is the number of distinct non-empty prefixes (00_scope R9). -/
theorem prefixCount_nil_eq_dedup_length (ks : List Bits) : prefixCount [] ks = (codePrefixes ks).dedup.length := by
  rw [← card_codePrefixes_sdiff, ← List.card_toFinset]
  simp [codePrefixes]

end Sys2Proof.Machine
end

section
/-! PROOF. The shape of the tree under Build: which path leads to each allocated node, and which entries of the node RAM are
still as they were (44_decoding_tree R121). -/

namespace Sys2Proof.Machine

theorem nodeAt_set (nodes : List Node) (i j : Nat) (x : Node) :
    nodeAt (nodes.set i x) j = if i = j ∧ i < nodes.length then x else nodeAt nodes j := by
  simp only [nodeAt, List.getD_eq_getElem?_getD, List.getElem?_set]
  split
  · next hij =>
    subst hij
    split
    · next h => simp [h]
    · next h => simp [h]
  · next hij => simp [hij]

theorem childOf_storeChar (t : Tree) (n i : Nat) (c : Byte) (b : Bool) :
    childOf (storeChar t n c).nodes i b = childOf t.nodes i b := by
  by_cases hni : n = i ∧ n < t.nodes.length
  · obtain ⟨rfl, hn⟩ := hni
    simp [childOf, storeChar, nodeAt_set, hn]
  · simp [childOf, storeChar, nodeAt_set, hni]

/-- Creating a child sets one link, and the new node has none. -/
theorem childOf_addChild {t : Tree} {n : Nat} (hn : n < t.count) (hroom : t.count < t.nodes.length)
    (hbyte : t.count < 256) (b b' : Bool) (i : Nat) :
    childOf (addChild t n b).nodes i b' =
      if i = n ∧ b' = b then t.count else if i = t.count then 0 else childOf t.nodes i b' := by
  have hn' : n < t.nodes.length := by omega
  have hne : t.count ≠ n := by omega
  by_cases hin : i = n
  · subst hin
    cases b <;> cases b' <;>
      simp [childOf, addChild, nodeAt_set, withChild, hn', hne, hne.symm, Nat.mod_eq_of_lt hbyte]
  · by_cases hic : i = t.count
    · subst hic
      cases b' <;> simp [childOf, addChild, nodeAt_set, hne, hne.symm, hroom, Node.blank]
    · simp [childOf, addChild, nodeAt_set, hin, hic, Ne.symm hin, Ne.symm hic]

/-- The tree under construction over a node RAM holds one node per path of a list, node `i` at the end of path `i`: the root
first, no path twice, with a path all its prefixes; the children of a node are at the paths one bit longer, and the entries
that are not allocated are those of the RAM. -/
structure TreeOfPaths (ram : List Node) (t : Tree) (paths : List Bits) : Prop where
  count : paths.length = t.count
  size : t.nodes.length = ram.length
  root : paths[0]? = some []
  nodup : paths.Nodup
  closed : ∀ {p q : Bits}, p ∈ paths → q <+: p → q ∈ paths
  child : ∀ {i : Nat} {p : Bits} {b : Bool}, paths[i]? = some p → childOf t.nodes i b ≠ 0 →
    paths[childOf t.nodes i b]? = some (p ++ [b])
  childless : ∀ {i : Nat} {p : Bits} {b : Bool}, paths[i]? = some p → childOf t.nodes i b = 0 → p ++ [b] ∉ paths
  unwritten : ∀ {i : Nat}, t.count ≤ i → nodeAt t.nodes i = nodeAt ram i

namespace TreeOfPaths

variable {ram : List Node} {t : Tree} {paths : List Bits}

theorem lt_count (h : TreeOfPaths ram t paths) {n : Nat} {p : Bits} (hp : paths[n]? = some p) : n < t.count :=
  h.count ▸ (List.getElem?_eq_some_iff.mp hp).1

/-- The root alone is the tree of the empty path. -/
theorem initial (ram : List Node) : TreeOfPaths ram { nodes := ram.set 0 Node.blank, count := 1 } [[]] where
  count := rfl
  size := List.length_set
  root := rfl
  nodup := List.nodup_singleton _
  closed := by simp +contextual
  child {i p b} hp hc := by
    have hi : i = 0 := by simpa using (List.getElem?_eq_some_iff.mp hp).1
    subst hi
    refine absurd ?_ hc
    have hblank : nodeAt (ram.set 0 Node.blank) 0 = Node.blank := by
      rw [nodeAt_set]
      split
      · rfl
      · next h => simp [nodeAt, show ram = [] by simpa using h]
    cases b <;> simp only [childOf, hblank] <;> rfl
  childless := by simp
  unwritten {i} hi := by
    have h0 : 0 ≠ i := by simp at hi; omega
    simp [nodeAt_set, h0]

/-- Storing a character changes no link. -/
theorem storeChar (h : TreeOfPaths ram t paths) {n : Nat} (hn : n < t.count) (c : Byte) :
    TreeOfPaths ram (storeChar t n c) paths where
  count := h.count
  size := by rw [storeChar_length, h.size]
  root := h.root
  nodup := h.nodup
  closed := h.closed
  child hp hc := by
    rw [childOf_storeChar] at hc ⊢
    exact h.child hp hc
  childless hp hc := by
    rw [childOf_storeChar] at hc
    exact h.childless hp hc
  unwritten {i} hi := by
    have hi : t.count ≤ i := hi
    have hni : n ≠ i := by omega
    simpa [Machine.storeChar, nodeAt_set, hni] using h.unwritten hi

section AddChild

/-! Creating an absent child appends its path. -/

variable {n : Nat} {p : Bits} {b : Bool}

/-- With one path more, a node is an old one or the new one. -/
theorem node_of_append (h : TreeOfPaths ram t paths) {i : Nat} {q r : Bits} (hq : (paths ++ [r])[i]? = some q) :
    (i < t.count ∧ paths[i]? = some q) ∨ (i = t.count ∧ q = r) := by
  have hi : i < paths.length + 1 := by simpa using (List.getElem?_eq_some_iff.mp hq).1
  obtain hi | rfl : i < paths.length ∨ i = paths.length := by omega
  · exact .inl ⟨h.count ▸ hi, List.getElem?_append_left hi ▸ hq⟩
  · exact .inr ⟨h.count, by simpa using hq.symm⟩

theorem getElem?_append_count (h : TreeOfPaths ram t paths) (r : Bits) : (paths ++ [r])[t.count]? = some r := by
  simp [← h.count]

variable (h : TreeOfPaths ram t paths) (hp : paths[n]? = some p)
include h hp

theorem closed_append {q r : Bits} (hq : q ∈ paths ++ [p ++ [b]]) (hr : r <+: q) : r ∈ paths ++ [p ++ [b]] := by
  have hmem : p ∈ paths := List.mem_of_getElem? hp
  rw [List.mem_append, List.mem_singleton] at hq ⊢
  obtain hq | rfl := hq
  · exact .inl (h.closed hq hr)
  · obtain rfl | hr := List.prefix_concat_iff.mp hr
    · exact .inr rfl
    · exact .inl (h.closed hmem hr)

theorem childOf_addChild (hroom : t.count < ram.length) (hbyte : ram.length ≤ 256) (i : Nat) (b' : Bool) :
    childOf (addChild t n b).nodes i b' =
      if i = n ∧ b' = b then t.count else if i = t.count then 0 else childOf t.nodes i b' :=
  Machine.childOf_addChild (h.lt_count hp) (h.size ▸ hroom) (by omega) b b' i

theorem child_addChild (hroom : t.count < ram.length) (hbyte : ram.length ≤ 256) {i : Nat} {q : Bits} {b' : Bool}
    (hq : (paths ++ [p ++ [b]])[i]? = some q) (hc : childOf (addChild t n b).nodes i b' ≠ 0) :
    (paths ++ [p ++ [b]])[childOf (addChild t n b).nodes i b']? = some (q ++ [b']) := by
  rw [h.childOf_addChild hp hroom hbyte] at hc ⊢
  obtain ⟨hi, hq'⟩ | ⟨rfl, rfl⟩ := h.node_of_append hq
  · split
    · next hib =>
      obtain ⟨rfl, rfl⟩ := hib
      rw [h.getElem?_append_count, Option.some.inj (hp.symm.trans hq')]
    · next hib =>
      rw [if_neg hib, if_neg hi.ne] at hc
      have hold := h.child hq' hc
      rw [if_neg hi.ne, List.getElem?_append_left (List.getElem?_eq_some_iff.mp hold).1, hold]
  · exact absurd (by simp [(h.lt_count hp).ne']) hc

theorem childless_addChild (habsent : childOf t.nodes n b = 0) (hroom : t.count < ram.length)
    (hbyte : ram.length ≤ 256) {i : Nat} {q : Bits} {b' : Bool} (hq : (paths ++ [p ++ [b]])[i]? = some q)
    (hc : childOf (addChild t n b).nodes i b' = 0) : q ++ [b'] ∉ paths ++ [p ++ [b]] := by
  have hn : n < t.count := h.lt_count hp
  rw [h.childOf_addChild hp hroom hbyte] at hc
  rw [List.mem_append, List.mem_singleton, not_or]
  obtain ⟨hi, hq'⟩ | ⟨rfl, rfl⟩ := h.node_of_append hq
  · split at hc
    · omega
    · next hib =>
      rw [if_neg hi.ne] at hc
      refine ⟨h.childless hq' hc, fun heq => hib ?_⟩
      obtain ⟨rfl, hb⟩ := List.append_inj' heq rfl
      exact ⟨(List.getElem?_inj (h.count ▸ hi) h.nodup).mp (hq'.trans hp.symm), by simpa using hb⟩
  · exact ⟨fun hmem => h.childless hp habsent (h.closed hmem (List.prefix_append _ _)),
      fun heq => by simpa using congrArg List.length heq⟩

theorem nodup_append (habsent : childOf t.nodes n b = 0) : (paths ++ [p ++ [b]]).Nodup := by
  simpa [List.nodup_append] using ⟨h.nodup, fun q hq he => h.childless hp habsent (he ▸ hq)⟩

theorem addChild (habsent : childOf t.nodes n b = 0) (hroom : t.count < ram.length) (hbyte : ram.length ≤ 256) :
    TreeOfPaths ram (addChild t n b) (paths ++ [p ++ [b]]) where
  count := by simp [h.count, Machine.addChild]
  size := by rw [addChild_length, h.size]
  root := by rw [List.getElem?_append_left (List.getElem?_eq_some_iff.mp h.root).1, h.root]
  nodup := h.nodup_append hp habsent
  closed := h.closed_append hp
  child := h.child_addChild hp hroom hbyte
  childless := h.childless_addChild hp habsent hroom hbyte
  unwritten {i} hi := by
    have hi : t.count + 1 ≤ i := hi
    have hci : t.count ≠ i := by omega
    have hni : n ≠ i := ((h.lt_count hp).trans (by omega)).ne
    simpa [Machine.addChild, nodeAt_set, hci, hni] using h.unwritten (by omega : t.count ≤ i)

end AddChild

section Room

/-! Every path of the tree stays within a list `all` of paths that fits the node RAM, so there is room for each new node. -/

variable {all : List Bits} (hall : all.length ≤ ram.length) (hbyte : ram.length ≤ 256)
include hall hbyte

/-- The path of a code is walked or created: the tree has the code's prefixes besides what it had, in the same places. -/
theorem insertPath (h : TreeOfPaths ram t paths) (hsub : ∀ q ∈ paths, q ∈ all) {n : Nat} {p bs : Bits}
    (hp : paths[n]? = some p) (hbs : ∀ q, q <+: p ++ bs → q ∈ all) :
    ∃ paths', TreeOfPaths ram (insertPath t n bs).1 paths' ∧ paths'[(insertPath t n bs).2]? = some (p ++ bs) ∧
      paths <+: paths' ∧ ∀ q, q ∈ paths' ↔ q ∈ paths ∨ q <+: p ++ bs := by
  induction bs generalizing t n p paths with
  | nil =>
    refine ⟨paths, h, by simpa [Machine.insertPath] using hp, List.prefix_rfl, fun q => ⟨.inl, ?_⟩⟩
    rintro (hq | hq)
    · exact hq
    · exact h.closed (List.mem_of_getElem? hp) (by simpa using hq)
  | cons b bs ih =>
    have hcons : p ++ b :: bs = (p ++ [b]) ++ bs := by simp
    rw [hcons] at hbs ⊢
    have hstep : p ++ [b] <+: (p ++ [b]) ++ bs := List.prefix_append _ _
    rw [Machine.insertPath]
    split
    · next habsent =>
      have hsub' : ∀ q ∈ paths ++ [p ++ [b]], q ∈ all := by
        simpa [or_imp, forall_and] using ⟨hsub, hbs _ hstep⟩
      have hroom : t.count < ram.length := by
        have := (List.subperm_of_subset (h.nodup_append hp habsent) hsub').length_le
        simp [h.count] at this
        omega
      have h' := h.addChild hp habsent hroom hbyte
      obtain ⟨paths', hpaths', hend, hprefix, hmem⟩ := ih h' hsub' (h.getElem?_append_count _) hbs
      refine ⟨paths', hpaths', hend, (List.prefix_append _ _).trans hprefix, fun q => ?_⟩
      rw [hmem, List.mem_append, List.mem_singleton]
      constructor
      · rintro ((hq | rfl) | hq)
        · exact .inl hq
        · exact .inr hstep
        · exact .inr hq
      · rintro (hq | hq)
        · exact .inl (.inl hq)
        · exact .inr hq
    · next hchild => exact ih h hsub (h.child hp hchild) hbs

theorem insertEntry (h : TreeOfPaths ram t paths) (hsub : ∀ q ∈ paths, q ∈ all) {e : Entry}
    (he : ∀ q, q <+: e.code → q ∈ all) :
    ∃ paths', TreeOfPaths ram (insertEntry t e) paths' ∧ ∀ q, q ∈ paths' ↔ q ∈ paths ∨ q <+: e.code := by
  obtain ⟨paths', hpaths', hend, _, hmem⟩ := h.insertPath hall hbyte hsub h.root (bs := e.code) he
  exact ⟨paths', hpaths'.storeChar (hpaths'.lt_count hend) _, hmem⟩

theorem foldl_insertEntry {es : List Entry} (h : TreeOfPaths ram t paths) (hsub : ∀ q ∈ paths, q ∈ all)
    (hes : ∀ e ∈ es, ∀ q, q <+: e.code → q ∈ all) :
    ∃ paths', TreeOfPaths ram (es.foldl Machine.insertEntry t) paths' ∧
      ∀ q, q ∈ paths' ↔ q ∈ paths ∨ ∃ e ∈ es, q <+: e.code := by
  induction es generalizing t paths with
  | nil => exact ⟨paths, h, by simp⟩
  | cons e es ih =>
    rw [List.forall_mem_cons] at hes
    obtain ⟨he, hes⟩ := hes
    obtain ⟨paths₁, h₁, hmem₁⟩ := h.insertEntry hall hbyte hsub he
    obtain ⟨paths₂, h₂, hmem₂⟩ := ih h₁ (fun q hq => ((hmem₁ q).mp hq).elim (hsub q) (he q)) hes
    exact ⟨paths₂, h₂, fun q => by rw [hmem₂, hmem₁, List.exists_mem_cons_iff, or_assoc]⟩

end Room

end TreeOfPaths

/-- The paths Build allocates a node for: the empty one, of the root, and the distinct non-empty prefixes of the codes. -/
def treePaths (table : List Entry) : List Bits := [] :: (codePrefixes (table.map (fun e => e.code))).dedup

theorem mem_treePaths {table : List Entry} {q : Bits} : q ∈ treePaths table ↔ q = [] ∨ ∃ e ∈ table, q <+: e.code := by
  simp only [treePaths, List.mem_cons, List.mem_dedup, mem_codePrefixes, List.mem_map,
    exists_exists_and_eq_and]
  tauto

theorem treePaths_nodup (table : List Entry) : (treePaths table).Nodup :=
  List.nodup_cons.mpr ⟨by simp [mem_codePrefixes], List.nodup_dedup _⟩

/-- Over a node RAM with room for them, Build makes a tree of exactly these paths. -/
theorem buildTree_treeOfPaths {table : List Entry} {ram : List Node} (hroom : (treePaths table).length ≤ ram.length)
    (hbyte : ram.length ≤ 256) :
    ∃ paths, TreeOfPaths ram (buildTree table ram) paths ∧ paths.Perm (treePaths table) := by
  obtain ⟨paths, h, hmem⟩ := (TreeOfPaths.initial ram).foldl_insertEntry hroom hbyte
    (es := table) (by simp [treePaths]) (fun e he q hq => mem_treePaths.mpr (.inr ⟨e, he, hq⟩))
  refine ⟨paths, h, (List.perm_ext_iff_of_nodup h.nodup (treePaths_nodup table)).mpr fun q => ?_⟩
  rw [hmem, mem_treePaths, List.mem_singleton]

/-- A valid block has room for its paths, and a node index fits a byte (00_scope R8, R9). -/
theorem treePaths_fit_of_valid {p : Instance} (hp : validInstance p = true) :
    (treePaths p.codeTable).length ≤ p.nodeCap ∧ p.nodeCap ≤ 256 := by
  simp only [validInstance, paramsInRange, nodesFit, Bool.and_eq_true, decide_eq_true_eq] at hp
  obtain ⟨⟨_, _, _, _, _, hcap, _⟩, _, _, hfit⟩ := hp
  rw [prefixCount_nil_eq_dedup_length] at hfit
  exact ⟨by rw [treePaths, List.length_cons]; omega, hcap⟩

/-- Settles O41: Build's tree is the tree of the root's path and the distinct non-empty prefixes, one node each. -/
theorem buildAllocatesOneNodePerPrefix : Obligations.BuildAllocatesOneNodePerPrefix := by
  intro p ram hp hram
  obtain ⟨hroom, hcap⟩ := treePaths_fit_of_valid hp
  obtain ⟨paths, h, hperm⟩ := buildTree_treeOfPaths (hram ▸ hroom) (hram ▸ hcap)
  have hcount : (buildTree p.codeTable ram).count = (treePaths p.codeTable).length := h.count ▸ hperm.length_eq
  refine ⟨?_, hcount ▸ hroom, by rw [buildTree_length, hram], fun i hi => h.unwritten hi⟩
  rw [hcount, treePaths, List.length_cons, Nat.add_comm]
  rfl

end Sys2Proof.Machine
end

section
/-! PROOF. The node RAM's old content does not matter to Build: over two node RAMs of one size it allocates the same nodes and
gives them the same fields (44_decoding_tree R121). -/

namespace Sys2Proof.Machine

theorem nodeAt_of_length_le {nodes : List Node} {i : Nat} (h : nodes.length ≤ i) : nodeAt nodes i = Node.blank := by
  simp [nodeAt, h]

/-- Creating a child writes two nodes: the new one, which is blank, and its parent. -/
theorem nodeAt_addChild {t : Tree} {n : Nat} (hn : n < t.count) (b : Bool) (i : Nat) :
    nodeAt (addChild t n b).nodes i =
      if n = i ∧ n < t.nodes.length then withChild (nodeAt t.nodes n) b t.count
      else if t.count = i then Node.blank else nodeAt t.nodes i := by
  have hne : t.count ≠ n := by omega
  simp only [addChild, nodeAt_set, List.length_set, hne, false_and, if_false]
  by_cases hi : t.count = i ∧ t.nodes.length ≤ t.count
  · obtain ⟨rfl, hlen⟩ := hi
    simp [nodeAt_of_length_le hlen]
  · grind

/-- The children `addChild` leaves, with no premise on the room for the new node: an index that does not fit a byte wraps. -/
theorem childOf_addChild_mod {t : Tree} {n : Nat} (hn : n < t.count) (b b' : Bool) (i : Nat) :
    childOf (addChild t n b).nodes i b' =
      if n = i ∧ n < t.nodes.length then (if b' = b then t.count % 256 else childOf t.nodes n b')
      else if t.count = i then 0 else childOf t.nodes i b' := by
  simp only [childOf, nodeAt_addChild hn]
  by_cases hparent : n = i ∧ n < t.nodes.length
  · simp only [if_pos hparent]
    cases b <;> cases b' <;> simp [withChild]
  · simp only [if_neg hparent]
    by_cases hnew : t.count = i
    · simp [hnew, Node.blank]
    · simp [hnew]

/-- Two trees under construction over node RAMs of one size, with the same allocated nodes, of which every child is allocated
(or 0, which is none). -/
structure SameAllocated (t u : Tree) : Prop where
  count : u.count = t.count
  size : u.nodes.length = t.nodes.length
  node : ∀ i < t.count, nodeAt u.nodes i = nodeAt t.nodes i
  child : ∀ i < t.count, ∀ b, childOf t.nodes i b < t.count

namespace SameAllocated

variable {t u : Tree}

theorem childOf_eq (h : SameAllocated t u) {n : Nat} (hn : n < t.count) (b : Bool) :
    childOf u.nodes n b = childOf t.nodes n b := by simp only [childOf, h.node n hn]

/-- The root alone, over any two node RAMs of one size. -/
theorem initial {ram ram' : List Node} (hlen : ram'.length = ram.length) :
    SameAllocated { nodes := ram.set 0 Node.blank, count := 1 } { nodes := ram'.set 0 Node.blank, count := 1 } := by
  have hroot : ∀ r : List Node, nodeAt (r.set 0 Node.blank) 0 = Node.blank := fun r => by
    cases r <;> rfl
  refine ⟨rfl, by simp [hlen], fun i hi => ?_, fun i hi b => ?_⟩ <;>
    obtain rfl : i = 0 := Nat.lt_one_iff.mp hi
  · rw [hroot, hroot]
  · cases b <;> simp only [childOf, hroot] <;> decide

theorem addChild (h : SameAllocated t u) {n : Nat} (hn : n < t.count) (b : Bool) :
    SameAllocated (addChild t n b) (addChild u n b) where
  count := congrArg (· + 1) h.count
  size := by rw [addChild_length, addChild_length, h.size]
  node i hi := by
    have hi : i < t.count + 1 := hi
    rw [nodeAt_addChild hn, nodeAt_addChild (h.count ▸ hn), h.count, h.size, h.node n hn]
    split
    · rfl
    · split
      · rfl
      · exact h.node i (by omega)
  child i hi b' := by
    have hi : i < t.count + 1 := hi
    have hmod : t.count % 256 ≤ t.count := Nat.mod_le _ _
    have hold := h.child n hn b'
    show childOf (Machine.addChild t n b).nodes i b' < t.count + 1
    rw [childOf_addChild_mod hn]
    split
    · split <;> omega
    · split
      · omega
      · next hi' =>
        have := h.child i (by omega) b'
        omega

theorem storeChar (h : SameAllocated t u) {n : Nat} (hn : n < t.count) (c : Byte) :
    SameAllocated (storeChar t n c) (storeChar u n c) where
  count := h.count
  size := by rw [storeChar_length, storeChar_length, h.size]
  node i hi := by
    simp only [Machine.storeChar, nodeAt_set, h.size, h.node n hn, h.node i hi]
  child i hi b := by
    rw [childOf_storeChar]
    exact h.child i hi b

/-- A code's path ends at the same allocated node of both. -/
theorem insertPath (h : SameAllocated t u) {n : Nat} (hn : n < t.count) (bs : Bits) :
    SameAllocated (insertPath t n bs).1 (insertPath u n bs).1 ∧
      (insertPath u n bs).2 = (insertPath t n bs).2 ∧ (insertPath t n bs).2 < (insertPath t n bs).1.count := by
  induction bs generalizing t u n with
  | nil => exact ⟨h, rfl, hn⟩
  | cons b bs ih =>
    simp only [Machine.insertPath, h.childOf_eq hn, h.count]
    split
    · exact ih (h.addChild hn b) (Nat.lt_succ_self _)
    · exact ih h (h.child n hn b)

theorem insertEntry (h : SameAllocated t u) (hpos : 0 < t.count) (e : Entry) :
    SameAllocated (insertEntry t e) (insertEntry u e) ∧ 0 < (Machine.insertEntry t e).count := by
  obtain ⟨hpath, hend, hlt⟩ := h.insertPath hpos e.code
  simp only [Machine.insertEntry, hend]
  exact ⟨hpath.storeChar hlt e.char, Nat.zero_lt_of_lt hlt⟩

theorem foldl_insertEntry (h : SameAllocated t u) (hpos : 0 < t.count) (es : List Entry) :
    SameAllocated (es.foldl Machine.insertEntry t) (es.foldl Machine.insertEntry u) := by
  induction es generalizing t u with
  | nil => exact h
  | cons e es ih =>
    obtain ⟨h', hpos'⟩ := h.insertEntry hpos e
    exact ih h' hpos'

end SameAllocated

/-- What Build allocates does not depend on what the node RAM held (44_decoding_tree R121). -/
theorem buildTree_sameAllocated (table : List Entry) {ram ram' : List Node} (hlen : ram'.length = ram.length) :
    SameAllocated (buildTree table ram) (buildTree table ram') :=
  (SameAllocated.initial hlen).foldl_insertEntry Nat.one_pos table

end Sys2Proof.Machine
end

section
/-! PROOF. The invariant of the block's state, the parameters and the built tree, over everything a step can do
(Laws/Step.lean). -/

namespace Sys2Proof.Machine

variable {s t : State}

/-! ## Commits and EnsureTree -/

/-- After a commit of an output that fits OBUF, OLEN counts the defined OBUF bytes (10_state R42). -/
theorem commit_outputOk (s : State) {res : CommandResult} (hsize : s.inst.obufSize ≤ 65536)
    (hfits : ∀ out r, res = .ok (out, r) → out.length ≤ s.inst.obufSize) : (s.commit res).OutputOk := by
  rcases res with c | ⟨out, r⟩
  · exact ⟨Nat.zero_le _, fun i => rfl⟩
  · have hlen := hfits out r rfl
    have holen : (BitVec.ofNat 32 out.length).toNat = out.length := by
      rw [BitVec.toNat_ofNat, Nat.mod_eq_of_lt (by omega)]
    refine ⟨?_, fun i => ?_⟩ <;> simp only [State.commit, State.commitOk_olen, holen]
    · exact hlen
    · rw [State.commitOk_obuf, Memory.read_ofBytes, Bool.eq_iff_iff]
      simp

theorem errorCode_le_nine (c : ErrorKind) : (errorCode c).toNat ≤ 9 := by cases c <;> decide

theorem commit_statusOk (s : State) (res : CommandResult) : (s.commit res).StatusOk := by
  rcases res with c | ⟨out, r⟩
  · exact ⟨nofun, errorCode_le_nine c, fun _ => ⟨rfl, rfl⟩⟩
  · exact ⟨nofun, Nat.zero_le _, fun h => absurd rfl h⟩

/-- A commit leaves IBUF and fills or empties OBUF, in canonical form (40_command_framework R90). -/
theorem commit_buffersOk (h : s.BuffersOk) (res : CommandResult) : (s.commit res).BuffersOk := by
  obtain ⟨hibuf, _, hdefined⟩ := h
  rcases res with c | ⟨out, r⟩
  · exact ⟨hibuf, rfl, hdefined⟩
  · exact ⟨hibuf, Memory.ofBytes_wf 0 out, hdefined⟩

theorem commit_treeOk (h : s.TreeOk) (res : CommandResult) : (s.commit res).TreeOk := by
  rcases res with c | ⟨out, r⟩ <;> exact h

/-- EnsureTree leaves the tree Build makes, whatever the node RAM held (44_decoding_tree R123). -/
theorem ensureTree_treeOk (h : s.TreeOk) : (ensureTree s).TreeOk := by
  cases hv : s.treeValid with
  | true => rwa [ensureTree_of_valid hv]
  | false =>
    obtain ⟨hsize, _, _⟩ := h
    have hsame : SameAllocated (freshTree s.inst) (buildTree s.inst.codeTable s.nodes) :=
      buildTree_sameAllocated _ (by simp [hsize])
    rw [ensureTree_of_invalid hv]
    refine ⟨by simp [hsize], nofun, fun _ => ⟨?_, hsame.node⟩⟩
    rw [State.setTree_nodeCount, hsame.count, State.setTree_inst]

theorem ensureTree_buffersOk (h : s.BuffersOk) : (ensureTree s).BuffersOk := by
  unfold ensureTree
  split <;> exact h

/-- A commit that fits OBUF keeps the invariant, on the state itself or on the one EnsureTree leaves. -/
theorem commit_inv {u : State} {res : CommandResult} (h : s.Inv) (hsize : s.inst.obufSize ≤ 65536)
    (hu : u = s ∨ u = ensureTree s) (hfits : ∀ out r, res = .ok (out, r) → out.length ≤ s.inst.obufSize) :
    (u.commit res).Inv := by
  obtain ⟨hbuf, _, _, htree⟩ := h
  rcases hu with rfl | rfl
  · exact ⟨commit_buffersOk hbuf res, commit_outputOk _ hsize hfits, commit_statusOk _ res, commit_treeOk htree res⟩
  · exact ⟨commit_buffersOk (ensureTree_buffersOk hbuf) res,
      commit_outputOk _ (by rwa [ensureTree_inst]) (by rwa [ensureTree_inst]), commit_statusOk _ res,
      commit_treeOk (ensureTree_treeOk htree) res⟩

/-! ## The engine, the hosts and reset -/

theorem exec_inv {i : Instr} (h : s.Inv) (hsize : s.inst.obufSize ≤ 65536) (run : exec i s = .next t) : t.Inv := by
  obtain ⟨u, res, hu, rfl, hfits⟩ := exec_next run
  exact commit_inv h hsize hu hfits

/-- A byte written inside IBUF keeps the buffers in order (20_memory R58). -/
theorem writeIbuf_buffersOk (h : s.BuffersOk) {i : Nat} (inside : i < s.inst.ibufSize) (b : Byte) :
    (s.writeIbuf i b).BuffersOk := by
  obtain ⟨hibuf, hobuf, hdefined⟩ := h
  refine ⟨Memory.write_wf hibuf i b, hobuf, fun j hj => ?_⟩
  rw [State.writeIbuf_ibuf, Memory.read_write] at hj
  split at hj
  · next hji => exact hji ▸ inside
  · exact hdefined j hj

theorem WriteEffect.inv (w : WriteEffect s t) (h : s.Inv) : t.Inv := by
  obtain ⟨hbuf, hout, ⟨hbusy, hcode, herr⟩, htree⟩ := h
  cases w with
  | cmd v idle => exact ⟨hbuf, hout, ⟨fun _ => ⟨rfl, rfl⟩, Nat.zero_le _, fun h => absurd rfl h⟩, htree⟩
  | ack => exact ⟨hbuf, hout, ⟨fun hb => ⟨rfl, (hbusy hb).2⟩, hcode, herr⟩, htree⟩
  | ibuf i b idle inside => exact ⟨writeIbuf_buffersOk hbuf inside b, hout, ⟨hbusy, hcode, herr⟩, htree⟩
  | _ => exact ⟨hbuf, hout, ⟨hbusy, hcode, herr⟩, htree⟩

theorem HostEffect.inv (e : HostEffect s t) (h : s.Inv) : t.Inv := by
  cases e with
  | wrote w hs => exact w.inv h
  | _ => exact h

/-- The block after reset meets the invariant, whatever its parameters (70_reset_and_hazards R149). -/
theorem resetBlock_inv (s : State) : s.resetBlock.Inv :=
  ⟨⟨rfl, rfl, nofun⟩, ⟨Nat.zero_le _, fun _ => rfl⟩, ⟨nofun, Nat.zero_le _, fun h => absurd rfl h⟩,
    List.length_replicate, fun _ => rfl, nofun⟩

theorem StepEffect.inv (e : StepEffect s t) (h : s.Inv) (hsize : s.inst.obufSize ≤ 65536) : t.Inv := by
  cases e with
  | passed => exact h
  | command i _ _ run => exact exec_inv h hsize run
  | badCmd _ e _ => exact commit_inv (res := .error .badCmd) h hsize (.inl rfl) nofun
  | host eff => exact eff.inv h
  | reset => exact resetBlock_inv s

theorem obufSize_le_of_valid {p : Instance} (hp : validInstance p = true) : p.obufSize ≤ 65536 := by
  simp only [validInstance, paramsInRange, Bool.and_eq_true, decide_eq_true_eq] at hp
  omega

/-- Settles O54: every effect a step can have keeps each part of the invariant. -/
theorem everyStepKeepsTheInvariant : Obligations.EveryStepKeepsTheInvariant := by
  intro s t h hstep
  obtain ⟨hvalid, heffect⟩ := step_effect hstep
  exact heffect.inv h (obufSize_le_of_valid hvalid)

/-! ## The parameters and the built tree -/

theorem WriteEffect.inst_eq (w : WriteEffect s t) : t.inst = s.inst := by cases w <;> rfl

theorem HostEffect.inst_eq (e : HostEffect s t) : t.inst = s.inst := by
  cases e with
  | wrote w hs => exact w.inst_eq
  | _ => rfl

theorem exec_inst_eq {i : Instr} (run : exec i s = .next t) : t.inst = s.inst := by
  obtain ⟨u, res, hu, rfl, _⟩ := exec_next run
  rw [(commit_sameElsewhere u res).1]
  rcases hu with rfl | rfl
  · rfl
  · exact ensureTree_inst s

theorem StepEffect.inst_eq (e : StepEffect s t) : t.inst = s.inst := by
  cases e with
  | command i _ _ run => exact exec_inst_eq run
  | host eff => exact eff.inst_eq
  | _ => rfl

/-- Settles O56: no effect of a step writes the parameters, and the step itself tests them first. -/
theorem noStepChangesTheParameters : Obligations.NoStepChangesTheParameters :=
  ⟨fun _ _ hstep => (step_effect hstep).2.inst_eq, fun s hinvalid => by simp [step, hinvalid]⟩

theorem WriteEffect.sameTree (w : WriteEffect s t) : SameTree s t := by cases w <;> exact ⟨rfl, rfl, rfl⟩

theorem HostEffect.sameTree (e : HostEffect s t) : SameTree s t := by
  cases e with
  | wrote w hs => exact w.sameTree
  | _ => exact ⟨rfl, rfl, rfl⟩

/-- With a valid tree EnsureTree does nothing, and a commit writes no tree. -/
theorem exec_sameTree_of_valid {i : Instr} (hv : s.treeValid = true) (run : exec i s = .next t) : SameTree s t := by
  obtain ⟨u, res, hu, rfl, _⟩ := exec_next run
  obtain rfl : u = s := by simpa [ensureTree_of_valid hv] using hu
  exact commit_sameTree u res

theorem runTurn_sameTree_of_valid {m : Turn} (hm : m ≠ .reset) (hv : s.treeValid = true) (h : runTurn m s = .next t) :
    SameTree s t := by
  cases m with
  | host k => exact (hostStep_next h).sameTree
  | reset => exact absurd rfl hm
  | engine =>
    simp only [runTurn, engineStep] at h
    split at h
    · split at h
      · cases h
        exact commit_sameTree s (.error .badCmd)
      · exact exec_sameTree_of_valid hv h
    · cases h
      exact ⟨rfl, rfl, rfl⟩

/-- Settles O55: of the three kinds of turn only reset writes a valid tree. -/
theorem nothingButResetChangesABuiltTree : Obligations.NothingButResetChangesABuiltTree := by
  intro s t hstep hv hm
  exact runTurn_sameTree_of_valid (s := s.dropTurn) hm hv (step_next hstep).2

end Sys2Proof.Machine
end

section
/-! PROOF. The registers on the bus: the bits of the words the state shows, what a write keeps, and the selected entry of the
code table (10_state R23 to R40). -/

namespace Sys2Proof.Machine

/-! ## Fields of a register word -/

theorem getLsbD_flagAt (b : Bool) {pos : Nat} (hpos : pos < 32) (i : Nat) :
    (flagAt b pos).getLsbD i = (decide (i = pos) && b) := by
  cases b
  · simp [flagAt]
  · have hone : (flagAt true pos).getLsbD i = true ↔ i < 32 ∧ pos ≤ i ∧ i - pos = 0 := by
      simp [flagAt, BitVec.getLsbD_one, and_assoc]
    rw [Bool.eq_iff_iff, hone, Bool.and_true, decide_eq_true_iff]
    omega

/-- A field of a word, bit by bit. -/
theorem extractLsb'_eq_of_getLsbD {w : Word} {start len : Nat} {x : BitVec len}
    (h : ∀ i < len, w.getLsbD (start + i) = x.getLsbD i) : w.extractLsb' start len = x :=
  BitVec.eq_of_getLsbD_eq fun i hi => by simpa [BitVec.getLsbD_extractLsb', hi] using h i hi

/-- Where the fields of STATUS stand (10_state R28). -/
theorem getLsbD_statusWord (s : State) (i : Nat) :
    s.statusWord.getLsbD i =
      if i = 0 then s.busy else if i = 1 then s.done else if i = 2 then s.err else if i = 3 then s.treeValid
      else decide (8 ≤ i) && s.errcode.getLsbD (i - 8) := by
  simp only [State.statusWord, BitVec.getLsbD_or, getLsbD_flagAt, BitVec.getLsbD_shiftLeft, BitVec.getLsbD_setWidth,
    BitVec.truncate_eq_setWidth, Nat.reduceLT]
  grind

/-- Where the fields of NODE_DATA stand (10_state R34). -/
theorem getLsbD_nodeWord (n : Node) (i : Nat) :
    (nodeWord n).getLsbD i =
      if i < 8 then n.c0.getLsbD i else if i < 16 then n.c1.getLsbD (i - 8)
      else if i < 24 then n.val.getLsbD (i - 16) else decide (i = 24) && n.hasVal := by
  simp only [nodeWord, BitVec.getLsbD_or, getLsbD_flagAt, BitVec.getLsbD_shiftLeft, BitVec.getLsbD_setWidth,
    BitVec.truncate_eq_setWidth, Nat.reduceLT]
  grind

/-- The low bits of a word are the word under their mask. -/
theorem setWidth_extractLsb'_zero (v : Word) {n : Nat} (hn : n ≤ 32) :
    (v.extractLsb' 0 n).setWidth 32 = v &&& BitVec.ofNat 32 (2 ^ n - 1) := by
  have hpow : 2 ^ n ≤ 2 ^ 32 := Nat.pow_le_pow_right (by omega) hn
  have hpos : 0 < 2 ^ n := Nat.two_pow_pos n
  apply BitVec.eq_of_toNat_eq
  have hmod : v.toNat % 2 ^ n < 2 ^ 32 := (Nat.mod_lt _ hpos).trans_le hpow
  simp only [BitVec.toNat_setWidth, BitVec.extractLsb'_toNat, Nat.shiftRight_zero, BitVec.toNat_and, BitVec.toNat_ofNat]
  rw [Nat.mod_eq_of_lt (by omega : 2 ^ n - 1 < 2 ^ 32), Nat.and_two_pow_sub_one_eq_mod, Nat.mod_eq_of_lt hmod]

theorem flagAt_getLsbD_zero (v : Word) : flagAt (v.getLsbD 0) 0 = v &&& 1 := by
  apply BitVec.eq_of_getLsbD_eq
  intro i _
  rw [getLsbD_flagAt _ (by omega)]
  rcases i with _ | i <;> simp [BitVec.getLsbD_one]

/-! ## Reads and writes of the registers -/

variable {s : State}

/-- A read of a register that is never unspecified shows its word, busy or not (70_reset_and_hazards R152). -/
theorem reads_of_specified {off : Nat} (h : off < 0x100) (ha : off % 4 = 0)
    (hr : (regAt off).unspecifiedWhileBusy = false) : Reads s off (s.regWord (regAt off)) := by
  rw [Reads, busRead_reg s h ha, readReg_specified s hr]

/-- A register written and then read back, where the write leaves the parameters. -/
theorem busWrite_busRead {off : Nat} {v w : Word} {t : State} (h : off < 0x100) (ha : off % 4 = 0)
    (hr : Reads t off w) (hw : writeReg (regAt off) v s = t) (hi : t.inst = s.inst) :
    busWrite 32 (s.inst.blockBase + off) v s = .next t ∧ busRead 32 (s.inst.blockBase + off) t = .next (w, t) :=
  ⟨by rw [busWrite_reg s v h ha, hw], hi ▸ hr⟩

/-- Settles O12: each write sets one field, and a read shows that field alone. -/
theorem registersReadBackWhatTheyKeep : Obligations.RegistersReadBackWhatTheyKeep := by
  intro s v idle
  have hctrl : Reads (s.setCtrl v) 0x04 (v &&& 1) := flagAt_getLsbD_zero v ▸ reads_of_specified (by decide) rfl rfl
  have hcfg : Reads (s.setCfg v) 0x08 (v &&& 7) :=
    setWidth_extractLsb'_zero v (n := 3) (by decide) ▸ reads_of_specified (by decide) rfl rfl
  have hilen : Reads (s.setIlen v) 0x14 v := reads_of_specified (by decide) rfl rfl
  have hnode : Reads (s.setNodeSel v) 0x24 (v &&& 0xFF) :=
    setWidth_extractLsb'_zero v (n := 8) (by decide) ▸ reads_of_specified (by decide) rfl rfl
  have htbl : Reads (s.setTblSel v) 0x30 (v &&& 0xFF) :=
    setWidth_extractLsb'_zero v (n := 8) (by decide) ▸ reads_of_specified (by decide) rfl rfl
  exact ⟨⟨_, and_assoc.mp ⟨busWrite_busRead (by decide) rfl hctrl rfl rfl, rfl⟩⟩,
    ⟨_, and_assoc.mp ⟨busWrite_busRead (by decide) rfl hcfg (by simp [regAt, writeReg, idle]) rfl, rfl⟩⟩,
    ⟨_, and_assoc.mp ⟨busWrite_busRead (by decide) rfl hilen (by simp [regAt, writeReg, idle]) rfl, rfl⟩⟩,
    ⟨_, and_assoc.mp ⟨busWrite_busRead (by decide) rfl hnode rfl rfl, rfl⟩⟩,
    ⟨_, and_assoc.mp ⟨busWrite_busRead (by decide) rfl htbl rfl rfl, rfl⟩⟩⟩

/-- Writing STATUS clears DONE where bit 1 is 1, and nothing else (10_state R28). -/
theorem writeReg_status (v : Word) (s : State) :
    writeReg .status v s = { s with done := s.done && !v.getLsbD 1 } := by
  cases h : v.getLsbD 1 <;> simp only [writeReg, h] <;> simp [State.ackDone]

theorem busWrite_status (s : State) (v : Word) :
    busWrite 32 (s.inst.blockBase + 0x10) v s = .next { s with done := s.done && !v.getLsbD 1 } := by
  rw [busWrite_reg s v (by decide) rfl, ← writeReg_status]
  rfl

/-- Settles O15: STATUS is an OR of fields at distinct bits. -/
theorem statusShowsItsFields : Obligations.StatusShowsItsFields := by
  intro s
  refine ⟨⟨s.statusWord, reads_of_specified (by decide) rfl rfl, getLsbD_statusWord s 0, getLsbD_statusWord s 1, ?_,
    getLsbD_statusWord s 3, extractLsb'_eq_of_getLsbD fun i hi => ?_, extractLsb'_eq_of_getLsbD fun i hi => ?_,
    extractLsb'_eq_of_getLsbD fun i hi => ?_⟩, busWrite_status s⟩
  all_goals
    rw [getLsbD_statusWord]
    grind [State.err]

/-- Settles O19: the word is the selected node's where there is one, field by field. -/
theorem nodeDataShowsTheSelectedNode : Obligations.NodeDataShowsTheSelectedNode := by
  intro s idle
  refine ⟨s.nodeDataWord, reads_reg idle (by decide) rfl, fun hsel => ?_, fun hsel => ?_⟩
  · have hword : s.nodeDataWord = nodeWord (nodeAt s.nodes s.nodeSel.toNat) := by simp [State.nodeDataWord, hsel]
    rw [hword]
    refine ⟨extractLsb'_eq_of_getLsbD fun i hi => ?_, extractLsb'_eq_of_getLsbD fun i hi => ?_,
      extractLsb'_eq_of_getLsbD fun i hi => ?_, getLsbD_nodeWord _ 24, extractLsb'_eq_of_getLsbD fun i hi => ?_⟩
    all_goals
      rw [getLsbD_nodeWord]
      grind
  · rw [State.nodeDataWord, if_neg (by simpa using hsel)]

/-- Settles O60: a read shows its own field, and a write to a read-only register is the identity of `writeReg`. -/
theorem registersShowTheirFields : Obligations.RegistersShowTheirFields := by
  refine ⟨fun s idle => ?_, fun s => ?_, fun s v off hoff => ?_⟩
  · exact ⟨reads_reg idle (by decide) rfl, reads_reg idle (by decide) rfl, reads_reg idle (by decide) rfl⟩
  · have hctrl : s.ctrlWord = if s.ie then 1 else 0 := by cases h : s.ie <;> simp [State.ctrlWord, flagAt, h]
    exact ⟨reads_of_specified (by decide) rfl rfl, hctrl ▸ reads_of_specified (by decide) rfl rfl,
      reads_of_specified (by decide) rfl rfl, reads_of_specified (by decide) rfl rfl,
      reads_of_specified (by decide) rfl rfl, reads_of_specified (by decide) rfl rfl⟩
  · fin_cases hoff <;> exact busWrite_reg s v (by decide) rfl

/-- Settles O13: the locked writes answer the state itself while busy, the others set their field in any state. -/
theorem lockedWhileBusy : Obligations.LockedWhileBusy := by
  refine ⟨fun s v busy => ?_, fun s v => ?_⟩
  · refine ⟨?_, ?_, ?_, fun i hi hi' => ?_⟩
    · simp [busWrite_reg, regAt, writeReg, busy]
    · simp [busWrite_reg, regAt, writeReg, busy]
    · simp [busWrite_reg, regAt, writeReg, busy]
    · simp [busWrite_ibuf s v hi hi', writeIbufByte, busy]
  · exact ⟨busWrite_reg s v (by decide) rfl, busWrite_status s v, busWrite_reg s v (by decide) rfl,
      busWrite_reg s v (by decide) rfl⟩

end Sys2Proof.Machine
end

section
/-! PROOF. The code table: its lookup, the registers that show the selected entry, and the computed facts of DEFAULT_TABLE and
of its tree (10_state R35 to R38, R44 to R46). -/

namespace Sys2Proof.Machine

/-! ## Lookup -/

theorem lookup_eq_none_iff {table : List Entry} {c : Byte} : lookup table c = none ↔ ∀ e ∈ table, e.char ≠ c := by
  induction table with
  | nil => simp [lookup]
  | cons e es ih => by_cases hc : e.char = c <;> simp [lookup, hc, ih]

/-- The recursion of `lookup` stops at the first entry with the char (10_state R44). -/
theorem lookup_eq_some_iff {table : List Entry} {c : Byte} {k : Bits} :
    lookup table c = some k ↔ ∃ (j : Nat) (e : Entry), table[j]? = some e ∧ e.char = c ∧ e.code = k ∧
      ∀ (j' : Nat) (e' : Entry), j' < j → table[j']? = some e' → e'.char ≠ c := by
  induction table with
  | nil => simp [lookup]
  | cons e es ih =>
    by_cases hc : e.char = c
    · simp only [lookup, if_pos hc, Option.some.injEq]
      constructor
      · rintro rfl
        exact ⟨0, e, rfl, hc, rfl, by simp⟩
      · rintro ⟨j, f, hf, _, rfl, hfirst⟩
        cases j with
        | zero => exact congrArg Entry.code (Option.some.inj hf)
        | succ j => exact absurd hc (hfirst 0 e j.succ_pos rfl)
    · simp only [lookup, if_neg hc, ih]
      constructor
      · rintro ⟨j, f, hf, hfc, hfk, hfirst⟩
        refine ⟨j + 1, f, hf, hfc, hfk, fun j' f' hj' hf' => ?_⟩
        cases j' with
        | zero => exact Option.some.inj hf' ▸ hc
        | succ j' => exact hfirst j' f' (Nat.lt_of_succ_lt_succ hj') hf'
      · rintro ⟨j, f, hf, hfc, hfk, hfirst⟩
        cases j with
        | zero => exact absurd hfc (Option.some.inj hf ▸ hc)
        | succ j => exact ⟨j, f, hf, hfc, hfk, fun j' f' hj' hf' => hfirst (j' + 1) f' (Nat.succ_lt_succ hj') hf'⟩

/-- Settles O28, by induction on the table. -/
theorem lookupTakesTheLowestIndex : Obligations.LookupTakesTheLowestIndex :=
  fun _ _ => ⟨fun _ => lookup_eq_some_iff, lookup_eq_none_iff⟩

/-! ## The selected entry -/

/-- The first bit of a bit string is the highest of its value (10_state R38). -/
theorem getElem?_eq_testBit_bitsVal (bs : Bits) {i : Nat} (h : i < bs.length) :
    bs[i]? = some ((bitsVal bs).testBit (bs.length - 1 - i)) := by
  induction bs generalizing i with
  | nil => simp at h
  | cons b bs ih =>
    rw [bitsVal, Nat.mul_comm, Nat.testBit_two_pow_mul_add _ (bitsVal_lt bs)]
    cases i with
    | zero => cases b <;> simp
    | succ i =>
      have hi : i < bs.length := by simpa using h
      rw [List.getElem?_cons_succ, ih hi, List.length_cons, if_pos (by omega)]
      congr 2
      omega

theorem code_length_le_of_valid {p : Instance} (hp : validInstance p = true) {e : Entry} (he : e ∈ p.codeTable) :
    e.code.length ≤ 32 := by
  simp only [validInstance, paramsInRange, codesShort, Bool.and_eq_true, decide_eq_true_eq, List.all_eq_true] at hp
  obtain ⟨hrange, _, hshort, _⟩ := hp
  have := hshort e he
  omega

theorem testBit_eq_false_of_lt_64 {n j : Nat} (hn : n < 64) (hj : 6 ≤ j) : n.testBit j = false :=
  Nat.testBit_lt_two_pow (hn.trans_le (Nat.pow_le_pow_right (n := 2) (by decide) hj))

/-- Where the fields of TBL_DATA stand, for a length that fits its field (10_state R37). -/
theorem getLsbD_tblData {len : Nat} (hlen : len < 64) (c : Byte) (i : Nat) :
    ((BitVec.ofNat 32 len <<< 8) ||| c.zeroExtend 32).getLsbD i = if i < 8 then c.getLsbD i else len.testBit (i - 8) := by
  have hhigh : ∀ j, 6 ≤ j → len.testBit j = false := fun j => testBit_eq_false_of_lt_64 hlen
  simp only [BitVec.getLsbD_or, BitVec.getLsbD_shiftLeft, BitVec.getLsbD_ofNat, BitVec.getLsbD_setWidth,
    BitVec.truncate_eq_setWidth]
  grind

/-- Settles O20: the selected entry's char, length and code, each at its bits. -/
theorem tableRegistersShowTheSelectedEntry : Obligations.TableRegistersShowTheSelectedEntry := by
  refine ⟨fun s hvalid => ⟨reads_of_specified (by decide) rfl rfl, s.tblDataWord, s.tblCodeWord,
    reads_of_specified (by decide) rfl rfl, reads_of_specified (by decide) rfl rfl, fun e he => ?_, fun hpast => ?_⟩,
    rfl, rfl, rfl⟩
  · have hlen : e.code.length ≤ 32 := code_length_le_of_valid hvalid (List.mem_of_getElem? he)
    have hdata : ∀ i, s.tblDataWord.getLsbD i = if i < 8 then e.char.getLsbD i else e.code.length.testBit (i - 8) :=
      fun i => by rw [State.tblDataWord, he]; exact getLsbD_tblData (by omega) e.char i
    have hcode : ∀ i, s.tblCodeWord.getLsbD i = (decide (i < 32) && (bitsVal e.code).testBit i) :=
      fun i => by rw [State.tblCodeWord, he]; exact BitVec.getLsbD_ofNat ..
    have hlength : s.tblDataWord.extractLsb' 8 6 = BitVec.ofNat 6 e.code.length :=
      extractLsb'_eq_of_getLsbD fun i hi => by
        rw [hdata, if_neg (by omega), Nat.add_sub_cancel_left, BitVec.getLsbD_ofNat, decide_eq_true hi, Bool.true_and]
    refine ⟨extractLsb'_eq_of_getLsbD fun i hi => by simp [hdata, hi], ?_,
      extractLsb'_eq_of_getLsbD fun i hi => ?_, fun i hi => ?_, fun i hi => ?_⟩
    · rw [hlength, BitVec.toNat_ofNat, Nat.mod_eq_of_lt (by omega)]
    · rw [hdata, if_neg (by omega), testBit_eq_false_of_lt_64 (by omega) (by omega), BitVec.getLsbD_zero]
    · rw [hcode, getElem?_eq_testBit_bitsVal _ hi, decide_eq_true (by omega), Bool.true_and]
    · rw [hcode, Nat.testBit_lt_two_pow ((bitsVal_lt e.code).trans_le (Nat.pow_le_pow_right (by decide) hi)),
        Bool.and_false]
  · have hnone : s.inst.codeTable[s.tblSel.toNat]? = none := List.getElem?_eq_none hpast
    simp [State.tblDataWord, State.tblCodeWord, hnone]

/-! ## DEFAULT_TABLE -/

theorem prefixFree_iff_forall_fin (table : List Entry) :
    PrefixFree table ↔ ∀ i j : Fin table.length, i ≠ j → ¬ table[i].code <+: table[j].code := by
  constructor
  · intro h i j hne
    exact h i j _ _ (List.getElem?_eq_getElem i.2) (List.getElem?_eq_getElem j.2) (Fin.val_ne_of_ne hne)
  · intro h i j e f hi hj hne
    obtain ⟨hi', rfl⟩ := List.getElem?_eq_some_iff.mp hi
    obtain ⟨hj', rfl⟩ := List.getElem?_eq_some_iff.mp hj
    exact h ⟨i, hi'⟩ ⟨j, hj'⟩ (by simpa using hne)

/-- Settles O42: closed facts of the 28 printed codes, each by evaluation. -/
theorem defaultTableProperties : Obligations.DefaultTableProperties :=
  ⟨rfl, by decide +kernel, (prefixFree_iff_forall_fin _).mpr (by decide +kernel), by decide +kernel, by decide +kernel,
    by decide +kernel, by decide +kernel, by decide +kernel⟩

/-- Settles O43: closed facts of one tree of 55 nodes, each by evaluation. -/
theorem defaultTreeIsComplete : Obligations.DefaultTreeIsComplete := by
  refine ⟨?_, ?_, ?_, ?_, ?_, ?_, ?_⟩ <;> decide +kernel

end Sys2Proof.Machine
end

section
/-! PROOF. The window, the buffers and the input: which accesses answer a bus error, what reserved offsets and
the two buffers answer, and what an undefined input byte does to a command (20_memory R53 to R61, R66). -/

namespace Sys2Proof.Machine

variable {s : State}

/-! ## Bus errors -/

/-- Every offset of the window is a register's, a buffer byte's or reserved (20_memory R53). -/
theorem window_cases (p : Instance) {off : Nat} (h : off < 0x40000) :
    off < 0x100 ∨ (∃ i, off = 0x10000 + i ∧ i < p.ibufSize ∧ i < 0x10000) ∨
    (∃ i, off = 0x20000 + i ∧ i < p.obufSize ∧ i < 0x10000) ∨ ReservedOffset p off := by
  unfold ReservedOffset
  by_cases hibuf : 0x10000 ≤ off ∧ off < 0x10000 + p.ibufSize ∧ off < 0x20000
  · exact .inr (.inl ⟨off - 0x10000, by omega⟩)
  · by_cases hobuf : 0x20000 ≤ off ∧ off < 0x20000 + p.obufSize ∧ off < 0x30000
    · exact .inr (.inr (.inl ⟨off - 0x20000, by omega⟩))
    · omega

/-- Whether a region takes no access of a width (20_memory R56, R57). -/
def Region.rejects (width : Nat) : Region → Bool
  | .regs o => !regAccessOk width o
  | .ibuf _ | .obuf _ => width != 8
  | .reserved => false

/-- The accesses of 20_memory R57 are those the region of their lowest offset rejects. -/
theorem rejects_iff_badAccess {p : Instance} {off : Nat} (width : Nat) (h : off < 0x40000) :
    (regionOf p off).rejects width = true ↔ BadAccess p width off := by
  unfold BadAccess
  rcases window_cases p h with hreg | ⟨i, rfl, hi, hi'⟩ | ⟨i, rfl, hi, hi'⟩ | hres
  · rw [regionOf_regs p hreg]
    simp only [Region.rejects, regAccessOk, Bool.not_eq_true', Bool.and_eq_false_iff, beq_eq_false_iff_ne]
    omega
  · rw [regionOf_ibuf_at p hi hi']
    simp only [Region.rejects, bne_iff_ne]
    omega
  · rw [regionOf_obuf_at p hi hi']
    simp only [Region.rejects, bne_iff_ne]
    omega
  · rw [regionOf_reserved p hres]
    unfold ReservedOffset at hres
    simp only [Region.rejects, Bool.false_eq_true, false_iff]
    omega

theorem readIbuf_ne_busError (i : Nat) (s : State) : readIbuf i s ≠ .fault .busError := by
  unfold readIbuf
  split <;> nofun

theorem readObuf_ne_busError (i : Nat) (s : State) : readObuf i s ≠ .fault .busError := by
  unfold readObuf
  split
  · nofun
  · split <;> nofun

theorem readOffset_eq_busError_iff {width off : Nat} :
    readOffset width off s = .fault .busError ↔ (regionOf s.inst off).rejects width = true := by
  unfold readOffset
  cases regionOf s.inst off with
  | regs o => cases h : regAccessOk width o <;> simp [Region.rejects, h]
  | ibuf i => by_cases h : width = 8 <;> simp [Region.rejects, h, readIbuf_ne_busError]
  | obuf i => by_cases h : width = 8 <;> simp [Region.rejects, h, readObuf_ne_busError]
  | reserved => simp [Region.rejects]

theorem writeOffset_eq_busError_iff {width off : Nat} {v : Word} :
    writeOffset width off v s = .fault .busError ↔ (regionOf s.inst off).rejects width = true := by
  unfold writeOffset
  cases regionOf s.inst off with
  | regs o => cases h : regAccessOk width o <;> simp [Region.rejects, h]
  | ibuf i => by_cases h : width = 8 <;> simp [Region.rejects, h]
  | obuf i => by_cases h : width = 8 <;> simp [Region.rejects, h]
  | reserved => simp [Region.rejects]

/-- Settles O9: reads and writes fail where the region rejects the access, and nowhere else. -/
theorem busErrorsExactly : Obligations.BusErrorsExactly := by
  intro s width off v hoff
  rw [busRead_base s width hoff, busWrite_base s width v hoff, readOffset_eq_busError_iff, writeOffset_eq_busError_iff,
    rejects_iff_badAccess width hoff]
  exact ⟨Iff.rfl, Iff.rfl⟩

/-! ## Reserved offsets -/

theorem ReservedOffset.lt_window {p : Instance} {off : Nat} (h : ReservedOffset p off) : off < 0x40000 := by
  unfold ReservedOffset at h
  omega

/-- The registers end below 0x3C (10_state R39). -/
theorem regAt_eq_none {off : Nat} (h : 0x3C ≤ off) : regAt off = .none := by
  unfold regAt
  split
  case h_16 => rfl
  all_goals omega

/-- Settles O10: reserved space answers 0 to any read, and the registers past the last one are all `Reg.none`. -/
theorem reservedOffsetsReadZeroAndIgnoreWrites : Obligations.ReservedOffsetsReadZeroAndIgnoreWrites := by
  refine ⟨fun s width off v hres => ?_, fun s off v hlow hhigh ha => ?_⟩
  · rw [busRead_base s width hres.lt_window, busWrite_base s width v hres.lt_window]
    simp [readOffset, writeOffset, regionOf_reserved _ hres]
  · rw [busRead_reg s (by omega) ha, busWrite_reg s v (by omega) ha, regAt_eq_none hlow]
    exact ⟨congrArg _ (readReg_specified s rfl), rfl⟩

/-- Settles O11: the only trace a read leaves is the count of an unspecified value, which is drawn while busy only. -/
theorem hostReadsHaveNoSideEffect : Obligations.HostReadsHaveNoSideEffect := by
  intro s t width addr v hread
  refine ⟨busRead_next hread, fun idle => ?_⟩
  rcases busRead_next hread with rfl | ⟨busy, _⟩
  · exact hread
  · exact absurd busy (by simp [idle])

/-! ## The buffers -/

theorem readIbuf_of_defined {i : Nat} {b : Byte} (h : s.ibuf.read i = some b) :
    readIbuf i s = .next (b.setWidth 32, s) := by simp [readIbuf, h]

theorem readIbuf_of_undefined {i : Nat} (h : s.ibuf.read i = none) : readIbuf i s = .fault .undefinedRead := by
  simp [readIbuf, h]

theorem readObuf_of_defined {i : Nat} {b : Byte} (idle : s.busy = false) (h : s.obuf.read i = some b) :
    readObuf i s = .next (b.setWidth 32, s) := by simp [readObuf, idle, h]

theorem readObuf_of_undefined {i : Nat} (idle : s.busy = false) (h : s.obuf.read i = none) :
    readObuf i s = .fault .undefinedRead := by simp [readObuf, idle, h]

theorem writeIbufByte_idle (i : Nat) (v : Word) (idle : s.busy = false) :
    writeIbufByte i v s = s.writeIbuf i (v.extractLsb' 0 8) := by simp [writeIbufByte, idle]

theorem writeIbufByte_busy (i : Nat) (v : Word) (busy : s.busy = true) : writeIbufByte i v s = s := by
  simp [writeIbufByte, busy]

/-- Settles O16: a written byte is what a read finds there, and IBUF is read the same busy or idle. -/
theorem ibufWritesAndReads : Obligations.IbufWritesAndReads := by
  intro s i hi hi'
  refine ⟨fun v idle => ?_, fun v busy => ?_, fun b hb => ?_, fun hnone => ?_⟩
  · have hread : (s.writeIbuf i (v.extractLsb' 0 8)).ibuf.read i = some (v.extractLsb' 0 8) :=
      Memory.read_write_same _ _ _
    refine ⟨s.writeIbuf i (v.extractLsb' 0 8), ?_, ?_, fun j hj => Memory.read_write_other _ _ hj, rfl, ?_⟩
    · rw [busWrite_ibuf s v hi hi', writeIbufByte_idle i v idle]
    · rw [hread, BitVec.setWidth_eq_extractLsb' (by decide)]
    · refine (busRead_ibuf (s.writeIbuf i (v.extractLsb' 0 8)) hi hi').trans ?_
      rw [readIbuf_of_defined hread, setWidth_extractLsb'_zero v (n := 8) (by decide)]
      rfl
  · rw [busWrite_ibuf s v hi hi', writeIbufByte_busy i v busy]
  · rw [busRead_ibuf s hi hi', readIbuf_of_defined hb]
  · rw [busRead_ibuf s hi hi', readIbuf_of_undefined hnone]

/-- Settles O17: a write of OBUF is the identity, and an idle read answers what OBUF holds. -/
theorem obufIsReadOnlyToTheHost : Obligations.ObufIsReadOnlyToTheHost := by
  intro s i hi hi'
  refine ⟨fun v => busWrite_obuf s v hi hi', fun b idle hb => ?_, fun idle hnone => ?_⟩
  · rw [busRead_obuf s hi hi', readObuf_of_defined idle hb]
  · rw [busRead_obuf s hi hi', readObuf_of_undefined idle hnone]

/-! ## The input of a command -/

/-- Every command but BUILD has the shape of a command that reads its input (40_command_framework R89). -/
theorem exec_eq_runCommand {i : Instr} (h : i ≠ .build) : ∃ prep op, ∀ s, exec i s = runCommand prep op s := by
  cases i with
  | build => exact absurd rfl h
  | tobits => exact ⟨id, opTobits, fun _ => rfl⟩
  | chunk => exact ⟨id, opChunk, fun _ => rfl⟩
  | join => exact ⟨id, opJoin, fun _ => rfl⟩
  | tohex => exact ⟨id, opTohex, fun _ => rfl⟩
  | fromhex => exact ⟨id, opFromhex, fun _ => rfl⟩
  | tokjoin => exact ⟨id, opTokjoin, fun _ => rfl⟩
  | toksplit => exact ⟨id, opToksplit, fun _ => rfl⟩
  | decode => exact ⟨ensureTree, opDecode, fun _ => rfl⟩
  | pack => exact ⟨id, opPack, fun _ => rfl⟩
  | unpack => exact ⟨ensureTree, opUnpack, fun _ => rfl⟩

/-- Settles O27: the shared shape of the reading commands stops at the input, and BUILD answers a commit. -/
theorem undefinedInputHasNoCommit : Obligations.UndefinedInputHasNoCommit := by
  refine ⟨fun i s j hbuild hlen hj hnone => ?_, fun s => nofun⟩
  obtain ⟨prep, op, hexec⟩ := exec_eq_runCommand hbuild
  rw [hexec, runCommand_undefined hlen hj hnone]

end Sys2Proof.Machine
end

section
/-! PROOF. Command words, the fields and the decoding of a word (30_encoding R75 to R78), and the step that runs the
latched word (40_command_framework R88). -/

namespace Sys2Proof.Machine

/-! ## Fields and decoding -/

theorem toNat_opField (v : Word) : (opField v).toNat = v.toNat % 16 := by
  simp [opField, BitVec.extractLsb'_toNat]

theorem mbzField_eq_zero_iff {v : Word} : mbzField v = 0#28 ↔ v.toNat / 16 = 0 := by
  have hlt : v.toNat / 16 < 2 ^ 28 := by omega
  rw [← BitVec.toNat_inj, mbzField, BitVec.extractLsb'_toNat, Nat.shiftRight_eq_div_pow, Nat.mod_eq_of_lt hlt]
  rfl

/-- The MBZ bits of a command's word add nothing to its OP (30_encoding R75). -/
theorem toNat_encode (i : Instr) : (encode i).toNat = (opcodeOf i).toNat :=
  (BitVec.toNat_append 0#28 (opcodeOf i)).trans (by simp)

/-- The opcode map has one row for each command, that of its opcode (30_encoding R76). -/
theorem opcodeMap_eq_some_iff {n : Nat} {i : Instr} : opcodeMap n = some i ↔ n = (opcodeOf i).toNat := by
  constructor
  · intro h
    unfold opcodeMap at h
    split at h <;> cases h <;> rfl
  · rintro rfl
    cases i <;> rfl

/-- The opcodes without a row are 0x0 and those from 0xC on (30_encoding R77). -/
theorem opcodeMap_eq_none_iff {n : Nat} : opcodeMap n = none ↔ n = 0 ∨ 12 ≤ n := by
  constructor
  · intro h
    by_contra hrow
    obtain ⟨hpos, hlt⟩ : 0 < n ∧ n < 12 := by omega
    interval_cases n <;> cases h
  · intro h
    unfold opcodeMap
    split
    case h_12 => rfl
    all_goals omega

theorem decode_eq_ok_iff_fields {v : Word} {i : Instr} :
    decode v = .ok i ↔ mbzField v = 0#28 ∧ opcodeMap (opField v).toNat = some i := by
  unfold decode
  split
  · next hmbz => cases opcodeMap (opField v).toNat <;> simp [hmbz]
  · next hmbz => simp [hmbz]

/-- A word is a command exactly when it is that command's encoding (30_encoding R78). -/
theorem decode_eq_ok_iff {v : Word} {i : Instr} : decode v = .ok i ↔ v = encode i := by
  have hop := (opcodeOf i).isLt
  rw [decode_eq_ok_iff_fields, mbzField_eq_zero_iff, opcodeMap_eq_some_iff, toNat_opField, ← BitVec.toNat_inj,
    toNat_encode]
  omega

theorem decode_eq_error_iff_fields {v : Word} :
    (∃ e, decode v = .error e) ↔ mbzField v ≠ 0#28 ∨ opcodeMap (opField v).toNat = none := by
  unfold decode
  split
  · next hmbz => cases opcodeMap (opField v).toNat <;> simp [hmbz]
  · next hmbz => simp [hmbz]

/-- Decoding rejects exactly the reserved words (30_encoding R77, R78). -/
theorem decode_eq_error_iff {v : Word} : (∃ e, decode v = .error e) ↔ ReservedWord v := by
  rw [decode_eq_error_iff_fields, ne_eq, mbzField_eq_zero_iff, opcodeMap_eq_none_iff, toNat_opField, ReservedWord]

theorem decode_encode (i : Instr) : decode (encode i) = .ok i := decode_eq_ok_iff.2 rfl

theorem reservedWord_or_decodes (v : Word) : ReservedWord v ∨ ∃ i, decode v = .ok i := by
  cases h : decode v with
  | ok i => exact .inr ⟨i, rfl⟩
  | error e => exact .inl (decode_eq_error_iff.1 ⟨e, h⟩)

/-- Settles O2: a command is its OP under a zero MBZ, and the opcodes without a row are the reserved ones. -/
theorem decodingAndEncodingAgree : Obligations.DecodingAndEncodingAgree :=
  ⟨decode_encode, fun _ _ => decode_eq_ok_iff.1, fun _ => decode_eq_error_iff⟩

/-- Settles O1: each row is the encoding of its command, and the reserved words are evaluated. -/
theorem commandWordsDecodeAsTheOpcodeMap : Obligations.CommandWordsDecodeAsTheOpcodeMap :=
  ⟨decode_encode .build, decode_encode .tobits, decode_encode .chunk, decode_encode .join, decode_encode .tohex,
    decode_encode .fromhex, decode_encode .tokjoin, decode_encode .toksplit, decode_encode .decode, decode_encode .pack,
    decode_encode .unpack, rfl, rfl, rfl, rfl, rfl⟩

/-! ## A step on the engine's and on a host's turn -/

variable {s : State}

theorem dropTurn_of_nil (h : s.turns = []) : s.dropTurn = s := by
  cases s
  subst h
  rfl

/-- A step takes the turn at the head of the schedule. -/
theorem step_of_turns_cons (hv : validInstance s.inst = true) {m : Turn} {rest : List Turn} (h : s.turns = m :: rest) :
    step s = runTurn m { s with turns := rest } := by
  have hnext : s.nextTurn = m := by simp [State.nextTurn, h]
  have hdrop : s.dropTurn = { s with turns := rest } := by simp [State.dropTurn, h]
  rw [step_of_valid hv, hnext, hdrop]

/-- With the schedule used up a busy engine takes the step (log entry 7). -/
theorem step_of_turns_nil_busy (hv : validInstance s.inst = true) (busy : s.busy = true) (h : s.turns = []) :
    step s = runTurn .engine s := by
  have hnext : s.nextTurn = .engine := by simp [State.nextTurn, h, busy]
  rw [step_of_valid hv, hnext, dropTurn_of_nil h]

theorem runTurn_engine_of_command (busy : s.busy = true) {i : Instr} (word : decode s.latchedCmd = .ok i) :
    runTurn .engine s = exec i s := by
  simp [runTurn, engineStep, busy, word]

theorem runTurn_engine_of_reserved (busy : s.busy = true) (word : ReservedWord s.latchedCmd) :
    runTurn .engine s = .next (s.commitErr .badCmd) := by
  obtain ⟨e, he⟩ := decode_eq_error_iff.2 word
  simp [runTurn, engineStep, busy, he]

/-- Settles O3: the turn is the schedule's head, or the busy engine's, and the engine runs the word it latched. -/
theorem stepRunsTheLatchedCommand : Obligations.StepRunsTheLatchedCommand := by
  refine ⟨fun s i hv busy word => ⟨fun hnil => ?_, fun rest hcons => ?_⟩, fun s k rest hv hcons => ?_⟩
  · rw [step_of_turns_nil_busy hv busy hnil, runTurn_engine_of_command busy word]
  · rw [step_of_turns_cons hv hcons]
    exact runTurn_engine_of_command (s := { s with turns := rest }) busy word
  · exact step_of_turns_cons hv hcons

theorem busWrite_cmd_idle (v : Word) (idle : s.busy = false) :
    busWrite 32 (s.inst.blockBase + 0x0C) v s = .next (s.start v) := by
  rw [busWrite_reg s v (by decide) rfl]
  simp [regAt, writeReg, idle]

/-- Settles O4: the commit of BAD_CMD is an error's commit on the state itself. -/
theorem reservedWordsCompleteWithBadCmd : Obligations.ReservedWordsCompleteWithBadCmd := by
  refine ⟨fun s v idle => ⟨s.start v, busWrite_cmd_idle v idle, rfl, rfl⟩, fun s rest hv busy hcons word => ?_,
    reservedWord_or_decodes⟩
  refine ⟨({ s with turns := rest } : State).commitErr .badCmd, ?_, commitErr_fails _ _,
    commit_sameTree _ (.error .badCmd), commit_sameElsewhere _ (.error .badCmd)⟩
  rw [step_of_turns_cons hv hcons]
  exact runTurn_engine_of_reserved (s := { s with turns := rest }) busy word

end Sys2Proof.Machine
end

section
/-! PROOF. Host programs: the values of expressions, one equation per statement of an agent's turn, and LOAD as an
induction over the bytes it has left (30_encoding R85, R86). -/

namespace Sys2Proof.Machine

/-! ## Expressions -/

/-- A bit field of a word as the host computes it: shifted down and cut off (00_scope R12). -/
theorem toNat_extractLsb'_eq_div_mod (w : Word) (lo len : Nat) :
    (w.extractLsb' lo len).toNat = w.toNat / 2 ^ lo % 2 ^ len := by
  rw [BitVec.extractLsb'_toNat, Nat.shiftRight_eq_div_pow]

/-- Settles O58: each clause is one equation of `evalExpr`, given the values of the operands. -/
theorem hostExpressionsHaveTheirValues : Obligations.HostExpressionsHaveTheirValues := by
  refine fun vars => ⟨fun n => rfl, fun x e i he => ?_, fun bytes e i b he hb => ?_, fun d e m n hd he => ⟨?_, ?_⟩,
    fun d w hi lo _ _ hd => ?_⟩
  · simp [evalExpr, he]
  · simp [evalExpr, he, hb]
  · simp [evalExpr, hd, he]
  · simp [evalExpr, hd, he]
  · rw [toNat_extractLsb'_eq_div_mod, evalExpr, hd, Option.map_some]

/-! ## One turn of an agent -/

section Turn

variable {s t : State} {k : Nat} {a : HostAgent} {rest : List HostStmt}
variable (ha : s.hosts[k]? = some a)
include ha

theorem hostStep_wr {width o v : Nat} {off val : HostExpr} (hp : a.prog = .wr width off val :: rest)
    (ho : evalExpr a.vars off = some o) (hv : evalExpr a.vars val = some v)
    (hw : busWrite width (s.inst.blockBase + o) (BitVec.ofNat 32 v) s = .next t) :
    hostStep k s = .next (withAgent t k rest a.vars) := by
  simp [hostStep_cons ha hp, runStmt, ho, hv, hw]

theorem hostStep_wr_fault {width o v : Nat} {off val : HostExpr} {f : Fault} (hp : a.prog = .wr width off val :: rest)
    (ho : evalExpr a.vars off = some o) (hv : evalExpr a.vars val = some v)
    (hw : busWrite width (s.inst.blockBase + o) (BitVec.ofNat 32 v) s = .fault f) : hostStep k s = .fault f := by
  simp [hostStep_cons ha hp, runStmt, ho, hv, hw]

theorem hostStep_rd {width x o i : Nat} {off idx : HostExpr} {v : Word} (hp : a.prog = .rd width off x idx :: rest)
    (ho : evalExpr a.vars off = some o) (hi : evalExpr a.vars idx = some i)
    (hr : busRead width (s.inst.blockBase + o) s = .next (v, t)) :
    hostStep k s = .next (withAgent t k rest (assignVar a.vars (x, i) v.toNat)) := by
  simp [hostStep_cons ha hp, runStmt, ho, hi, hr]

theorem hostStep_rd_fault {width x o i : Nat} {off idx : HostExpr} {f : Fault}
    (hp : a.prog = .rd width off x idx :: rest) (ho : evalExpr a.vars off = some o) (hi : evalExpr a.vars idx = some i)
    (hr : busRead width (s.inst.blockBase + o) s = .fault f) : hostStep k s = .fault f := by
  simp [hostStep_cons ha hp, runStmt, ho, hi, hr]

theorem hostStep_poll {off : HostExpr} {o mask val : Nat} {v : Word} (hp : a.prog = .poll off mask val :: rest)
    (ho : evalExpr a.vars off = some o) (hr : busRead 32 (s.inst.blockBase + o) s = .next (v, t)) :
    hostStep k s = .next (withAgent t k (if v.toNat &&& mask = val then rest else a.prog) a.vars) := by
  simp only [hostStep_cons ha hp, runStmt, ho, hr, hp]
  split <;> rfl

theorem hostStep_forIn_next {i x y : Nat} {lo hi : HostExpr} {body : HostStmt}
    (hp : a.prog = .forIn i lo hi body :: rest)
    (hlo : evalExpr a.vars lo = some x) (hhi : evalExpr a.vars hi = some y) (hlt : x < y) :
    hostStep k s =
      .next (withAgent s k (body :: .forIn i (.lit (x + 1)) (.lit y) body :: rest) (assignVar a.vars (i, 0) x)) := by
  simp [hostStep_cons ha hp, runStmt, hlo, hhi, hlt]

theorem hostStep_forIn_done {i x y : Nat} {lo hi : HostExpr} {body : HostStmt}
    (hp : a.prog = .forIn i lo hi body :: rest)
    (hlo : evalExpr a.vars lo = some x) (hhi : evalExpr a.vars hi = some y) (hle : y ≤ x) :
    hostStep k s = .next (withAgent s k rest a.vars) := by
  simp [hostStep_cons ha hp, runStmt, hlo, hhi, hle.not_gt]

theorem hostStep_seq {b c : HostStmt} (hp : a.prog = .seq b c :: rest) :
    hostStep k s = .next (withAgent s k (b :: c :: rest) a.vars) := by
  simp [hostStep_cons ha hp, runStmt]

theorem hostStep_failIf {code : HostExpr} {c : Nat} (hp : a.prog = .failIf code :: rest)
    (hc : evalExpr a.vars code = some c) :
    hostStep k s = .next (withAgent s k (if c = 0 then rest else []) a.vars) := by
  simp [hostStep_cons ha hp, runStmt, hc]

end Turn

/-- Settles O22: one equation per statement; an assignment changes the variable assigned and no other. -/
theorem hostStatementsAreBusAccesses : Obligations.HostStatementsAreBusAccesses := by
  intro s k a rest ha
  refine ⟨fun width off val o v hp ho hv => ⟨fun t => hostStep_wr ha hp ho hv, fun f => hostStep_wr_fault ha hp ho hv⟩,
    fun width x off idx o i hp ho hi => ⟨fun v t hr => ?_, fun f => hostStep_rd_fault ha hp ho hi⟩,
    fun off o mask val v t => hostStep_poll ha,
    fun i x y lo hi body hp hlo hhi => ⟨fun hlt => ?_, hostStep_forIn_done ha hp hlo hhi⟩,
    fun b c => hostStep_seq ha, fun code c => hostStep_failIf ha⟩
  · exact ⟨_, hostStep_rd ha hp ho hi hr, assignVar_assigned _ _ _⟩
  · exact ⟨_, assignVar_assigned _ _ _, hostStep_forIn_next ha hp hlo hhi hlt⟩

/-! ## LOAD -/

/-- A buffer with a byte string written into it from index `m` on. -/
def Memory.writeBytes (mem : Memory) (m : Nat) : List Byte → Memory
  | [] => mem
  | b :: bs => Memory.writeBytes (mem.write m b) (m + 1) bs

theorem Memory.read_writeBytes (mem : Memory) (m : Nat) (bs : List Byte) (j : Nat) :
    (mem.writeBytes m bs).read j = if m ≤ j ∧ j < m + bs.length then bs[j - m]? else mem.read j := by
  induction bs generalizing mem m with
  | nil =>
    have hempty : ¬ (m ≤ j ∧ j < m + 0) := by omega
    rw [Memory.writeBytes, List.length_nil, if_neg hempty]
  | cons b bs ih =>
    rw [Memory.writeBytes, ih, Memory.read_write, List.length_cons]
    rcases Nat.lt_trichotomy j m with hlt | rfl | hgt
    · simp [show ¬ m ≤ j by omega, show ¬ m + 1 ≤ j by omega, hlt.ne]
    · simp
    · have hsub : j - m = j - (m + 1) + 1 := by omega
      simp [hgt.ne', show m ≤ j by omega, show m + 1 ≤ j by omega, hsub, Nat.add_assoc, Nat.add_comm 1]

/-- The state with a byte string written into IBUF from index `m` on. -/
def State.loadIbuf (m : Nat) (bs : List Byte) (s : State) : State := { s with ibuf := s.ibuf.writeBytes m bs }

theorem State.loadIbuf_nil (m : Nat) (s : State) : s.loadIbuf m [] = s := rfl

theorem State.loadIbuf_cons (m : Nat) (b : Byte) (bs : List Byte) (s : State) :
    s.loadIbuf m (b :: bs) = (s.writeIbuf m b).loadIbuf (m + 1) bs := rfl

/-- The write of one byte in LOAD's loop (30_encoding R86). -/
def loadBody (i : Nat) (text : List Byte) : HostStmt :=
  .wr 8 (.add (.lit 0x10000) (hostVar i)) (.byteAt text (hostVar i))

/-- LOAD's loop with the bytes from index `m` on still to write (30_encoding R86). -/
def loadLoop (i m : Nat) (text : List Byte) : HostStmt := .forIn i (.lit m) (.lit text.length) (loadBody i text)

theorem loadStmts_eq (i : Nat) (text : List Byte) : loadStmts i text = [loadLoop i 0 text, wr32 0x14 text.length] := rfl

theorem withAgent_self {s : State} {k : Nat} {a : HostAgent} (ha : s.hosts[k]? = some a) :
    withAgent s k a.prog a.vars = s := by
  obtain ⟨hk, rfl⟩ := List.getElem?_eq_some_iff.1 ha
  exact congrArg (fun hs => s.setHosts hs) (List.set_getElem_self hk)

theorem writeIbuf_withAgent (s : State) (k : Nat) (prog : List HostStmt) (vars : List ((Nat × Nat) × Nat)) (m : Nat)
    (b : Byte) : (withAgent s k prog vars).writeIbuf m b = withAgent (s.writeIbuf m b) k prog vars := rfl

theorem setIlen_withAgent (s : State) (k : Nat) (prog : List HostStmt) (vars : List ((Nat × Nat) × Nat)) (v : Word) :
    (withAgent s k prog vars).setIlen v = withAgent (s.setIlen v) k prog vars := rfl

theorem busWrite_ilen_idle {s : State} (v : Word) (idle : s.busy = false) :
    busWrite 32 (s.inst.blockBase + 0x14) v s = .next (s.setIlen v) := by
  rw [busWrite_reg s v (by decide) rfl]
  simp [regAt, writeReg, idle]

/-- A byte the host carries in a word is written as that byte (log entry 21). -/
theorem busWrite_ibuf_idle {s : State} {m : Nat} (b : Byte) (idle : s.busy = false) (hm : m < s.inst.ibufSize)
    (hm' : m < 0x10000) :
    busWrite 8 (s.inst.blockBase + (0x10000 + m)) (BitVec.ofNat 32 b.toNat) s = .next (s.writeIbuf m b) := by
  have hb : (BitVec.ofNat 32 b.toNat).extractLsb' 0 8 = b := by
    rw [BitVec.ofNat_toNat, ← BitVec.setWidth_eq_extractLsb' (by decide), BitVec.setWidth_setWidth_of_le _ (by decide),
      BitVec.setWidth_eq]
  rw [← Nat.add_assoc, busWrite_ibuf s _ hm hm', writeIbufByte_idle m _ idle, hb]

section Load

variable {s : State} {k i : Nat} {a : HostAgent} {text : List Byte} {rest : List HostStmt}
variable {vars : List ((Nat × Nat) × Nat)}

/-- Two turns of LOAD's loop write one byte. -/
theorem hostTurns_loadLoop_next (ha : s.hosts[k]? = some a) (idle : s.busy = false)
    (hfit : text.length ≤ s.inst.ibufSize) (hsize : s.inst.ibufSize ≤ 65536) {m : Nat} {b : Byte}
    (hb : text[m]? = some b) (n : Nat) :
    hostTurns k (n + 2) (withAgent s k (loadLoop i m text :: rest) vars) =
      hostTurns k n (withAgent (s.writeIbuf m b) k (loadLoop i (m + 1) text :: rest) (assignVar vars (i, 0) m)) := by
  have hm : m < text.length := (List.getElem?_eq_some_iff.1 hb).1
  have hfor : hostStep k (withAgent s k (loadLoop i m text :: rest) vars) =
      .next (withAgent s k (loadBody i text :: loadLoop i (m + 1) text :: rest) (assignVar vars (i, 0) m)) :=
    (hostStep_forIn_next (withAgent_getElem? s ha _ vars) rfl rfl rfl hm).trans (by rw [withAgent_withAgent]; rfl)
  have hvar : evalExpr (assignVar vars (i, 0) m) (hostVar i) = some m := by simp [hostVar, evalExpr]
  have hwr : hostStep k
      (withAgent s k (loadBody i text :: loadLoop i (m + 1) text :: rest) (assignVar vars (i, 0) m)) =
      .next (withAgent (s.writeIbuf m b) k (loadLoop i (m + 1) text :: rest) (assignVar vars (i, 0) m)) :=
    (hostStep_wr (withAgent_getElem? s ha _ _) rfl (by simp [evalExpr, hvar]) (by simp [evalExpr, hvar, hb])
      (busWrite_ibuf_idle b idle (hm.trans_le hfit) (by omega))).trans (by rw [writeIbuf_withAgent, withAgent_withAgent])
  rw [hostTurns_succ hfor, hostTurns_succ hwr]

/-- LOAD's loop writes the bytes it has left and is used up. -/
theorem hostTurns_loadLoop {bs : List Byte} {m : Nat} (hbs : text.drop m = bs) (ha : s.hosts[k]? = some a)
    (idle : s.busy = false) (hfit : text.length ≤ s.inst.ibufSize) (hsize : s.inst.ibufSize ≤ 65536) (n : Nat) :
    ∃ vars', (∀ y, y ≠ (i, 0) → lookupVar vars' y = lookupVar vars y) ∧
      hostTurns k (2 * bs.length + 1 + n) (withAgent s k (loadLoop i m text :: rest) vars) =
        hostTurns k n (withAgent (s.loadIbuf m bs) k rest vars') := by
  induction bs generalizing s m vars with
  | nil =>
    have hend : hostStep k (withAgent s k (loadLoop i m text :: rest) vars) = .next (withAgent s k rest vars) :=
      (hostStep_forIn_done (withAgent_getElem? s ha _ vars) rfl rfl rfl (List.drop_eq_nil_iff.1 hbs)).trans
        (by rw [withAgent_withAgent])
    refine ⟨vars, fun _ _ => rfl, ?_⟩
    rw [List.length_nil, Nat.add_comm, hostTurns_succ hend, State.loadIbuf_nil]
  | cons b bs ih =>
    have hb : text[m]? = some b := by rw [← List.head?_drop, hbs, List.head?_cons]
    have hbs' : text.drop (m + 1) = bs := by rw [← List.tail_drop, hbs, List.tail_cons]
    obtain ⟨vars', hvars', hturns⟩ := ih (s := s.writeIbuf m b) (vars := assignVar vars (i, 0) m) hbs' ha
      idle hfit hsize
    refine ⟨vars', fun y hy => (hvars' y hy).trans (lookupVar_assignVar_other vars m hy), ?_⟩
    rw [List.length_cons, show 2 * (bs.length + 1) + 1 + n = 2 * bs.length + 1 + n + 2 by omega,
      hostTurns_loadLoop_next ha idle hfit hsize hb, hturns, State.loadIbuf_cons]

/-- The input of a state whose IBUF was loaded and whose ILEN was set. -/
theorem hasInput_loaded (hfit : text.length ≤ s.inst.ibufSize) (hsize : s.inst.ibufSize ≤ 65536) :
    HasInput (withAgent ((s.loadIbuf 0 text).setIlen (BitVec.ofNat 32 text.length)) k rest vars) text := by
  refine ⟨?_, hfit, fun j hj => ?_⟩
  · exact (BitVec.toNat_ofNat _ _).trans (Nat.mod_eq_of_lt (by omega))
  · exact (Memory.read_writeBytes s.ibuf 0 text j).trans (by simp [hj])

end Load

/-- Settles O57: the loop writes the text, by induction on the bytes left, and one more turn writes ILEN. -/
theorem loadPutsTheInputInPlace : Obligations.LoadPutsTheInputInPlace := by
  intro s k i a text rest idle hfit hsize ha hp
  obtain ⟨vars, hvars, hloop⟩ := hostTurns_loadLoop (i := i) (rest := wr32 0x14 text.length :: rest) (vars := a.vars)
    (List.drop_zero (l := text)) ha idle hfit hsize 1
  have hstart : withAgent s k (loadLoop i 0 text :: wr32 0x14 text.length :: rest) a.vars = s := by
    simpa only [hp, loadStmts_eq, List.cons_append, List.nil_append] using withAgent_self ha
  have hilen : hostStep k (withAgent (s.loadIbuf 0 text) k (wr32 0x14 text.length :: rest) vars) =
      .next (withAgent ((s.loadIbuf 0 text).setIlen (BitVec.ofNat 32 text.length)) k rest vars) :=
    (hostStep_wr (withAgent_getElem? (s.loadIbuf 0 text) ha _ vars) rfl rfl rfl (busWrite_ilen_idle _ idle)).trans
      (by rw [setIlen_withAgent, withAgent_withAgent])
  rw [hstart] at hloop
  refine ⟨_, vars, hloop.trans (hostTurns_succ hilen), hasInput_loaded hfit hsize, fun j hj => ?_, rfl, hvars, rfl⟩
  exact (Memory.read_writeBytes s.ibuf 0 text j).trans (by simp [hj])

end Sys2Proof.Machine
end

section
/-! PROOF. The command framework: how a command starts and ends, whose turn ends it, what its commit writes and keeps
(40_command_framework R87 to R90, 60_exceptions R135, R136). -/

namespace Sys2Proof.Machine

variable {s t : State}

/-! ## Starting a command -/

/-- Settles O14: an idle block takes the start update, a busy one is locked, and CMD reads as 0. -/
theorem cmdWriteStartsACommand : Obligations.CmdWriteStartsACommand := by
  intro s v
  refine ⟨fun idle => busWrite_cmd_idle v idle, fun busy => ?_, reads_of_specified (by decide) rfl rfl⟩
  obtain ⟨_, hcmd, _⟩ := lockedWhileBusy.1 s v busy
  exact hcmd

/-! ## Turns that pass, and turns that end a command -/

theorem runTurn_engine_idle (idle : s.busy = false) : runTurn .engine s = .next s := by simp [runTurn, idle]

/-- A turn of an agent that does not exist or has no statement left passes. -/
theorem hostStep_of_no_statement (k : Nat) (h : ∀ a ∈ s.hosts, a.prog = []) : hostStep k s = .next s := by
  unfold hostStep
  split
  · rfl
  · next a ha => rw [h a (List.mem_of_getElem? ha)]

/-- Settles O7: neither an engine that is not enabled nor an agent that is done has anything to do. -/
theorem idleBlockKeepsItsState : Obligations.IdleBlockKeepsItsState := by
  refine fun s rest hv idle => ⟨fun hcons => ?_, fun k hcons hdone => ?_⟩ <;> rw [step_of_turns_cons hv hcons]
  · exact runTurn_engine_idle idle
  · exact hostStep_of_no_statement k hdone

/-- No write clears BUSY (40_command_framework R88). -/
theorem WriteEffect.busy_of_busy (w : WriteEffect s t) (busy : s.busy = true) : t.busy = true := by
  cases w with
  | cmd v idle => rfl
  | _ => exact busy

theorem HostEffect.busy_of_busy (e : HostEffect s t) (busy : s.busy = true) : t.busy = true := by
  cases e with
  | wrote w hs => exact w.busy_of_busy busy
  | _ => exact busy

/-- Settles O5: the one other kind of turn is a host's, and no effect of a host's turn clears BUSY. -/
theorem onlyEngineOrResetEndsACommand : Obligations.OnlyEngineOrResetEndsACommand := by
  intro s t hstep busy idle
  obtain ⟨_, run⟩ := step_next hstep
  cases hturn : s.nextTurn with
  | engine => exact .inl rfl
  | reset => exact .inr rfl
  | host k =>
    rw [hturn] at run
    have still : t.busy = true := (hostStep_next run).busy_of_busy busy
    rw [still] at idle
    cases idle

/-! ## The frame of a command -/

/-- A command completes, and writes nothing but its results, the status and the tree (60_exceptions R136). -/
theorem exec_frame {i : Instr} (run : exec i s = .next t) : SameElsewhere s t ∧ t.done = true ∧ t.busy = false := by
  obtain ⟨u, res, hu, rfl, _⟩ := exec_next run
  refine ⟨?_, commit_done u res, commit_busy u res⟩
  rcases hu with rfl | rfl
  · exact commit_sameElsewhere u res
  · exact (ensureTree_sameElsewhere s).trans (commit_sameElsewhere _ res)

theorem runCommand_id_sameTree {op : State → List Byte → CommandResult} (run : runCommand id op s = .next t) :
    SameTree s t := by
  rcases runCommand_next run with rfl | ⟨input, _, rfl⟩
  · exact commit_sameTree s (.error .badLen)
  · exact commit_sameTree s _

/-- The commands that do not call EnsureTree have no preparation, so they leave the tree (44_decoding_tree R123). -/
theorem exec_sameTree {i : Instr} (hbuild : i ≠ .build) (hdecode : i ≠ .decode) (hunpack : i ≠ .unpack)
    (run : exec i s = .next t) : SameTree s t := by
  cases i with
  | build => exact absurd rfl hbuild
  | decode => exact absurd rfl hdecode
  | unpack => exact absurd rfl hunpack
  | _ => exact runCommand_id_sameTree run

/-- The tree after a command is the one before it or the one EnsureTree makes (44_decoding_tree R123). -/
theorem exec_sameTree_or_ensured {i : Instr} (run : exec i s = .next t) : SameTree s t ∨ TreeEnsured s t := by
  obtain ⟨u, res, rfl | rfl, rfl, _⟩ := exec_next run
  · exact .inl (commit_sameTree u res)
  · exact .inr (commit_sameTree (ensureTree s) res)

/-- Settles O23: a command is one commit, after EnsureTree at most, and only three commands call EnsureTree. -/
theorem commandsKeepEverythingElse : Obligations.CommandsKeepEverythingElse := by
  intro i s t run
  obtain ⟨helse, hdone, hbusy⟩ := exec_frame run
  exact ⟨helse, hdone, hbusy, fun hbuild hdecode hunpack => exec_sameTree hbuild hdecode hunpack run,
    exec_sameTree_or_ensured run⟩

/-- Settles O26: the length check is the first thing the shared shape of the reading commands does. -/
theorem badLenComesBeforeTheInput : Obligations.BadLenComesBeforeTheInput := by
  intro i s hbuild hlen
  obtain ⟨prep, op, hexec⟩ := exec_eq_runCommand hbuild
  refine ⟨s.commitErr .badLen, ?_, commitErr_fails s _, commit_sameTree s (.error .badLen),
    commit_sameElsewhere s (.error .badLen)⟩
  rw [hexec, runCommand_badLen hlen]

/-- Settles O6: the engine has the turn, and a reserved word and a command alike end in a commit, which sets DONE. -/
theorem usedUpScheduleLetsTheEngineFinish : Obligations.UsedUpScheduleLetsTheEngineFinish := by
  intro s t busy hnil hstep
  obtain ⟨hv, _⟩ := step_next hstep
  rw [step_of_turns_nil_busy hv busy hnil] at hstep
  rcases reservedWord_or_decodes s.latchedCmd with hreserved | ⟨i, hword⟩
  · rw [runTurn_engine_of_reserved busy hreserved] at hstep
    cases hstep
    exact ⟨rfl, rfl, Bool.and_true s.ie⟩
  · rw [runTurn_engine_of_command busy hword] at hstep
    obtain ⟨⟨_, hie, _⟩, hdone, hbusy⟩ := exec_frame hstep
    exact ⟨hbusy, hdone, by simp [State.irq, hie, hdone]⟩

/-! ## No partial result -/

theorem errorCode_ne_zero (c : ErrorKind) : errorCode c ≠ 0 := by cases c <;> decide

/-- Settles O24: a success commits exactly the bytes OLEN counts, which fit OBUF, and an error commits none. -/
theorem noPartialResults : Obligations.NoPartialResults := by
  intro i s t hvalid run
  have hinst := exec_inst_eq run
  obtain ⟨u, res, _, rfl, hfits⟩ := exec_next run
  have huinst : u.inst = s.inst := (commit_sameElsewhere u res).1.symm.trans hinst
  rcases res with c | ⟨out, r⟩
  · exact .inr ⟨errorCode_ne_zero c, rfl, rfl, fun _ => rfl⟩
  · obtain ⟨hlen, hdefined⟩ :=
      commit_outputOk u (by rw [huinst]; exact obufSize_le_of_valid hvalid) (by rwa [huinst])
    exact .inl ⟨rfl, hinst ▸ hlen, fun j => by rw [hdefined j, decide_eq_true_iff]⟩

end Sys2Proof.Machine
end

section
/-! PROOF. The numbers behind the layouts: hex digits, the value of a chunk and its bits (40_command_framework R99,
R100, 43_hex_codec R115). -/

namespace Sys2Proof.Machine

/-! ## Hex digits -/

theorem toNat_hexDigit_of_le_nine {d : Nat} (h : d ≤ 9) : (hexDigit d).toNat = 0x30 + d := by
  rw [hexDigit, if_pos h, BitVec.toNat_ofNat]
  omega

theorem toNat_hexDigit_of_ten_le {d : Nat} (h : 10 ≤ d) (h' : d ≤ 15) : (hexDigit d).toNat = 0x41 + (d - 10) := by
  rw [hexDigit, if_neg (by omega), BitVec.toNat_ofNat]
  omega

/-- HexVal is defined on the sixteen digits only, and inverts HexDigit there (40_command_framework R100). -/
theorem hexVal_eq_some_iff {c : Byte} {d : Nat} : hexVal c = some d ↔ d ≤ 15 ∧ c = hexDigit d := by
  constructor
  · intro h
    unfold hexVal at h
    split at h
    · cases h
      have hd : c.toNat - 0x30 ≤ 9 := by omega
      refine ⟨by omega, BitVec.eq_of_toNat_eq ?_⟩
      rw [toNat_hexDigit_of_le_nine hd]
      omega
    · split at h
      · cases h
        refine ⟨by omega, BitVec.eq_of_toNat_eq ?_⟩
        rw [toNat_hexDigit_of_ten_le (by omega) (by omega)]
        omega
      · cases h
  · rintro ⟨hd, rfl⟩
    exact hexVal_hexDigit (Nat.lt_succ_of_le hd)

/-! ## The value of a bit string -/

/-- Each bit counts as a power of two by its place from the end (43_hex_codec R115). -/
theorem bitsVal_eq_sum (bits : Bits) :
    bitsVal bits = ∑ i ∈ Finset.range bits.length, (bits.getD i false).toNat * 2 ^ (bits.length - 1 - i) := by
  induction bits with
  | nil => rfl
  | cons b bs ih =>
    rw [bitsVal, ih, List.length_cons, Finset.sum_range_succ', Nat.add_comm]
    refine congrArg₂ (· + ·) (Finset.sum_congr rfl fun i _ => ?_) rfl
    rw [List.getD_cons_succ, show bs.length + 1 - 1 - (i + 1) = bs.length - 1 - i by omega]

theorem getElem?_valBits {w i : Nat} (v : Nat) (h : i < w) : (valBits w v)[i]? = some (v.testBit (w - 1 - i)) := by
  simp [valBits, h]

theorem valBits_bitsVal (bits : Bits) : valBits bits.length (bitsVal bits) = bits := by
  refine List.ext_getElem? fun i => ?_
  by_cases hi : i < bits.length
  · rw [getElem?_valBits _ hi, getElem?_eq_testBit_bitsVal bits hi]
  · rw [List.getElem?_eq_none (by simpa using hi), List.getElem?_eq_none (by simpa using hi)]

/-- Below `2^w` a number is the value of its `w` bits: bit `j` of either is element `w - 1 - j` of the list. -/
theorem bitsVal_valBits {w v : Nat} (h : v < 2 ^ w) : bitsVal (valBits w v) = v := by
  have hval : bitsVal (valBits w v) < 2 ^ w := by simpa using bitsVal_lt (valBits w v)
  refine Nat.eq_of_testBit_eq fun j => ?_
  by_cases hj : j < w
  · have hbit := getElem?_eq_testBit_bitsVal (valBits w v) (i := w - 1 - j) (by rw [valBits_length]; omega)
    rw [getElem?_valBits v (by omega), valBits_length, show w - 1 - (w - 1 - j) = j by omega] at hbit
    exact (Option.some.inj hbit).symm
  · have hpow : 2 ^ w ≤ 2 ^ j := Nat.pow_le_pow_right (by decide) (by omega)
    rw [Nat.testBit_lt_two_pow (hval.trans_le hpow), Nat.testBit_lt_two_pow (h.trans_le hpow)]

/-- Settles O34: the digits by their codes, the value by its bits, and the two inverses. -/
theorem hexDigitsAndChunkValues : Obligations.HexDigitsAndChunkValues := by
  refine ⟨fun d => toNat_hexDigit_of_le_nine, fun d => toNat_hexDigit_of_ten_le, fun c d => hexVal_eq_some_iff,
    bitsVal_eq_sum, bitsVal_lt, fun w v i hi => ?_, valBits_bitsVal, fun w v => bitsVal_valBits⟩
  rw [getElem?_valBits v hi, Nat.testBit_eq_decide_div_mod_eq]

end Sys2Proof.Machine
end

section
/-! PROOF. The host's case transform, byte by byte, and what its Encode and Decode calls do after RUN: the read of
STATUS, the failure test, and the read of the output as an induction over the bytes left (41_host_text_transform R103 to
R108). -/

namespace Sys2Proof.Machine

/-! ## The case transform -/

theorem isUpper_iff {c : Byte} : isUpper c = true ↔ 0x41 ≤ c.toNat ∧ c.toNat ≤ 0x5A := by simp [isUpper]

theorem toNat_lower {c : Byte} (h : isUpper c = true) : (lower c).toNat = c.toNat + 0x20 := by
  rw [isUpper_iff] at h
  rw [lower, BitVec.toNat_add_of_lt (by simp; omega)]
  rfl

/-- The cases of a letter are inverse (41_host_text_transform R102). -/
theorem upper_lower {c : Byte} (h : isUpper c = true) : upper (lower c) = c := by
  have hlower := toNat_lower h
  rw [isUpper_iff] at h
  rw [upper, if_pos (by omega), lower, BitVec.add_sub_cancel]

/-- `prepare` works byte by byte (41_host_text_transform R103). -/
theorem prepare_eq_flatMap (s : List Byte) :
    prepare s = s.flatMap fun c => if 0x41 ≤ c.toNat ∧ c.toNat ≤ 0x5A then [0x21, c + 0x20] else [c] := by
  induction s with
  | nil => rfl
  | cons c cs ih =>
    rw [prepare, List.flatMap_cons, ← ih]
    by_cases h : isUpper c = true
    · rw [if_pos h, if_pos (isUpper_iff.1 h)]
      rfl
    · rw [if_neg h, if_neg (mt isUpper_iff.2 h)]
      rfl

theorem restore_marker_cons (d : Byte) (cs : List Byte) : restore (marker :: d :: cs) = upper d :: restore cs := by
  rw [restore, if_pos rfl]

theorem restore_cons_of_ne_marker {c : Byte} (h : c ≠ marker) (cs : List Byte) :
    restore (c :: cs) = c :: restore cs := by
  cases cs <;> simp [restore, h]

/-- A marker of the prepared text stands before a letter it put there, where the text has none of its own
(41_host_text_transform R105). -/
theorem restore_prepare {s : List Byte} (h : marker ∉ s) : restore (prepare s) = s := by
  induction s with
  | nil => rfl
  | cons c cs ih =>
    rw [List.mem_cons, not_or] at h
    obtain ⟨hc, hcs⟩ := h
    rw [prepare]
    split
    · next hup => rw [restore_marker_cons, upper_lower hup, ih hcs]
    · rw [restore_cons_of_ne_marker (Ne.symm hc), ih hcs]

/-- Settles O52: one equation per case of the two functions, and the inverse by induction on the text. -/
theorem restoreInvertsPrepare : Obligations.RestoreInvertsPrepare :=
  ⟨prepare_eq_flatMap, rfl, rfl, restore_marker_cons, fun _ cs h => restore_cons_of_ne_marker h cs,
    fun _ => restore_prepare, by decide, by decide⟩

/-! ## The answer of a call -/

section Answer

variable {vars : List ((Nat × Nat) × Nat)}

theorem toNat_extractLsb'_eq_zero_iff {st : Word} {lo len : Nat} :
    (st.extractLsb' lo len).toNat = 0 ↔ st.extractLsb' lo len = 0 := BitVec.toNat_inj (y := 0)

/-- The error of a call is bits 11 to 8 of the STATUS word it read (41_host_text_transform R106). -/
theorem evalExpr_statusError {st : Word} (h : lookupVar vars (varSt, 0) = some st.toNat) :
    evalExpr vars statusError = some (st.extractLsb' 8 4).toNat := by
  obtain ⟨-, -, -, -, bits⟩ := hostExpressionsHaveTheirValues vars
  exact bits (hostVar varSt) st 11 8 (by decide) (by decide) h

theorem encodeAnswer_of_error {e : Nat} (h : evalExpr vars statusError = some e) (he : e ≠ 0) :
    encodeAnswer vars = some (.error e) := by
  obtain ⟨e', rfl⟩ := Nat.exists_eq_succ_of_ne_zero he
  simp [encodeAnswer, h]

theorem encodeAnswer_of_output {n : Nat} (h : evalExpr vars statusError = some 0)
    (hn : lookupVar vars (varN, 0) = some n) : encodeAnswer vars = (outBytes vars 0 n).map .ok := by
  simp [encodeAnswer, h, hn]

theorem decodeAnswer_of_error {e : Nat} (h : encodeAnswer vars = some (.error e)) :
    decodeAnswer vars = some (.error e) := by simp [decodeAnswer, h]

theorem decodeAnswer_of_output {out : List Byte} (h : encodeAnswer vars = some (.ok out)) :
    decodeAnswer vars = some (.ok (restore out)) := by simp [decodeAnswer, h]

/-- A STATUS word that shows an error is the answer of both calls. -/
theorem answers_of_status_error {st : Word} (h : lookupVar vars (varSt, 0) = some st.toNat)
    (he : st.extractLsb' 8 4 ≠ 0) :
    encodeAnswer vars = some (.error (st.extractLsb' 8 4).toNat) ∧
      decodeAnswer vars = some (.error (st.extractLsb' 8 4).toNat) := by
  have henc := encodeAnswer_of_error (evalExpr_statusError h) (mt toNat_extractLsb'_eq_zero_iff.1 he)
  exact ⟨henc, decodeAnswer_of_error henc⟩

/-- The first byte a call read, carried in a word, before the bytes after it. -/
theorem outBytes_succ {i n : Nat} {b : Byte} {bs : List Byte}
    (hb : lookupVar vars (varOut, i) = some b.toNat) (hbs : outBytes vars (i + 1) n = some bs) :
    outBytes vars i (n + 1) = some (b :: bs) := by simp [outBytes, hb, hbs]

end Answer

/-! ## The failure test -/

/-- A call goes on exactly where the STATUS word it has read shows no error (41_host_text_transform R106). -/
theorem hostStep_failIf_status {s : State} {k : Nat} {a : HostAgent} {rest : List HostStmt} {st : Word}
    (ha : s.hosts[k]? = some a) (hp : a.prog = .failIf statusError :: rest)
    (hst : lookupVar a.vars (varSt, 0) = some st.toNat) :
    hostStep k s = .next (withAgent s k (if st.extractLsb' 8 4 = 0 then rest else []) a.vars) := by
  simp only [hostStep_failIf ha hp (evalExpr_statusError hst), toNat_extractLsb'_eq_zero_iff]

/-! ## The reads of a call -/

/-- The read of one output byte (41_host_text_transform R106). -/
def outBody : HostStmt := .rd 8 (.add (.lit 0x20000) (hostVar varI)) varOut (hostVar varI)

/-- The loop that reads the output, with the bytes from index `m` to below `n` still to read. -/
def outLoop (m n : Nat) : HostStmt := .forIn varI (.lit m) (.lit n) outBody

/-- What is left of a call whose failure test has passed (41_host_text_transform R106). -/
def outputReads : List HostStmt := [rd32 0x18 varN, .forIn varI (.lit 0) (hostVar varN) outBody]

theorem callReads_eq : callReads = rd32 0x10 varSt :: .failIf statusError :: outputReads := rfl

section Reads

variable {s : State} {k : Nat} {a : HostAgent} {out : List Byte} {rest : List HostStmt}
variable {vars : List ((Nat × Nat) × Nat)}

/-- A turn that reads a register into a plain variable. -/
theorem hostStep_rd32 (ha : s.hosts[k]? = some a) {off x : Nat} {v : Word}
    (hr : Reads (withAgent s k (rd32 off x :: rest) vars) off v) :
    hostStep k (withAgent s k (rd32 off x :: rest) vars) =
      .next (withAgent s k rest (assignVar vars (x, 0) v.toNat)) :=
  (hostStep_rd (withAgent_getElem? s ha _ vars) rfl rfl rfl hr).trans (by rw [withAgent_withAgent])

/-- The first two turns after RUN read a STATUS word that shows ERRCODE, and test it. -/
theorem hostTurns_callReads (ha : s.hosts[k]? = some a) (hp : a.prog = callReads) :
    ∃ st : Word, st.extractLsb' 8 4 = s.errcode ∧ ∀ n, hostTurns k (n + 2) s =
      hostTurns k n (withAgent s k (if s.errcode = 0 then outputReads else [])
        (assignVar a.vars (varSt, 0) st.toNat)) := by
  obtain ⟨⟨st, hread, -, -, -, -, herr, -, -⟩, -⟩ := statusShowsItsFields (withAgent s k callReads a.vars)
  have hstart : withAgent s k callReads a.vars = s := hp ▸ withAgent_self ha
  have hstatus := hostStep_rd32 (rest := .failIf statusError :: outputReads) (x := varSt) ha hread
  have htest := hostStep_failIf_status (withAgent_getElem? s ha (.failIf statusError :: outputReads)
    (assignVar a.vars (varSt, 0) st.toNat)) rfl (lookupVar_assignVar_same _ _ _)
  rw [← callReads_eq, hstart] at hstatus
  rw [withAgent_withAgent, herr] at htest
  exact ⟨st, herr, fun n => by rw [hostTurns_succ hstatus, hostTurns_succ htest]; rfl⟩

/-- An idle host read of an output byte (20_memory R59). -/
theorem busRead_obuf_of_defined {m : Nat} {b : Byte} (idle : s.busy = false) (hm : m < s.inst.obufSize)
    (hm' : m < 0x10000) (hb : s.obuf.read m = some b) :
    busRead 8 (s.inst.blockBase + (0x20000 + m)) s = .next (b.setWidth 32, s) := by
  rw [← Nat.add_assoc, busRead_obuf s hm hm', readObuf_of_defined idle hb]

/-- The variables after one turn round the loop that reads the output. -/
def outVars (vars : List ((Nat × Nat) × Nat)) (m : Nat) (b : Byte) : List ((Nat × Nat) × Nat) :=
  assignVar (assignVar vars (varI, 0) m) (varOut, m) b.toNat

theorem lookupVar_outVars_same (vars : List ((Nat × Nat) × Nat)) (m : Nat) (b : Byte) :
    lookupVar (outVars vars m b) (varOut, m) = some b.toNat := lookupVar_assignVar_same _ _ _

theorem lookupVar_outVars_other (vars : List ((Nat × Nat) × Nat)) {m : Nat} (b : Byte) {y : Nat × Nat}
    (hi : y ≠ (varI, 0)) (hm : y ≠ (varOut, m)) : lookupVar (outVars vars m b) y = lookupVar vars y :=
  (lookupVar_assignVar_other _ _ hm).trans (lookupVar_assignVar_other _ _ hi)

/-- Two turns of the loop read one byte. -/
theorem hostTurns_outLoop_next (ha : s.hosts[k]? = some a) (idle : s.busy = false) {m n : Nat} {b : Byte} (hmn : m < n)
    (hm : m < s.inst.obufSize) (hm' : m < 0x10000) (hb : s.obuf.read m = some b) (l : Nat) :
    hostTurns k (l + 2) (withAgent s k (outLoop m n :: rest) vars) =
      hostTurns k l (withAgent s k (outLoop (m + 1) n :: rest) (outVars vars m b)) := by
  have hfor : hostStep k (withAgent s k (outLoop m n :: rest) vars) =
      .next (withAgent s k (outBody :: outLoop (m + 1) n :: rest) (assignVar vars (varI, 0) m)) :=
    (hostStep_forIn_next (withAgent_getElem? s ha _ vars) rfl rfl rfl hmn).trans (by rw [withAgent_withAgent]; rfl)
  have hvar : evalExpr (assignVar vars (varI, 0) m) (hostVar varI) = some m := by simp [hostVar, evalExpr]
  have hbyte : (b.setWidth 32).toNat = b.toNat := BitVec.toNat_setWidth_of_le (by decide)
  have hrd : hostStep k (withAgent s k (outBody :: outLoop (m + 1) n :: rest) (assignVar vars (varI, 0) m)) =
      .next (withAgent s k (outLoop (m + 1) n :: rest) (outVars vars m b)) :=
    (hostStep_rd (withAgent_getElem? s ha _ _) rfl (by simp [evalExpr, hvar]) hvar
      (busRead_obuf_of_defined (s := withAgent s k _ _) idle hm hm' hb)).trans
      (by rw [withAgent_withAgent, hbyte]; rfl)
  rw [hostTurns_succ hfor, hostTurns_succ hrd]

/-- The loop reads the bytes it has left, in order, and is used up; it assigns its index and the elements of `out` it
reads. -/
theorem hostTurns_outLoop (ha : s.hosts[k]? = some a) (idle : s.busy = false) (hout : ∀ i, s.obuf.read i = out[i]?)
    (hfit : out.length ≤ s.inst.obufSize) (hsize : s.inst.obufSize ≤ 65536) {bs : List Byte} {m : Nat}
    (hbs : out.drop m = bs) :
    ∃ vars', (∀ y, y ≠ (varI, 0) → (∀ j, m ≤ j → y ≠ (varOut, j)) → lookupVar vars' y = lookupVar vars y) ∧
      outBytes vars' m bs.length = some bs ∧
      hostTurns k (2 * bs.length + 1) (withAgent s k [outLoop m out.length] vars) = .next (withAgent s k [] vars') := by
  induction bs generalizing m vars with
  | nil =>
    have hend : hostStep k (withAgent s k [outLoop m out.length] vars) = .next (withAgent s k [] vars) :=
      (hostStep_forIn_done (withAgent_getElem? s ha _ vars) rfl rfl rfl (List.drop_eq_nil_iff.1 hbs)).trans
        (by rw [withAgent_withAgent])
    exact ⟨vars, fun _ _ _ => rfl, rfl, hostTurns_succ hend⟩
  | cons b bs ih =>
    have hb : out[m]? = some b := by rw [← List.head?_drop, hbs, List.head?_cons]
    have hbs' : out.drop (m + 1) = bs := by rw [← List.tail_drop, hbs, List.tail_cons]
    have hm : m < out.length := (List.getElem?_eq_some_iff.1 hb).1
    obtain ⟨vars', hvars', hbytes, hturns⟩ := ih (vars := outVars vars m b) hbs'
    refine ⟨vars', fun y hi hj => ?_, ?_, ?_⟩
    · rw [hvars' y hi fun j hmj => hj j (by omega), lookupVar_outVars_other vars b hi (hj m le_rfl)]
    · have hread : lookupVar vars' (varOut, m) = some b.toNat := by
        rw [hvars' _ (by simp [varOut, varI]) fun j hmj => by simp; omega, lookupVar_outVars_same]
      exact outBytes_succ hread hbytes
    · rw [List.length_cons, show 2 * (bs.length + 1) + 1 = 2 * bs.length + 1 + 2 by omega,
        hostTurns_outLoop_next ha idle hm (hm.trans_le hfit) (by omega) ((hout m).trans hb), hturns]

/-- A loop whose upper bound is a variable runs as the loop up to that variable's value (30_encoding R85). -/
theorem hostTurns_varLoop (ha : s.hosts[k]? = some a) {n : Nat} (hn : lookupVar vars (varN, 0) = some n) (l : Nat) :
    hostTurns k (l + 1) (withAgent s k [.forIn varI (.lit 0) (hostVar varN) outBody] vars) =
      hostTurns k (l + 1) (withAgent s k [outLoop 0 n] vars) := by
  have hturn : hostStep k (withAgent s k [.forIn varI (.lit 0) (hostVar varN) outBody] vars) =
      hostStep k (withAgent s k [outLoop 0 n] vars) := by
    rw [hostStep_cons (withAgent_getElem? s ha _ vars) rfl, hostStep_cons (withAgent_getElem? s ha _ vars) rfl]
    simp [outLoop, runStmt, evalExpr, hostVar, hn]
  simp only [hostTurns, hturn]

/-- A call whose failure test has passed reads OLEN and the whole output, and keeps the STATUS word it read. -/
theorem hostTurns_outputReads {r : Nat} (ha : s.hosts[k]? = some a) (hs : Succeeds s out r)
    (hfit : out.length ≤ s.inst.obufSize) (hsize : s.inst.obufSize ≤ 65536) :
    ∃ vars', lookupVar vars' (varSt, 0) = lookupVar vars (varSt, 0) ∧
      lookupVar vars' (varN, 0) = some out.length ∧ outBytes vars' 0 out.length = some out ∧
      hostTurns k (2 * out.length + 2) (withAgent s k outputReads vars) = .next (withAgent s k [] vars') := by
  obtain ⟨-, holen, -, hout, -, idle⟩ := hs
  have hlen : s.olen.toNat = out.length := by
    rw [holen, BitVec.toNat_ofNat, Nat.mod_eq_of_lt (by omega)]
  have hread : Reads (withAgent s k outputReads vars) 0x18 s.olen := reads_reg idle (by decide) rfl
  have holenTurn := hostStep_rd32 ha hread
  rw [hlen] at holenTurn
  obtain ⟨vars', hkeep, hbytes, hloop⟩ := hostTurns_outLoop (vars := assignVar vars (varN, 0) out.length) ha idle hout
    hfit hsize List.drop_zero
  have hn : lookupVar (assignVar vars (varN, 0) out.length) (varN, 0) = some out.length :=
    lookupVar_assignVar_same _ _ _
  refine ⟨vars', ?_, ?_, hbytes, ?_⟩
  · rw [hkeep _ (by decide) (by simp [varSt, varOut]), lookupVar_assignVar_other _ _ (by decide)]
  · rw [hkeep _ (by decide) (by simp [varN, varOut]), hn]
  · rw [outputReads, hostTurns_succ holenTurn, hostTurns_varLoop ha hn, hloop]

/-- After a command that failed a call ends at its failure test (41_host_text_transform R106, R107). -/
theorem hostTurns_call_of_fails {c : ErrorKind} (ha : s.hosts[k]? = some a) (hp : a.prog = callReads)
    (hf : Fails s c) :
    ∃ vars', hostTurns k 2 s = .next (withAgent s k [] vars') ∧
      encodeAnswer vars' = some (.error (errorCode c).toNat) ∧
      decodeAnswer vars' = some (.error (errorCode c).toNat) := by
  obtain ⟨herr, -⟩ := hf
  obtain ⟨st, hst, hturns⟩ := hostTurns_callReads ha hp
  have hne : s.errcode ≠ 0 := herr ▸ errorCode_ne_zero c
  have hanswers := answers_of_status_error (lookupVar_assignVar_same a.vars (varSt, 0) st.toNat) (hst ▸ hne)
  rw [hst, herr] at hanswers
  exact ⟨_, by rw [hturns 0, if_neg hne, hostTurns_zero], hanswers⟩

/-- After a command that succeeded a call reads and answers the output (41_host_text_transform R106, R107). -/
theorem hostTurns_call_of_succeeds {r : Nat} (ha : s.hosts[k]? = some a) (hp : a.prog = callReads)
    (hs : Succeeds s out r) (hfit : out.length ≤ s.inst.obufSize) (hsize : s.inst.obufSize ≤ 65536) :
    ∃ vars', hostTurns k (2 * out.length + 4) s = .next (withAgent s k [] vars') ∧
      encodeAnswer vars' = some (.ok out) ∧ decodeAnswer vars' = some (.ok (restore out)) := by
  obtain ⟨st, hst, hturns⟩ := hostTurns_callReads ha hp
  have ⟨herr, _⟩ := hs
  obtain ⟨vars', hkeep, hn, hbytes, hread⟩ :=
    hostTurns_outputReads (vars := assignVar a.vars (varSt, 0) st.toNat) ha hs hfit hsize
  have hstatus : evalExpr vars' statusError = some 0 := by
    rw [evalExpr_statusError (hkeep.trans (lookupVar_assignVar_same _ _ _)), hst, herr]
    rfl
  have henc : encodeAnswer vars' = some (.ok out) := by
    rw [encodeAnswer_of_output hstatus hn, hbytes, Option.map_some]
  exact ⟨vars', by rw [hturns, if_pos herr, hread], henc, decodeAnswer_of_output henc⟩

end Reads

/-! ## The calls -/

/-- A call has a program exactly where its text fits IBUF (41_host_text_transform R106, R107). -/
theorem callPrograms_iff_fits (size : Nat) (text : List Byte) :
    ((prepare text).length ≤ size → encodeProgram size text = some (callProgram .pack (prepare text))) ∧
    (size < (prepare text).length → encodeProgram size text = none) ∧
    (text.length ≤ size → decodeProgram size text = some (callProgram .unpack text)) ∧
    (size < text.length → decodeProgram size text = none) :=
  ⟨fun h => if_pos h, fun h => if_neg h.not_ge, fun h => if_pos h, fun h => if_neg h.not_ge⟩

/-- Settles O59: the failure test by the STATUS word read, and the turns after RUN by the command's outcome. -/
theorem hostCallsFailOnAnError : Obligations.HostCallsFailOnAnError := by
  refine ⟨fun _ _ => rfl, rfl, callPrograms_iff_fits, fun s k a rest st ha hp hst => ⟨fun hzero => ?_, fun hne => ?_⟩,
    fun s k a c => hostTurns_call_of_fails, fun s k a out r => hostTurns_call_of_succeeds⟩
  · rw [hostStep_failIf_status ha hp hst, if_pos hzero]
  · rw [hostStep_failIf_status ha hp hst, if_neg hne]
    exact ⟨rfl, answers_of_status_error hst hne⟩

end Sys2Proof.Machine
end

section
/-! PROOF. The bit packer: what CHUNK's padding and JOIN's parse give, what a command that answers an output commits, and
TOBITS, CHUNK and JOIN from these (42_bit_packer R110 to R114). -/

namespace Sys2Proof.Machine

variable {s t : State}

/-! ## A command's own answer and what it commits -/

section Answer

variable {prep : State → State} {op : State → List Byte → CommandResult} {input out : List Byte} {r : Nat}

/-- A command that answers an output succeeds with it where it fits OBUF, and fails with OVERFLOW where it does not
(40_command_framework R89, R90). -/
theorem runCommand_of_output (hp : PrepOk prep) (h : HasInput s input) (hop : op (prep s) input = .ok (out, r)) :
    (out.length ≤ s.inst.obufSize →
      ∃ t, runCommand prep op s = .next t ∧ Succeeds t out r ∧ SameTree (prep s) t ∧ SameElsewhere s t) ∧
    (s.inst.obufSize < out.length →
      ∃ t, runCommand prep op s = .next t ∧ Fails t .overflow ∧ SameTree (prep s) t ∧ SameElsewhere s t) := by
  have run := runCommand_of_hasInput (prep := prep) (op := op) h
  rw [hop] at run
  constructor
  · intro hfit
    rw [checkOutput_fits hfit] at run
    exact ⟨_, run, commitOk_succeeds _ out r, commit_sameTree _ _, (runCommand_frame hp run).1⟩
  · intro hover
    rw [checkOutput_overflow hover] at run
    exact ⟨_, run, commitErr_fails _ .overflow, commit_sameTree _ _, (runCommand_frame hp run).1⟩

/-- A command that answers an error fails with it (40_command_framework R90). -/
theorem runCommand_of_error {c : ErrorKind} (hp : PrepOk prep) (h : HasInput s input)
    (hop : op (prep s) input = .error c) :
    ∃ t, runCommand prep op s = .next t ∧ Fails t c ∧ SameTree (prep s) t ∧ SameElsewhere s t := by
  have run := runCommand_of_hasInput (prep := prep) (op := op) h
  rw [hop, checkOutput_error] at run
  exact ⟨_, run, commitErr_fails _ c, commit_sameTree _ _, (runCommand_frame hp run).1⟩

/-- Without an OVERFLOW a command that answers an output has succeeded with it. -/
theorem succeeds_of_output (hp : PrepOk prep) (h : HasInput s input) (hop : op (prep s) input = .ok (out, r))
    (run : runCommand prep op s = .next t) (hne : t.errcode ≠ errorCode .overflow) : Succeeds t out r := by
  obtain ⟨fits, overflows⟩ := runCommand_of_output hp h hop
  rcases Nat.lt_or_ge s.inst.obufSize out.length with hover | hfit
  · obtain ⟨u, hu, ⟨herr, -⟩, -⟩ := overflows hover
    cases run.symm.trans hu
    exact absurd herr hne
  · obtain ⟨u, hu, hsucc, -⟩ := fits hfit
    cases run.symm.trans hu
    exact hsucc

/-- OBUF determines the output of a success. -/
theorem Succeeds.output_eq {out' : List Byte} {r' : Nat} (h : Succeeds t out r) (h' : Succeeds t out' r') :
    out = out' := by
  obtain ⟨-, -, -, hread, -⟩ := h
  obtain ⟨-, -, -, hread', -⟩ := h'
  exact List.ext_getElem? fun i => (hread i).symm.trans (hread' i)

/-- A command that has succeeded with an output has answered that output. -/
theorem output_of_succeeds (hp : PrepOk prep) (h : HasInput s input) (run : runCommand prep op s = .next t)
    (hs : Succeeds t out r) : ∃ r', op (prep s) input = .ok (out, r') := by
  have ⟨hzero, _⟩ := hs
  cases hop : op (prep s) input with
  | error c =>
    obtain ⟨u, hu, ⟨herr, -⟩, -⟩ := runCommand_of_error hp h hop
    cases run.symm.trans hu
    exact absurd (herr.symm.trans hzero) (errorCode_ne_zero c)
  | ok answer =>
    obtain ⟨out', r'⟩ := answer
    have hne : t.errcode ≠ errorCode .overflow := hzero ▸ (errorCode_ne_zero .overflow).symm
    rw [(succeeds_of_output hp h hop run hne).output_eq hs]
    exact ⟨r', rfl⟩

end Answer

/-! ## Padding to whole chunks -/

theorem State.width_pos (s : State) : 0 < s.width := Nat.succ_pos _

theorem State.width_congr {u : State} (h : u.widthM1 = s.widthM1) : u.width = s.width :=
  congrArg (fun m : BitVec 3 => m.toNat + 1) h

/-- The number of chunks is the least that holds the bits (42_bit_packer R111). -/
theorem chunkCount_eq_iff {n w k : Nat} (hw : 0 < w) : chunkCount n w = k ↔ n ≤ k * w ∧ k * w < n + w := by
  rw [chunkCount, Nat.div_eq_iff hw]
  omega

theorem padBits_eq {w k : Nat} {bits : Bits} (hle : bits.length ≤ k * w) (hlt : k * w < bits.length + w) :
    padBits w bits = bits ++ List.replicate (k * w - bits.length) false := by
  rw [padBits, (chunkCount_eq_iff (by omega)).2 ⟨hle, hlt⟩]

/-- A bit string of whole chunks gets no padding (42_bit_packer R111). -/
theorem padBits_of_mod_eq_zero {w : Nat} {bits : Bits} (hw : 0 < w) (h : bits.length % w = 0) :
    padBits w bits = bits := by
  have hlen : bits.length / w * w = bits.length := Nat.div_mul_cancel (Nat.dvd_of_mod_eq_zero h)
  rw [padBits_eq (k := bits.length / w) (by omega) (by omega), hlen, Nat.sub_self, List.replicate_zero,
    List.append_nil]

/-- Fewer than `w` zeros fill a bit string up to whole chunks (42_bit_packer R111). -/
theorem exists_padBits_eq (w : Nat) (bits : Bits) (hw : 0 < w) :
    ∃ p, p < w ∧ (bits.length + p) % w = 0 ∧ padBits w bits = bits ++ List.replicate p false := by
  obtain ⟨hle, hlt⟩ := (chunkCount_eq_iff hw).1 (rfl : chunkCount bits.length w = _)
  refine ⟨chunkCount bits.length w * w - bits.length, by omega, ?_, rfl⟩
  rw [Nat.add_sub_cancel' hle, Nat.mul_mod_left]

/-- A whole chunk in front is padded by nothing. -/
theorem padBits_append {w : Nat} {ch : Bits} (hw : 0 < w) (hch : ch.length = w) (bits : Bits) :
    padBits w (ch ++ bits) = ch ++ padBits w bits := by
  obtain ⟨hle, hlt⟩ := (chunkCount_eq_iff hw).1 (rfl : chunkCount bits.length w = _)
  have hsucc : (chunkCount bits.length w + 1) * w = w + chunkCount bits.length w * w := by
    rw [Nat.succ_mul, Nat.add_comm]
  have hlen : (ch ++ bits).length = w + bits.length := by rw [List.length_append, hch]
  rw [padBits_eq (k := chunkCount bits.length w + 1) (by omega) (by omega), hsucc, hlen, Nat.add_sub_add_left,
    List.append_assoc, padBits]

/-- The accumulator holds the bits of the chunk begun, so the streaming form pads what it holds followed by what is to
come (42_bit_packer R112). -/
theorem streamChunks_eq_padBits {w : Nat} (bits acc : Bits) (hacc : acc.length < w) :
    streamChunks w acc bits = padBits w (acc ++ bits) := by
  have hw : 0 < w := by omega
  induction bits generalizing acc with
  | nil =>
    rw [streamChunks, List.append_nil]
    split
    · next hempty => rw [padBits_of_mod_eq_zero hw (by rw [hempty, Nat.zero_mod]), List.eq_nil_of_length_eq_zero hempty]
    · next hbegun => rw [padBits_eq (k := 1) (by omega) (by omega), Nat.one_mul]
  | cons b bs ih =>
    have hlen : (acc ++ [b]).length = acc.length + 1 := List.length_append
    rw [streamChunks, List.append_cons acc b bs]
    split
    · next hfull => rw [ih [] hw, List.nil_append, padBits_append hw (hlen.trans hfull)]
    · next hroom => exact ih (acc ++ [b]) (by omega)

/-- Settles O31: the invariant of the accumulator, from an empty one. -/
theorem streamingChunkGivesTheSameOutput : Obligations.StreamingChunkGivesTheSameOutput :=
  fun _ bits hw _ => streamChunks_eq_padBits bits [] hw

/-! ## TOBITS -/

theorem codeBits_eq_error_iff {table : List Entry} {input : List Byte} {e : ErrorKind} :
    codeBits table input = .error e ↔ e = .unknownCharacter ∧ ∃ c ∈ input, lookup table c = none := by
  induction input with
  | nil => simp
  | cons c cs ih =>
    rw [codeBits, List.exists_mem_cons_iff]
    cases hc : lookup table c with
    | none => simp [eq_comm]
    | some k =>
      cases hcs : codeBits table cs with
      | ok bs => simpa [hcs] using ih
      | error e' => simpa [hcs] using ih

theorem opTobits_of_codes {input : List Byte} {codes : List Bits}
    (h : List.Forall₂ (fun c k => lookup s.inst.codeTable c = some k) input codes) :
    opTobits s input = .ok (serBits codes.flatten, 0) := by
  rw [opTobits, codeBits_of_codes h]

theorem opTobits_of_unknown {input : List Byte} {c : Byte} (hc : c ∈ input) (h : lookup s.inst.codeTable c = none) :
    opTobits s input = .error .unknownCharacter := by
  rw [opTobits, codeBits_eq_error_iff.2 ⟨rfl, c, hc, h⟩]

/-- Settles O29: by what TOBITS answers when every byte has a code, and when one has none. -/
theorem tobitsConcatenatesTheCodes : Obligations.TobitsConcatenatesTheCodes := by
  refine ⟨rfl, fun s input codes h hcodes => ?_, fun s input c h hc hnone => ?_⟩
  · rw [← serBits_length]
    exact runCommand_of_output prepOk_id h (opTobits_of_codes hcodes)
  · exact runCommand_of_error prepOk_id h (opTobits_of_unknown hc hnone)

/-! ## CHUNK -/

theorem opChunk_serBits (s : State) (bits : Bits) :
    opChunk s (serBits bits) = .ok (serBits (padBits s.width bits), 0) := by
  rw [opChunk, parseBits, bitsOfBytes_serBits]

theorem opChunk_of_bad_byte {input : List Byte} (h : ∃ c ∈ input, c ≠ 0x30 ∧ c ≠ 0x31) :
    opChunk s input = .error .malformedBits := by
  rw [opChunk, parseBits, bitsOfBytes_eq_error_iff.2 ⟨rfl, h⟩]

/-- Settles O30: by what CHUNK answers on bits, and on a byte that is no bit. -/
theorem chunkPadsWithZeros : Obligations.ChunkPadsWithZeros := by
  refine ⟨rfl, fun s bits k h hle hlt => ?_, fun s input c h hc h0 h1 => ?_⟩
  · have hlen : (serBits (padBits s.width bits)).length = k * s.width := by
      rw [serBits_length, padBits_length _ _ s.width_pos, (chunkCount_eq_iff s.width_pos).2 ⟨hle, hlt⟩]
    rw [← padBits_eq hle hlt, ← hlen]
    exact runCommand_of_output prepOk_id h (opChunk_serBits s bits)
  · exact runCommand_of_error prepOk_id h (opChunk_of_bad_byte ⟨c, hc, h0, h1⟩)

/-! ## JOIN -/

theorem parseChunks_serBits {w : Nat} {bits : Bits} (h : bits.length % w = 0) :
    parseChunks (serBits bits) w = .ok (splitChunks w (bits.length / w) bits) := by
  rw [parseChunks, bitsOfBytes_serBits, serBits_length]
  exact if_pos h

theorem length_flatten_of_uniform {w : Nat} {chunks : List Bits} (h : ∀ ch ∈ chunks, ch.length = w) :
    chunks.flatten.length = chunks.length * w := by
  rw [List.length_flatten, List.map_congr_left h, List.map_const', List.sum_replicate, smul_eq_mul]

/-- Parsing a CHUNKS(W) form gives back the chunks it was made of (30_encoding R83). -/
theorem parseChunks_serChunks {w : Nat} {chunks : List Bits} (hw : 0 < w) (h : ∀ ch ∈ chunks, ch.length = w) :
    parseChunks (serChunks chunks) w = .ok chunks := by
  have hlen := length_flatten_of_uniform h
  rw [serChunks, parseChunks_serBits (by rw [hlen, Nat.mul_mod_left]), hlen, Nat.mul_div_cancel _ hw,
    splitChunks_of_flatten w chunks h]

/-- A parse of chunks fails on a byte that is no bit and on a length that is no multiple of the width
(40_command_framework R95). -/
theorem parseChunks_of_malformed {w : Nat} {input : List Byte}
    (h : (∃ c ∈ input, c ≠ 0x30 ∧ c ≠ 0x31) ∨ input.length % w ≠ 0) :
    parseChunks input w = .error .malformedChunk := by
  rw [parseChunks]
  cases hbits : bitsOfBytes .malformedChunk input with
  | error e =>
    obtain ⟨rfl, -⟩ := bitsOfBytes_eq_error_iff.1 hbits
    rfl
  | ok bits =>
    rcases h with hbad | hlen
    · cases hbits.symm.trans (bitsOfBytes_eq_error_iff.2 ⟨rfl, hbad⟩)
    · exact if_neg hlen

/-- What a parse of chunks accepts is a bit string of whole chunks (40_command_framework R95). -/
theorem exists_serBits_of_parseChunks {w : Nat} {input : List Byte} {chunks : List Bits}
    (h : parseChunks input w = .ok chunks) : ∃ bits, input = serBits bits ∧ bits.length % w = 0 := by
  have hgood : ¬ ((∃ c ∈ input, c ≠ 0x30 ∧ c ≠ 0x31) ∨ input.length % w ≠ 0) := fun hbad => by
    cases h.symm.trans (parseChunks_of_malformed hbad)
  cases hbits : bitsOfBytes .malformedChunk input with
  | error e => exact absurd (.inl (bitsOfBytes_eq_error_iff.1 hbits).2) hgood
  | ok bits =>
    obtain rfl := bitsOfBytes_eq_ok_iff.1 hbits
    refine ⟨bits, rfl, ?_⟩
    by_contra hlen
    exact hgood (.inr (by rwa [serBits_length]))

theorem opJoin_serBits {bits : Bits} (h : bits.length % s.width = 0) :
    opJoin s (serBits bits) = .ok (serBits bits, 0) := by
  have hlen : bits.length / s.width * s.width = bits.length := Nat.div_mul_cancel (Nat.dvd_of_mod_eq_zero h)
  rw [opJoin, parseChunks_serBits h]
  simp only [serChunks, splitChunks_flatten _ _ _ hlen.symm]

/-- JOIN answers its own input, which is a bit string of whole chunks (42_bit_packer R113). -/
theorem exists_serBits_of_opJoin {input out : List Byte} {r : Nat} (h : opJoin s input = .ok (out, r)) :
    ∃ bits, input = serBits bits ∧ bits.length % s.width = 0 ∧ out = serBits bits := by
  cases hparse : parseChunks input s.width with
  | error e =>
    rw [opJoin, hparse] at h
    cases h
  | ok chunks =>
    obtain ⟨bits, rfl, hlen⟩ := exists_serBits_of_parseChunks hparse
    cases h.symm.trans (opJoin_serBits hlen)
    exact ⟨bits, rfl, hlen, rfl⟩

/-- Settles O32: by what JOIN answers on chunks, and on an input that is malformed. -/
theorem joinConcatenatesChunks : Obligations.JoinConcatenatesChunks := by
  refine ⟨rfl, fun s chunks h hchunks => ?_, fun s input h hbad => ?_⟩
  · have hop : opJoin s (serChunks chunks) = .ok (serChunks chunks, 0) := by
      rw [opJoin, parseChunks_serChunks s.width_pos hchunks]
    rw [← serBits_length]
    exact runCommand_of_output prepOk_id h hop
  · have hop : opJoin s input = .error .malformedChunk := by rw [opJoin, parseChunks_of_malformed hbad]
    exact runCommand_of_error prepOk_id h hop

/-! ## The laws of the packer -/

section Laws

variable {s' t' : State} {bits : Bits} {input out : List Byte}

/-- CHUNK gives `ceil(n / W)` whole chunks (42_bit_packer R114). -/
theorem exists_length_of_chunk (h : HasInput s (serBits bits)) (run : exec .chunk s = .next t)
    (hne : t.errcode ≠ errorCode .overflow) :
    ∃ out, Succeeds t out 0 ∧ out.length = (bits.length + (s.width - 1)) / s.width * s.width :=
  ⟨_, succeeds_of_output prepOk_id h (opChunk_serBits s bits) run hne,
    (serBits_length _).trans (padBits_length _ bits s.width_pos)⟩

/-- JOIN after CHUNK gives the bits and the padding, which is empty exactly when W divides their number (42_bit_packer
R114). -/
theorem join_after_chunk (h : HasInput s (serBits bits)) (hwidth : s'.widthM1 = s.widthM1)
    (run : exec .chunk s = .next t) (hs : Succeeds t out 0) (h' : HasInput s' out) (run' : exec .join s' = .next t')
    (hne : t'.errcode ≠ errorCode .overflow) :
    ∃ p, p < s.width ∧ (bits.length + p) % s.width = 0 ∧ out.length = bits.length + p ∧
      Succeeds t' (serBits (bits ++ List.replicate p false)) 0 ∧
      (bits.length % s.width = 0 ↔ Succeeds t' (serBits bits) 0) := by
  obtain ⟨p, hp, hmod, hpad⟩ := exists_padBits_eq s.width bits s.width_pos
  have hlen : (bits ++ List.replicate p false).length = bits.length + p := by
    rw [List.length_append, List.length_replicate]
  obtain ⟨r, hop⟩ := output_of_succeeds prepOk_id h run hs
  obtain rfl : out = serBits (bits ++ List.replicate p false) := by
    cases hop.symm.trans (opChunk_serBits s bits)
    rw [hpad]
  have hjoin : Succeeds t' (serBits (bits ++ List.replicate p false)) 0 :=
    succeeds_of_output prepOk_id h' (opJoin_serBits (s := s') (by rwa [State.width_congr hwidth, hlen])) run' hne
  refine ⟨p, hp, hmod, (serBits_length _).trans hlen, hjoin, fun hdvd => ?_, fun hbits => ?_⟩
  · rw [padBits_of_mod_eq_zero s.width_pos hdvd] at hpad
    rwa [← hpad] at hjoin
  · have hsame := congrArg List.length (hjoin.output_eq hbits)
    rw [serBits_length, serBits_length, hlen] at hsame
    rwa [hsame] at hmod

/-- CHUNK after JOIN gives JOIN's output (42_bit_packer R114). -/
theorem chunk_after_join (h : HasInput s input) (hwidth : s'.widthM1 = s.widthM1) (run : exec .join s = .next t)
    (hs : Succeeds t out 0) (h' : HasInput s' out) (run' : exec .chunk s' = .next t')
    (hne : t'.errcode ≠ errorCode .overflow) : Succeeds t' out 0 := by
  obtain ⟨r, hop⟩ := output_of_succeeds prepOk_id h run hs
  obtain ⟨bits, -, hmod, rfl⟩ := exists_serBits_of_opJoin hop
  have hchunk := succeeds_of_output prepOk_id h' (opChunk_serBits s' bits) run' hne
  rwa [State.width_congr hwidth, padBits_of_mod_eq_zero s.width_pos hmod] at hchunk

end Laws

/-- Settles O33: what CHUNK answers, and JOIN and CHUNK each on the other's output. -/
theorem packerLaws : Obligations.PackerLaws :=
  ⟨fun _ _ _ => exists_length_of_chunk, fun _ _ _ _ _ _ => join_after_chunk, fun _ _ _ _ _ _ => chunk_after_join⟩

end Sys2Proof.Machine
end

section
/-! PROOF. The layouts of tokens: the TOKENS form and its parse undo each other, and so do joining and splitting at the
separator (30_encoding R84, 40_command_framework R96, R98, 43_hex_codec R118, R119). -/

namespace Sys2Proof.Machine

variable {toks : List Token}

/-! ## The TOKENS form -/

@[simp] theorem tokensForm_nil : tokensForm [] = [] := rfl

@[simp] theorem tokensForm_cons (u : Token) (us : List Token) :
    tokensForm (u :: us) =
      BitVec.ofNat 8 (u.length / 256) :: BitVec.ofNat 8 (u.length % 256) :: (u ++ tokensForm us) := rfl

/-- A record is two bytes longer than its token, so a form that fits an OBUF has no token too long for its header
(30_encoding R84). -/
theorem short_of_tokensForm_le (h : (tokensForm toks).length ≤ 65536) : ∀ u ∈ toks, u.length ≤ 65535 := by
  induction toks with
  | nil => exact List.forall_mem_nil _
  | cons u us ih =>
    rw [tokensForm_cons, List.length_cons, List.length_cons, List.length_append] at h
    exact List.forall_mem_cons.2 ⟨by omega, ih (by omega)⟩

/-- Two header bytes hold every length up to 65535 (30_encoding R84). -/
theorem header_value {n : Nat} (h : n ≤ 65535) :
    (BitVec.ofNat 8 (n / 256)).toNat * 256 + (BitVec.ofNat 8 (n % 256)).toNat = n := by
  simp only [BitVec.toNat_ofNat]
  omega

/-- The bytes of a header are those its value is written in. -/
theorem header_bytes (h l : Byte) :
    BitVec.ofNat 8 ((h.toNat * 256 + l.toNat) / 256) = h ∧ BitVec.ofNat 8 ((h.toNat * 256 + l.toNat) % 256) = l := by
  constructor <;> bv_omega

/-- SerTokens gives the TOKENS form when every length fits the two header bytes (40_command_framework R98). -/
theorem serTokens_of_short (h : ∀ u ∈ toks, u.length ≤ 65535) : serTokens toks = .ok (tokensForm toks) := by
  induction toks with
  | nil => rfl
  | cons u us ih =>
    obtain ⟨hu, hus⟩ := List.forall_mem_cons.1 h
    rw [serTokens, if_neg (Nat.not_lt.2 hu), ih hus, tokensForm_cons]

/-- A token longer than its header can say fails with OVERFLOW (40_command_framework R98). -/
theorem serTokens_of_long (h : ¬ ∀ u ∈ toks, u.length ≤ 65535) : serTokens toks = .error .overflow := by
  induction toks with
  | nil => exact absurd (List.forall_mem_nil _) h
  | cons u us ih =>
    rw [serTokens]
    split
    · rfl
    · next hu => rw [ih fun hus => h (List.forall_mem_cons.2 ⟨Nat.not_lt.1 hu, hus⟩)]

/-- ParseTokens gives back the tokens a TOKENS form was made of (40_command_framework R96). -/
theorem parseTokens_tokensForm (h : ∀ u ∈ toks, u.length ≤ 65535) : parseTokens (tokensForm toks) = .ok toks := by
  induction toks with
  | nil => rfl
  | cons u us ih =>
    obtain ⟨hu, hus⟩ := List.forall_mem_cons.1 h
    rw [tokensForm_cons, parseTokens_cons, header_value hu, if_neg (by simp), List.drop_left, List.take_left, ih hus]

/-- What ParseTokens accepts is the TOKENS form of its answer (40_command_framework R96). -/
theorem tokensForm_of_parseTokensUpTo {n : Nat} {input : List Byte} (h : parseTokensUpTo n input = .ok toks) :
    (∀ u ∈ toks, u.length ≤ 65535) ∧ input = tokensForm toks := by
  fun_induction parseTokensUpTo n input generalizing toks
  case case1 =>
    cases h
    exact ⟨by simp, rfl⟩
  case case5 fuel hi lo rest len hlen us hus ih =>
    cases h
    obtain ⟨hshort, hform⟩ := ih hus
    have htake : (rest.take len).length = len := by rw [List.length_take]; omega
    obtain ⟨hhi, hlo⟩ := header_bytes hi lo
    refine ⟨List.forall_mem_cons.2 ⟨?_, hshort⟩, ?_⟩
    · have := hi.isLt
      have := lo.isLt
      omega
    · rw [tokensForm_cons, htake, hhi, hlo, ← hform, List.take_append_drop]
  all_goals cases h

theorem parseTokens_eq_ok_iff {input : List Byte} :
    parseTokens input = .ok toks ↔ (∀ u ∈ toks, u.length ≤ 65535) ∧ input = tokensForm toks := by
  refine ⟨tokensForm_of_parseTokensUpTo, ?_⟩
  rintro ⟨hshort, rfl⟩
  exact parseTokens_tokensForm hshort

/-- A parse of tokens fails on an input that is the TOKENS form of no list (40_command_framework R96). -/
theorem parseTokens_of_malformed {input : List Byte}
    (h : ∀ toks : List Token, (∀ u ∈ toks, u.length ≤ 65535) → input ≠ tokensForm toks) :
    parseTokens input = .error .malformedList := by
  cases hparse : parseTokens input with
  | error e => rw [parseTokensUpTo_error hparse]
  | ok toks =>
    obtain ⟨hshort, hform⟩ := parseTokens_eq_ok_iff.1 hparse
    exact absurd hform (h toks hshort)

/-! ## Separators -/

theorem joinTokens_eq_intercalate (toks : List Token) : joinTokens toks = [sep].intercalate toks := by
  fun_induction joinTokens toks with
  | case1 => rfl
  | case2 t => rw [List.intercalate_singleton]
  | case3 t u us ih => rw [ih, List.intercalate_cons_cons, List.append_assoc, List.singleton_append]

/-- The token begun goes in front of the first token of the rest of the text. -/
theorem splitTokensFrom_eq (cur : Token) (text : List Byte) :
    splitTokensFrom cur text = (text.splitOn sep).modifyHead (cur ++ ·) := by
  fun_induction splitTokensFrom cur text with
  | case1 cur => simp
  | case2 cur cs ih =>
    have hcs : splitTokensFrom [] cs = cs.splitOn sep := ih.trans (congrFun List.modifyHead_id _)
    simp [List.splitOn_cons_eq_if_modifyHead, hcs]
  | case3 cur c cs hc ih => simp [List.splitOn_cons_eq_if_modifyHead, hc, ih, Function.comp_def]

theorem splitTokens_eq_splitOn (text : List Byte) : splitTokens text = text.splitOn sep :=
  (splitTokensFrom_eq [] text).trans (congrFun List.modifyHead_id _)

theorem splitTokensFrom_sep_free {cur : Token} {text : List Byte} (h : sep ∉ cur) :
    ∀ u ∈ splitTokensFrom cur text, sep ∉ u := by
  fun_induction splitTokensFrom cur text with
  | case1 cur => simpa using h
  | case2 cur cs ih => exact List.forall_mem_cons.2 ⟨h, ih List.not_mem_nil⟩
  | case3 cur c cs hc ih => exact ih (by simp [h, Ne.symm hc])

theorem splitTokens_sep_free (text : List Byte) : ∀ u ∈ splitTokens text, sep ∉ u :=
  splitTokensFrom_sep_free List.not_mem_nil

theorem splitTokens_ne_nil (text : List Byte) : splitTokens text ≠ [] := by
  rw [splitTokens_eq_splitOn]
  exact List.splitOn_ne_nil sep text

/-- Joining undoes splitting (43_hex_codec R120). -/
theorem intercalate_splitTokens (text : List Byte) : [sep].intercalate (splitTokens text) = text := by
  rw [splitTokens_eq_splitOn, List.intercalate_splitOn]

/-- Splitting undoes joining on separator-free tokens, at least one (43_hex_codec R120). -/
theorem splitTokens_intercalate (hne : toks ≠ []) (h : ∀ u ∈ toks, sep ∉ u) :
    splitTokens ([sep].intercalate toks) = toks := by
  rw [splitTokens_eq_splitOn, List.splitOn_intercalate sep h hne]

end Sys2Proof.Machine
end

section
/-! PROOF. The hex codec: the value of a token, what TOHEX, FROMHEX, TOKJOIN and TOKSPLIT answer, and the laws between them
(43_hex_codec R116 to R120). -/

namespace Sys2Proof.Machine

variable {s t : State} {toks : List Token} {chunks : List Bits} {vals : List Nat} {input out : List Byte}

/-! ## The value of a token -/

theorem State.width_le (s : State) : s.width ≤ 8 := Nat.succ_le_of_lt s.widthM1.isLt

/-- What fits a chunk fits two hex digits (43_hex_codec R115). -/
theorem lt_256_of_lt_two_pow_width {v : Nat} (h : v < 2 ^ s.width) : v < 256 :=
  h.trans_le (Nat.pow_le_pow_right (by decide) s.width_le)

/-- The tokens that have a value are those of two uppercase hex digits, and the value is the one they write (43_hex_codec
R117). -/
theorem tokenVal_eq_some_iff {tok : Token} {v : Nat} : tokenVal tok = some v ↔ v < 256 ∧ tok = hexToken v := by
  constructor
  · intro h
    unfold tokenVal at h
    split at h
    · next hi lo =>
      split at h
      · next x y hx hy =>
        cases h
        obtain ⟨hx15, rfl⟩ := hexVal_eq_some_iff.1 hx
        obtain ⟨hy15, rfl⟩ := hexVal_eq_some_iff.1 hy
        refine ⟨by omega, ?_⟩
        rw [hexToken, show (16 * x + y) / 16 = x by omega, show (16 * x + y) % 16 = y by omega]
      · cases h
    · cases h
  · rintro ⟨hv, rfl⟩
    simp only [hexToken, tokenVal, hexVal_hexDigit (show v / 16 < 16 by omega),
      hexVal_hexDigit (Nat.mod_lt v (by decide)), Nat.div_add_mod]

theorem tokensBits_hexTokens {w : Nat} (h : ∀ v ∈ vals, v < 256 ∧ v < 2 ^ w) :
    tokensBits w (vals.map hexToken) = .ok (vals.flatMap (valBits w)) := by
  induction vals with
  | nil => rfl
  | cons v vs ih =>
    obtain ⟨⟨hv, hvw⟩, hvs⟩ := List.forall_mem_cons.1 h
    rw [List.map_cons, tokensBits, tokenVal_eq_some_iff.2 ⟨hv, rfl⟩, ih hvs]
    exact if_pos hvw

/-- Bits of tokens fail exactly when some token writes no number, or one too large for the width (43_hex_codec R117). -/
theorem tokensBits_eq_error_iff {w : Nat} {e : ErrorKind} :
    tokensBits w toks = .error e ↔ e = .malformedToken ∧ ∃ u ∈ toks, ∀ v, tokenVal u = some v → 2 ^ w ≤ v := by
  induction toks with
  | nil => simp [tokensBits]
  | cons u us ih =>
    rw [tokensBits, List.exists_mem_cons_iff]
    cases hu : tokenVal u with
    | none => simp [eq_comm]
    | some v =>
      by_cases hv : v < 2 ^ w
      · cases hus : tokensBits w us with
        | ok bits => simpa [hus, hv, Nat.not_le.2 hv] using ih
        | error e' => simpa [hus, hv, Nat.not_le.2 hv] using ih
      · simp [hv, Nat.not_lt.1 hv, eq_comm]

/-- A token that is not two uppercase hex digits, or writes a number too large for the width, writes none that fits. -/
theorem two_pow_le_tokenVal {tok : Token} {w : Nat}
    (h : ¬ IsHexToken tok ∨ ∃ v, v < 256 ∧ tok = hexToken v ∧ 2 ^ w ≤ v) :
    ∀ v, tokenVal tok = some v → 2 ^ w ≤ v := by
  intro v hval
  rcases h with hno | ⟨v', hv', hform, hlarge⟩
  · exact absurd ⟨v, tokenVal_eq_some_iff.1 hval⟩ hno
  · cases hval.symm.trans (tokenVal_eq_some_iff.2 ⟨hv', hform⟩)
    exact hlarge

/-- A list of two-byte tokens fits the headers of the TOKENS form (30_encoding R84). -/
theorem hexTokens_short (vals : List Nat) : ∀ u ∈ vals.map hexToken, u.length ≤ 65535 := by
  simp [hexToken]

theorem length_tokensForm_hexTokens (vals : List Nat) : (tokensForm (vals.map hexToken)).length = 4 * vals.length := by
  induction vals with
  | nil => rfl
  | cons v vs ih =>
    simp only [List.map_cons, tokensForm_cons, List.length_cons, List.length_append, ih, hexToken, List.length_nil]
    omega

theorem length_flatMap_valBits (w : Nat) (vals : List Nat) : (vals.flatMap (valBits w)).length = w * vals.length := by
  rw [List.length_flatMap, funext (valBits_length w), List.map_const', List.sum_replicate, smul_eq_mul, Nat.mul_comm]

/-! ## Chunks and their values -/

theorem bitsVal_lt_of_uniform {w : Nat} (h : ∀ ch ∈ chunks, ch.length = w) : ∀ v ∈ chunks.map bitsVal, v < 2 ^ w := by
  rw [List.forall_mem_map]
  exact fun ch hch => h ch hch ▸ bitsVal_lt ch

/-- The bits of the chunks' values are the chunks (43_hex_codec R115). -/
theorem flatMap_valBits_map_bitsVal {w : Nat} (h : ∀ ch ∈ chunks, ch.length = w) :
    (chunks.map bitsVal).flatMap (valBits w) = chunks.flatten := by
  rw [List.flatMap_map, List.flatMap_def, List.map_congr_left (g := id), List.map_id]
  exact fun ch hch => h ch hch ▸ valBits_bitsVal ch

/-- The values of the numbers' bits are the numbers (43_hex_codec R115). -/
theorem map_bitsVal_map_valBits {w : Nat} (h : ∀ v ∈ vals, v < 2 ^ w) : (vals.map (valBits w)).map bitsVal = vals := by
  rw [List.map_map, List.map_congr_left (g := id), List.map_id]
  exact fun v hv => bitsVal_valBits (h v hv)

/-! ## TOHEX -/

theorem length_of_mem_splitChunks {w k : Nat} {bits ch : Bits} (h : bits.length = k * w)
    (hmem : ch ∈ splitChunks w k bits) : ch.length = w := by
  induction k generalizing bits with
  | zero => cases hmem
  | succ k ih =>
    have hsucc : bits.length = k * w + w := h.trans (Nat.succ_mul k w)
    rcases List.mem_cons.1 hmem with rfl | hrest
    · rw [List.length_take]
      omega
    · refine ih ?_ hrest
      rw [List.length_drop]
      omega

/-- ParseChunks accepts exactly the CHUNKS(W) form of its answer (40_command_framework R95). -/
theorem parseChunks_eq_ok_iff {w : Nat} (hw : 0 < w) :
    parseChunks input w = .ok chunks ↔ input = serChunks chunks ∧ ∀ ch ∈ chunks, ch.length = w := by
  constructor
  · intro h
    obtain ⟨bits, rfl, hmod⟩ := exists_serBits_of_parseChunks h
    have hlen : bits.length = bits.length / w * w := (Nat.div_mul_cancel (Nat.dvd_of_mod_eq_zero hmod)).symm
    cases h.symm.trans (parseChunks_serBits hmod)
    exact ⟨by rw [serChunks, splitChunks_flatten w _ bits hlen], fun ch => length_of_mem_splitChunks hlen⟩
  · rintro ⟨rfl, hchunks⟩
    exact parseChunks_serChunks hw hchunks

theorem map_chunkToken (chunks : List Bits) : chunks.map chunkToken = (chunks.map bitsVal).map hexToken := by
  rw [List.map_map]
  rfl

theorem opTohex_serChunks (h : ∀ ch ∈ chunks, ch.length = s.width) :
    opTohex s (serChunks chunks) = .ok (tokensForm ((chunks.map bitsVal).map hexToken), 0) := by
  simp only [opTohex, parseChunks_serChunks s.width_pos h, map_chunkToken, serTokens_of_short (hexTokens_short _)]

theorem opTohex_of_malformed (h : (∃ c ∈ input, c ≠ 0x30 ∧ c ≠ 0x31) ∨ input.length % s.width ≠ 0) :
    opTohex s input = .error .malformedChunk := by
  rw [opTohex, parseChunks_of_malformed h]

/-- What TOHEX answers on is a list of whole chunks (43_hex_codec R116). -/
theorem exists_serChunks_of_opTohex {r : Nat} (h : opTohex s input = .ok (out, r)) :
    ∃ chunks : List Bits, input = serChunks chunks ∧ (∀ ch ∈ chunks, ch.length = s.width) ∧
      out = tokensForm ((chunks.map bitsVal).map hexToken) := by
  cases hparse : parseChunks input s.width with
  | error e =>
    rw [opTohex, hparse] at h
    cases h
  | ok chunks =>
    obtain ⟨rfl, hchunks⟩ := (parseChunks_eq_ok_iff s.width_pos).1 hparse
    cases h.symm.trans (opTohex_serChunks hchunks)
    exact ⟨chunks, rfl, hchunks, rfl⟩

/-- Settles O35: by what TOHEX answers on chunks, and on an input that is malformed. -/
theorem tohexRendersEachChunk : Obligations.TohexRendersEachChunk := by
  refine ⟨rfl, fun s chunks h hchunks => ?_, fun s input h hbad => ?_⟩
  · have hlen : (tokensForm ((chunks.map bitsVal).map hexToken)).length = 4 * chunks.length := by
      rw [length_tokensForm_hexTokens, List.length_map]
    have hop := opTohex_serChunks hchunks
    rw [List.map_map] at hlen hop
    rw [← hlen]
    exact runCommand_of_output prepOk_id h hop
  · exact runCommand_of_error prepOk_id h (opTohex_of_malformed hbad)

/-! ## FROMHEX -/

theorem opFromhex_hexTokens (h : ∀ v ∈ vals, v < 2 ^ s.width) :
    opFromhex s (tokensForm (vals.map hexToken)) = .ok (serBits (vals.flatMap (valBits s.width)), 0) := by
  simp only [opFromhex, parseTokens_tokensForm (hexTokens_short vals),
    tokensBits_hexTokens fun v hv => ⟨lt_256_of_lt_two_pow_width (h v hv), h v hv⟩]

theorem opFromhex_of_bad_token (hshort : ∀ u ∈ toks, u.length ≤ 65535) {tok : Token} (hmem : tok ∈ toks)
    (h : ¬ IsHexToken tok ∨ ∃ v, v < 256 ∧ tok = hexToken v ∧ 2 ^ s.width ≤ v) :
    opFromhex s (tokensForm toks) = .error .malformedToken := by
  simp only [opFromhex, parseTokens_tokensForm hshort, tokensBits_eq_error_iff.2 ⟨rfl, tok, hmem, two_pow_le_tokenVal h⟩]

theorem opFromhex_of_malformed
    (h : ∀ toks : List Token, (∀ u ∈ toks, u.length ≤ 65535) → input ≠ tokensForm toks) :
    opFromhex s input = .error .malformedList := by
  rw [opFromhex, parseTokens_of_malformed h]

/-- Settles O36: by what FROMHEX answers on tokens that write chunks, on a token that does not, and on an input that is no
list. -/
theorem fromhexRendersEachToken : Obligations.FromhexRendersEachToken := by
  refine ⟨rfl, fun s vals h hvals => ?_, fun s toks tok h hshort hmem hbad => ?_, fun s input h hbad => ?_⟩
  · rw [← length_flatMap_valBits, ← serBits_length]
    exact runCommand_of_output prepOk_id h (opFromhex_hexTokens hvals)
  · exact runCommand_of_error prepOk_id h (opFromhex_of_bad_token hshort hmem hbad)
  · exact runCommand_of_error prepOk_id h (opFromhex_of_malformed hbad)

/-! ## TOKJOIN -/

theorem opTokjoin_tokensForm (s : State) (hshort : ∀ u ∈ toks, u.length ≤ 65535) :
    opTokjoin s (tokensForm toks) = .ok ([sep].intercalate toks, 0) := by
  rw [opTokjoin, parseTokens_tokensForm hshort, ← joinTokens_eq_intercalate]

theorem opTokjoin_of_malformed
    (h : ∀ toks : List Token, (∀ u ∈ toks, u.length ≤ 65535) → input ≠ tokensForm toks) :
    opTokjoin s input = .error .malformedList := by
  rw [opTokjoin, parseTokens_of_malformed h]

/-- Settles O37: by what TOKJOIN answers on a list, and on an input that is none. -/
theorem tokjoinPutsSingleSeparators : Obligations.TokjoinPutsSingleSeparators := by
  refine ⟨rfl, fun s toks h hshort => ?_, fun s input h hbad => ?_⟩
  · exact runCommand_of_output prepOk_id h (opTokjoin_tokensForm s hshort)
  · exact runCommand_of_error prepOk_id h (opTokjoin_of_malformed hbad)

/-! ## TOKSPLIT -/

theorem opToksplit_of_short (s : State) (h : ∀ u ∈ splitTokens input, u.length ≤ 65535) :
    opToksplit s input = .ok (tokensForm (splitTokens input), 0) := by
  rw [opToksplit, serTokens_of_short h]

theorem opToksplit_of_long (s : State) (h : ¬ ∀ u ∈ splitTokens input, u.length ≤ 65535) :
    opToksplit s input = .error .overflow := by
  rw [opToksplit, serTokens_of_long h]

/-- TOKSPLIT of separator-free tokens with single separators between them answers their TOKENS form (43_hex_codec R119). -/
theorem opToksplit_intercalate (s : State) (hne : toks ≠ []) (hfree : ∀ u ∈ toks, sep ∉ u)
    (hshort : ∀ u ∈ toks, u.length ≤ 65535) : opToksplit s ([sep].intercalate toks) = .ok (tokensForm toks, 0) := by
  rw [opToksplit, splitTokens_intercalate hne hfree, serTokens_of_short hshort]

/-- TOKSPLIT answers the TOKENS form of the text's tokens or nothing (43_hex_codec R119). -/
theorem short_of_opToksplit {r : Nat} (h : opToksplit s input = .ok (out, r)) :
    (∀ u ∈ splitTokens input, u.length ≤ 65535) ∧ out = tokensForm (splitTokens input) := by
  by_cases hshort : ∀ u ∈ splitTokens input, u.length ≤ 65535
  · cases h.symm.trans (opToksplit_of_short s hshort)
    exact ⟨hshort, rfl⟩
  · cases h.symm.trans (opToksplit_of_long s hshort)

/-- Settles O38: by what TOKSPLIT answers; a token too long for its header is too long for OBUF also. -/
theorem toksplitSplitsAtEverySeparator : Obligations.ToksplitSplitsAtEverySeparator := by
  refine ⟨rfl, fun text => ⟨splitTokens text, splitTokens_ne_nil text, splitTokens_sep_free text,
    (intercalate_splitTokens text).symm⟩, fun s toks hne hfree h hsize => ?_⟩
  by_cases hshort : ∀ u ∈ toks, u.length ≤ 65535
  · exact runCommand_of_output prepOk_id h (opToksplit_intercalate s hne hfree hshort)
  · have hop := opToksplit_of_long s (by rwa [splitTokens_intercalate hne hfree])
    exact ⟨fun hfit => absurd (short_of_tokensForm_le (hfit.trans hsize)) hshort,
      fun _ => runCommand_of_error prepOk_id h hop⟩

/-! ## The laws of the hex codec -/

section Laws

variable {s' t' : State}

/-- TOKJOIN after TOKSPLIT gives the text (43_hex_codec R120). -/
theorem tokjoin_after_toksplit (h : HasInput s input) (run : exec .toksplit s = .next t) (hs : Succeeds t out 0)
    (h' : HasInput s' out) (run' : exec .tokjoin s' = .next t') (hne : t'.errcode ≠ errorCode .overflow) :
    Succeeds t' input 0 := by
  obtain ⟨r, hop⟩ := output_of_succeeds prepOk_id h run hs
  obtain ⟨hshort, rfl⟩ := short_of_opToksplit hop
  have hjoin := succeeds_of_output prepOk_id h' (opTokjoin_tokensForm s' hshort) run' hne
  rwa [intercalate_splitTokens] at hjoin

/-- TOKSPLIT after TOKJOIN gives the list, and one empty token for the empty list (43_hex_codec R120). -/
theorem toksplit_after_tokjoin (htoks : ∀ u ∈ toks, u.length ≤ 65535 ∧ sep ∉ u) (h : HasInput s (tokensForm toks))
    (run : exec .tokjoin s = .next t) (hs : Succeeds t out 0) (h' : HasInput s' out)
    (run' : exec .toksplit s' = .next t') (hne : t'.errcode ≠ errorCode .overflow) :
    (toks ≠ [] → Succeeds t' (tokensForm toks) 0) ∧ (toks = [] → Succeeds t' [0, 0] 0) := by
  have hshort : ∀ u ∈ toks, u.length ≤ 65535 := fun u hu => (htoks u hu).1
  obtain ⟨r, hop⟩ := output_of_succeeds prepOk_id h run hs
  obtain rfl : [sep].intercalate toks = out := by
    cases hop.symm.trans (opTokjoin_tokensForm s hshort)
    rfl
  constructor
  · intro hnil
    have hop' := opToksplit_intercalate s' hnil (fun u hu => (htoks u hu).2) hshort
    exact succeeds_of_output prepOk_id h' hop' run' hne
  · rintro rfl
    exact succeeds_of_output prepOk_id h' (opToksplit_of_short (input := []) s' (by decide)) run' hne

/-- FROMHEX after TOHEX with the same width gives the input (43_hex_codec R120). -/
theorem fromhex_after_tohex (h : HasInput s input) (hwidth : s'.widthM1 = s.widthM1) (run : exec .tohex s = .next t)
    (hs : Succeeds t out 0) (h' : HasInput s' out) (run' : exec .fromhex s' = .next t')
    (hne : t'.errcode ≠ errorCode .overflow) : Succeeds t' input 0 := by
  obtain ⟨r, hop⟩ := output_of_succeeds prepOk_id h run hs
  obtain ⟨chunks, rfl, hchunks, rfl⟩ := exists_serChunks_of_opTohex (s := s) hop
  rw [← State.width_congr hwidth] at hchunks
  have hfrom := succeeds_of_output prepOk_id h' (opFromhex_hexTokens (s := s') (bitsVal_lt_of_uniform hchunks)) run' hne
  rwa [flatMap_valBits_map_bitsVal hchunks] at hfrom

/-- TOHEX after FROMHEX with the same width gives the list (43_hex_codec R120). -/
theorem tohex_after_fromhex (hvals : ∀ v ∈ vals, v < 2 ^ s.width) (h : HasInput s (tokensForm (vals.map hexToken)))
    (hwidth : s'.widthM1 = s.widthM1) (run : exec .fromhex s = .next t) (hs : Succeeds t out 0) (h' : HasInput s' out)
    (run' : exec .tohex s' = .next t') (hne : t'.errcode ≠ errorCode .overflow) :
    Succeeds t' (tokensForm (vals.map hexToken)) 0 := by
  obtain ⟨r, hop⟩ := output_of_succeeds prepOk_id h run hs
  obtain rfl : serChunks (vals.map (valBits s.width)) = out := by
    cases hop.symm.trans (opFromhex_hexTokens hvals)
    rfl
  have huniform : ∀ ch ∈ vals.map (valBits s.width), ch.length = s'.width := by
    simp [State.width_congr hwidth]
  have hto := succeeds_of_output prepOk_id h' (opTohex_serChunks huniform) run' hne
  rwa [map_bitsVal_map_valBits hvals] at hto

end Laws

/-- Settles O39: each of the two pairs of commands, on the other's output. -/
theorem hexCodecLaws : Obligations.HexCodecLaws :=
  ⟨fun _ _ _ _ _ _ => tokjoin_after_toksplit, fun _ _ _ _ _ _ => toksplit_after_tokjoin,
    fun _ _ _ _ _ _ => fromhex_after_tohex, fun _ _ _ _ _ _ => tohex_after_fromhex⟩

end Sys2Proof.Machine
end

section
/-! PROOF. The characters of the tree under Build: the node at the end of a path holds a character exactly when the path is
the code of an entry, and then the character of such an entry (44_decoding_tree R121, R122). -/

namespace Sys2Proof.Machine

/-! ## What each step of Build does to the characters -/

/-- The character a node holds, or none (10_state R47). -/
def Node.char? (n : Node) : Option Byte := if n.hasVal then some n.val else none

@[simp] theorem Node.char?_blank : Node.blank.char? = none := rfl

theorem Node.char?_eq_none_iff {n : Node} : n.char? = none ↔ n.hasVal = false := by simp [Node.char?]

theorem Node.char?_eq_some_iff {n : Node} {c : Byte} : n.char? = some c ↔ n.hasVal = true ∧ n.val = c := by
  simp [Node.char?]

@[simp] theorem Node.char?_withChild (n : Node) (b : Bool) (c : Nat) : (withChild n b c).char? = n.char? := by
  cases b <;> rfl

variable {ram : List Node} {t : Tree} {paths : List Bits}

/-- Creating a child blanks the new node and keeps every other character. -/
theorem char?_addChild (t : Tree) (n : Nat) (b : Bool) (i : Nat) :
    (nodeAt (addChild t n b).nodes i).char? = if t.count = i then none else (nodeAt t.nodes i).char? := by
  have hblank : (nodeAt (t.nodes.set t.count Node.blank) i).char? =
      if t.count = i then none else (nodeAt t.nodes i).char? := by
    rw [nodeAt_set]
    by_cases hi : t.count = i
    · subst hi
      split
      · simp
      · next hout => simp [nodeAt_of_length_le (show t.nodes.length ≤ t.count by simpa using hout)]
    · simp [hi]
  rw [← hblank, addChild, nodeAt_set]
  split
  · next hn => rw [Node.char?_withChild, hn.1]
  · rfl

/-- Walking or creating a path allocates nodes, and frees none. -/
theorem count_le_insertPath (t : Tree) (n : Nat) (bs : Bits) : t.count ≤ (insertPath t n bs).1.count := by
  induction bs generalizing t n with
  | nil => exact Nat.le_refl _
  | cons b bs ih =>
    rw [insertPath]
    split
    · exact (Nat.le_succ _).trans (ih (addChild t n b) _)
    · exact ih t _

/-- The nodes created for a path hold no character, and every other node keeps its own. -/
theorem char?_insertPath (t : Tree) (n : Nat) (bs : Bits) (i : Nat) :
    (nodeAt (insertPath t n bs).1.nodes i).char? =
      if t.count ≤ i ∧ i < (insertPath t n bs).1.count then none else (nodeAt t.nodes i).char? := by
  induction bs generalizing t n with
  | nil => exact (if_neg fun hi => absurd hi.2 (Nat.not_lt.2 hi.1)).symm
  | cons b bs ih =>
    rw [insertPath]
    split
    · have hle : t.count + 1 ≤ (insertPath (addChild t n b) t.count bs).1.count :=
        count_le_insertPath (addChild t n b) _ _
      have hcount : (addChild t n b).count = t.count + 1 := rfl
      rw [ih, char?_addChild, hcount]
      grind
    · exact ih t _

theorem char?_storeChar {n : Nat} (hn : n < t.nodes.length) (c : Byte) (i : Nat) :
    (nodeAt (storeChar t n c).nodes i).char? = if n = i then some c else (nodeAt t.nodes i).char? := by
  rw [storeChar, nodeAt_set]
  by_cases hi : n = i
  · rw [if_pos ⟨hi, hn⟩, if_pos hi]
    rfl
  · simp [hi]

/-! ## The tree of a list of entries -/

/-- The tree under construction when the entries `done` have been put in: its paths are their codes' prefixes, and a node
holds the character of one of the entries whose code ends there, if there is one. -/
structure TreeOfEntries (ram : List Node) (t : Tree) (paths : List Bits) (done : List Entry) : Prop where
  tree : TreeOfPaths ram t paths
  mem : ∀ q, q ∈ paths ↔ q ∈ treePaths done
  holds : ∀ {i : Nat} {p : Bits} {c : Byte}, paths[i]? = some p → (nodeAt t.nodes i).char? = some c →
    ∃ e ∈ done, e.code = p ∧ e.char = c
  bare : ∀ {i : Nat} {p : Bits}, paths[i]? = some p → (nodeAt t.nodes i).char? = none → ∀ e ∈ done, e.code ≠ p

namespace TreeOfEntries

variable {done : List Entry}

theorem code_mem (h : TreeOfEntries ram t paths done) {e : Entry} (he : e ∈ done) {q : Bits} (hq : q <+: e.code) :
    q ∈ paths := (h.mem q).2 (mem_treePaths.2 (.inr ⟨e, he, hq⟩))

theorem initial (ram : List Node) : TreeOfEntries ram { nodes := ram.set 0 Node.blank, count := 1 } [[]] [] where
  tree := TreeOfPaths.initial ram
  mem q := by simp [mem_treePaths]
  holds {i p c} hp hc := by
    obtain rfl : i = 0 := by simpa using (List.getElem?_eq_some_iff.mp hp).1
    cases ram <;> cases hc
  bare _ _ := by simp

/-- Where the paths only grow, a path found later was there before exactly if it is in its old place. -/
theorem mem_iff_getElem?_of_prefix {paths' : List Bits} (hprefix : paths <+: paths') (hnodup : paths'.Nodup) {i : Nat}
    {p : Bits} (hp : paths'[i]? = some p) : p ∈ paths ↔ paths[i]? = some p := by
  obtain ⟨new, rfl⟩ := hprefix
  refine ⟨fun hmem => ?_, List.mem_of_getElem?⟩
  obtain ⟨j, hj⟩ := List.getElem?_of_mem hmem
  have hj' : (paths ++ new)[j]? = some p := (List.getElem?_append_left (List.getElem?_eq_some_iff.mp hj).1).trans hj
  rwa [(List.getElem?_inj (List.getElem?_eq_some_iff.mp hp).1 hnodup).mp (hp.trans hj'.symm)]

section Insert

variable {paths' : List Bits} {e : Entry}

/-- Putting an entry in sets the character at the end of its code's path, and no other. -/
theorem char?_insertEntry (h : TreeOfPaths ram t paths) (hpath : TreeOfPaths ram (insertPath t 0 e.code).1 paths')
    (hroom : (insertPath t 0 e.code).1.count ≤ ram.length)
    (hend : paths'[(insertPath t 0 e.code).2]? = some e.code) (hprefix : paths <+: paths') {i : Nat} {p : Bits}
    (hp : paths'[i]? = some p) :
    (nodeAt (insertEntry t e).nodes i).char? =
      if e.code = p then some e.char else if paths[i]? = some p then (nodeAt t.nodes i).char? else none := by
  have hi : i < (insertPath t 0 e.code).1.count := hpath.lt_count hp
  have hlast : (insertPath t 0 e.code).2 = i ↔ e.code = p := by
    constructor
    · rintro rfl
      exact Option.some.inj (hend.symm.trans hp)
    · rintro rfl
      exact (List.getElem?_inj (List.getElem?_eq_some_iff.mp hend).1 hpath.nodup).mp (hend.trans hp.symm)
  obtain ⟨new, rfl⟩ := hprefix
  have hold : (t.count ≤ i ∧ i < (insertPath t 0 e.code).1.count) ↔ ¬ paths[i]? = some p := by
    rw [← h.count]
    constructor
    · exact fun hnew hsome => absurd (List.getElem?_eq_some_iff.mp hsome).1 (Nat.not_lt.2 hnew.1)
    · exact fun hnone => ⟨Nat.not_lt.1 fun hlt => hnone ((List.getElem?_append_left hlt).symm.trans hp), hi⟩
  rw [insertEntry, char?_storeChar (hpath.size ▸ (hpath.lt_count hend).trans_le hroom), char?_insertPath]
  simp only [hlast, hold, ite_not]

theorem insertEntry (h : TreeOfEntries ram t paths done) {all : List Bits} (hall : all.length ≤ ram.length)
    (hbyte : ram.length ≤ 256) (hsub : ∀ q ∈ treePaths (done ++ [e]), q ∈ all) :
    ∃ paths', TreeOfEntries ram (insertEntry t e) paths' (done ++ [e]) := by
  have hmem : ∀ q, q ∈ treePaths (done ++ [e]) ↔ q ∈ paths ∨ q <+: e.code := fun q => by
    simp only [h.mem, mem_treePaths, List.mem_append, List.mem_singleton, or_and_right, exists_or, exists_eq_left,
      or_assoc]
  obtain ⟨paths', hpath, hend, hprefix, hmem'⟩ := h.tree.insertPath hall hbyte
    (fun q hq => hsub q ((hmem q).2 (.inl hq))) h.tree.root (bs := e.code) (fun q hq => hsub q ((hmem q).2 (.inr hq)))
  have hroom : (insertPath t 0 e.code).1.count ≤ ram.length := by
    rw [← hpath.count]
    exact (List.subperm_of_subset hpath.nodup
      fun q hq => hsub q ((hmem q).2 ((hmem' q).1 hq))).length_le.trans hall
  refine ⟨paths', hpath.storeChar (hpath.lt_count hend) e.char, fun q => (hmem' q).trans (hmem q).symm,
    fun {i p c} hp hc => ?_, fun {i p} hp hc => ?_⟩ <;> rw [char?_insertEntry h.tree hpath hroom hend hprefix hp] at hc
  · split at hc
    · next hcode => exact ⟨e, by simp, hcode, Option.some.inj hc⟩
    · split at hc
      · next hp' =>
        obtain ⟨f, hf, hfc⟩ := h.holds hp' hc
        exact ⟨f, List.mem_append_left _ hf, hfc⟩
      · cases hc
  · split at hc
    · cases hc
    · next hcode =>
      refine List.forall_mem_append.2 ⟨fun f hf => ?_, by simpa using hcode⟩
      split at hc
      · next hp' => exact h.bare hp' hc f hf
      · next hp' =>
        rintro rfl
        exact hp' ((mem_iff_getElem?_of_prefix hprefix hpath.nodup hp).1 (h.code_mem hf List.prefix_rfl))

end Insert

theorem foldl_insertEntry (h : TreeOfEntries ram t paths done) {es : List Entry}
    (hroom : (treePaths (done ++ es)).length ≤ ram.length) (hbyte : ram.length ≤ 256) :
    ∃ paths', TreeOfEntries ram (es.foldl Machine.insertEntry t) paths' (done ++ es) := by
  induction es generalizing t paths done with
  | nil => exact ⟨paths, by simpa using h⟩
  | cons e es ih =>
    rw [List.append_cons] at hroom ⊢
    obtain ⟨paths₁, h₁⟩ := h.insertEntry hroom hbyte (e := e) fun q => by
      simp only [mem_treePaths, List.mem_append]
      exact Or.imp_right fun ⟨f, hf, hq⟩ => ⟨f, .inl hf, hq⟩
    exact ih h₁ hroom

end TreeOfEntries

/-- Build's tree is the tree of the table's entries, where the node RAM has room for it. -/
theorem buildTree_treeOfEntries {table : List Entry} (hroom : (treePaths table).length ≤ ram.length)
    (hbyte : ram.length ≤ 256) : ∃ paths, TreeOfEntries ram (buildTree table ram) paths table :=
  (TreeOfEntries.initial ram).foldl_insertEntry hroom hbyte

theorem freshTree_treeOfEntries {p : Instance} (hp : validInstance p = true) :
    ∃ paths, TreeOfEntries (List.replicate p.nodeCap Node.blank) (freshTree p) paths p.codeTable := by
  obtain ⟨hroom, hcap⟩ := treePaths_fit_of_valid hp
  exact buildTree_treeOfEntries (by simpa using hroom) (by simpa using hcap)

end Sys2Proof.Machine
end

section
/-! PROOF. BUILD and DECODE: the walk on the tree EnsureTree leaves is the walk on the fresh tree of the table; where no code
begins another it reads codes back (44_decoding_tree R123 to R126). -/

namespace Sys2Proof.Machine

variable {s t : State}

/-! ## BUILD -/

/-- From reset BUILD makes the fresh tree of the block's parameters (44_decoding_tree R123). -/
theorem ensureTree_resetOf_nodeCount (p : Instance) :
    (ensureTree (State.resetOf p)).nodeCount = BitVec.ofNat 32 (freshTree p).count := by
  rw [ensureTree_of_invalid rfl]
  rfl

/-- Settles O40: BUILD is the commit of an empty output on the state EnsureTree leaves. -/
theorem buildAlwaysSucceeds : Obligations.BuildAlwaysSucceeds := by
  refine ⟨rfl, fun s => ⟨(ensureTree s).commitOk [] 0, rfl, commitOk_succeeds _ _ _, ensureTree_treeValid s,
    commit_sameTree _ (.ok ([], 0)), (exec_frame (i := .build) rfl).1,
    fun hv => exec_sameTree_of_valid (i := .build) hv rfl⟩, _, rfl, ?_⟩
  obtain ⟨hcount, -⟩ := defaultTreeIsComplete
  exact (ensureTree_resetOf_nodeCount defaultInstance).trans (congrArg (BitVec.ofNat 32) hcount)

/-! ## DECODE -/

theorem opDecode_serBits (s : State) (bits : Bits) : opDecode s (serBits bits) = walk s.nodes 0 0 bits := by
  rw [opDecode, parseBits, bitsOfBytes_serBits]

theorem opDecode_of_bad_byte {input : List Byte} (h : ∃ c ∈ input, c ≠ 0x30 ∧ c ≠ 0x31) :
    opDecode s input = .error .malformedBits := by
  rw [opDecode, parseBits, bitsOfBytes_eq_error_iff.2 ⟨rfl, h⟩]

/-- Bits that no walk follows give NO_PATH (44_decoding_tree R125). -/
theorem walk_of_not_walks {nodes : List Node} {n r : Nat} {bits : Bits}
    (h : ¬ ∃ out r', Walks nodes n r bits out r') : walk nodes n r bits = .error .noPath := by
  cases hw : walk nodes n r bits with
  | error c => rw [walk_error hw]
  | ok answer => exact absurd ⟨_, _, walk_eq_ok_iff.1 hw⟩ h

/-- Settles O44: by what DECODE answers on bits with a walk, on bits without one, and on a byte that is no bit. -/
theorem decodeFollowsTheWalk : Obligations.DecodeFollowsTheWalk := by
  refine ⟨rfl, fun s bits out r h hwalks => ?_, fun s bits h hno => ?_, fun s input c h hc h0 h1 => ?_⟩
  · exact runCommand_of_output prepOk_ensureTree h ((opDecode_serBits _ bits).trans (walk_eq_ok_iff.2 hwalks))
  · exact runCommand_of_error prepOk_ensureTree h ((opDecode_serBits _ bits).trans (walk_of_not_walks hno))
  · exact runCommand_of_error prepOk_ensureTree h (opDecode_of_bad_byte ⟨c, hc, h0, h1⟩)

/-! ## The walk sees allocated nodes only -/

theorem buildTree_count_pos (table : List Entry) (ram : List Node) : 0 < (buildTree table ram).count := by
  have key : ∀ (es : List Entry) (t : Tree), 0 < t.count → 0 < (es.foldl insertEntry t).count := by
    intro es
    induction es with
    | nil => exact fun _ => id
    | cons e es ih => exact fun t h => ih _ (h.trans_le (count_le_insertPath t 0 e.code))
  exact key table _ Nat.one_pos

/-- Trees with the same allocated nodes have the same walks. -/
theorem SameAllocated.walk_eq {t u : Tree} (h : SameAllocated t u) {n : Nat} (hn : n < t.count) (r : Nat) (bits : Bits) :
    walk u.nodes n r bits = walk t.nodes n r bits := by
  induction bits generalizing n r with
  | nil => rfl
  | cons b bs ih =>
    have hchild := h.child n hn b
    simp only [walk, h.childOf_eq hn, h.node _ hchild, ih hchild, ih (Nat.zero_lt_of_lt hn)]

/-- On the tree EnsureTree leaves the walk is that on the fresh tree of the parameters (44_decoding_tree R123). -/
theorem walk_ensureTree (h : s.TreeOk) (bits : Bits) :
    walk (ensureTree s).nodes 0 0 bits = walk (freshTree s.inst).nodes 0 0 bits := by
  obtain ⟨hsize, -, hnodes⟩ := ensureTree_treeOk h
  obtain ⟨-, hnode⟩ := hnodes (ensureTree_treeValid s)
  rw [ensureTree_inst] at hsize hnode
  have hself : SameAllocated (freshTree s.inst) (freshTree s.inst) := buildTree_sameAllocated _ rfl
  have hsame : SameAllocated (freshTree s.inst) { nodes := (ensureTree s).nodes, count := (freshTree s.inst).count } :=
    ⟨rfl, by simp [hsize, freshTree], hnode, hself.child⟩
  exact hsame.walk_eq (buildTree_count_pos _ _) 0 bits

theorem walks_ensureTree_iff (h : s.TreeOk) {bits : Bits} {out : List Byte} {r : Nat} :
    Walks (ensureTree s).nodes 0 0 bits out r ↔ Walks (freshTree s.inst).nodes 0 0 bits out r := by
  rw [← walk_eq_ok_iff, ← walk_eq_ok_iff, walk_ensureTree h]

/-! ## Walking along codes -/

/-- An entry whose code begins another's is that entry (00_scope R17). -/
theorem PrefixFree.eq_of_prefix {table : List Entry} (h : PrefixFree table) {e f : Entry} (he : e ∈ table)
    (hf : f ∈ table) (hp : f.code <+: e.code) : f = e := by
  obtain ⟨i, hi⟩ := List.getElem?_of_mem he
  obtain ⟨j, hj⟩ := List.getElem?_of_mem hf
  by_cases hij : j = i
  · exact Option.some.inj ((hij ▸ hj).symm.trans hi)
  · exact absurd hp (h j i f e hj hi hij)

/-- The child towards a path of the tree is there. -/
theorem TreeOfPaths.exists_child {ram : List Node} {t : Tree} {paths : List Bits} (h : TreeOfPaths ram t paths) {n : Nat}
    {p : Bits} {b : Bool} (hp : paths[n]? = some p) (hb : p ++ [b] ∈ paths) :
    childOf t.nodes n b ≠ 0 ∧ paths[childOf t.nodes n b]? = some (p ++ [b]) := by
  have hne : childOf t.nodes n b ≠ 0 := fun habsent => h.childless hp habsent hb
  exact ⟨hne, h.child hp hne⟩

namespace TreeOfEntries

variable {ram : List Node} {t : Tree} {paths : List Bits} {table : List Entry} {e : Entry} {n : Nat}
  (h : TreeOfEntries ram t paths table) (hfree : PrefixFree table) (he : e ∈ table)
include h hfree he

/-- The node at the end of a code holds its entry's character. -/
theorem char?_of_code (hn : paths[n]? = some e.code) : (nodeAt t.nodes n).char? = some e.char := by
  cases hc : (nodeAt t.nodes n).char? with
  | none => exact absurd rfl (h.bare hn hc e he)
  | some c =>
    obtain ⟨f, hf, hfe, rfl⟩ := h.holds hn hc
    rw [hfree.eq_of_prefix he hf (hfe ▸ List.prefix_rfl)]

/-- A node inside a code holds none. -/
theorem char?_of_proper_prefix {p q : Bits} (hn : paths[n]? = some p) (hcode : e.code = p ++ q) (hq : q ≠ []) :
    (nodeAt t.nodes n).char? = none := by
  cases hc : (nodeAt t.nodes n).char? with
  | none => rfl
  | some c =>
    obtain ⟨f, hf, rfl, -⟩ := h.holds hn hc
    obtain rfl := hfree.eq_of_prefix he hf ⟨q, hcode.symm⟩
    exact absurd (List.self_eq_append_right.1 hcode) hq

/-- Inside a code the walk moves from node to node and emits nothing. -/
theorem exists_walk_inside {p bs q : Bits} (hn : paths[n]? = some p) (hcode : e.code = p ++ (bs ++ q)) (hq : q ≠ [])
    (r : Nat) :
    ∃ m, paths[m]? = some (p ++ bs) ∧ ∀ rest out r', Walks t.nodes m (r + bs.length) rest out r' →
      Walks t.nodes n r (bs ++ rest) out r' := by
  induction bs generalizing n p r with
  | nil => exact ⟨n, by simpa using hn, fun _ _ _ => id⟩
  | cons b bs ih =>
    have hcode' : e.code = (p ++ [b]) ++ (bs ++ q) := by simpa using hcode
    obtain ⟨hchild, hm⟩ := h.tree.exists_child hn (h.code_mem he ⟨_, hcode'.symm⟩)
    have hplain := h.char?_of_proper_prefix hfree he hm hcode' (by simp [hq])
    obtain ⟨m, hpath, hwalk⟩ := ih hm hcode' (r + 1)
    refine ⟨m, by simpa using hpath, fun rest out r' hrest => ?_⟩
    rw [List.length_cons, Nat.add_comm bs.length, ← Nat.add_assoc] at hrest
    exact .moves hchild (Node.char?_eq_none_iff.1 hplain) (hwalk rest out r' hrest)

/-- A whole code emits its entry's character (44_decoding_tree R126). -/
theorem walks_code (hne : e.code ≠ []) {rest : Bits} {out : List Byte} {r : Nat} (hrest : Walks t.nodes 0 0 rest out r) :
    Walks t.nodes 0 0 (e.code ++ rest) (e.char :: out) r := by
  obtain ⟨bs, b, hcode⟩ := List.eq_nil_or_concat' e.code |>.resolve_left hne
  obtain ⟨m, hm, hwalk⟩ := h.exists_walk_inside hfree he h.tree.root hcode (List.cons_ne_nil b []) 0
  rw [List.nil_append] at hm
  obtain ⟨hchild, hend⟩ := h.tree.exists_child (b := b) hm (h.code_mem he (hcode ▸ List.prefix_rfl))
  obtain ⟨hvalued, hval⟩ := Node.char?_eq_some_iff.1 (h.char?_of_code hfree he (hcode ▸ hend))
  rw [hcode, List.append_assoc, ← hval]
  exact hwalk _ _ _ (.emits hchild hvalued hrest)

/-- A proper beginning of a code emits nothing and is the residue (44_decoding_tree R126). -/
theorem walks_proper_prefix {p q : Bits} (hcode : e.code = p ++ q) (hq : q ≠ []) : Walks t.nodes 0 0 p [] p.length := by
  obtain ⟨m, -, hwalk⟩ := h.exists_walk_inside hfree he h.tree.root hcode hq 0
  simpa using hwalk [] [] p.length (by simpa using .finished m p.length)

omit he

/-- The codes of a text emit the text (44_decoding_tree R126). -/
theorem walks_codes (hne : ∀ e ∈ table, e.code ≠ []) {text : List Byte} {codes : List Bits}
    (hcodes : List.Forall₂ (fun c k => lookup table c = some k) text codes) {rest : Bits} {out : List Byte} {r : Nat}
    (hrest : Walks t.nodes 0 0 rest out r) : Walks t.nodes 0 0 (codes.flatten ++ rest) (text ++ out) r := by
  induction hcodes with
  | nil => exact hrest
  | cons hck _ ih =>
    obtain ⟨j, e, he, rfl, rfl, -⟩ := lookup_eq_some_iff.1 hck
    have hmem := List.mem_of_getElem? he
    rw [List.flatten_cons, List.append_assoc]
    exact h.walks_code hfree hmem (hne e hmem) ih

end TreeOfEntries

theorem code_ne_nil_of_valid {p : Instance} (hp : validInstance p = true) : ∀ e ∈ p.codeTable, e.code ≠ [] := by
  simp only [validInstance, codesNonEmpty, Bool.and_eq_true, List.all_eq_true] at hp
  obtain ⟨-, hne, -⟩ := hp
  simpa using hne

/-- Settles O45: on the fresh tree each code emits its character, and the beginning of a code is left over. -/
theorem decodeInvertsTobits : Obligations.DecodeInvertsTobits := by
  intro s text codes p q e hvalid hfree htree hcodes he hcode hq h hfit
  obtain ⟨paths, hentries⟩ := freshTree_treeOfEntries hvalid
  have hwalks := hentries.walks_codes hfree (code_ne_nil_of_valid hvalid) hcodes
    (hentries.walks_proper_prefix hfree he hcode hq)
  rw [List.append_nil] at hwalks
  obtain ⟨-, hwalk, -⟩ := decodeFollowsTheWalk
  obtain ⟨fits, -⟩ := hwalk s _ text p.length h ((walks_ensureTree_iff htree).2 hwalks)
  obtain ⟨t, run, hsucc, ⟨-, -, hv⟩, helse⟩ := fits hfit
  exact ⟨t, run, hsucc, hv.trans (ensureTree_treeValid s), helse⟩

end Sys2Proof.Machine
end

section
/-! PROOF. The errors each command's computation answers (60_exceptions R133, R134), and that NO_PATH is none of them for
DEFAULT_TABLE, whose tree is complete (44_decoding_tree R125). -/

namespace Sys2Proof.Machine

variable {s t : State} {input : List Byte} {c : ErrorKind}

/-! ## What can fail -/

theorem opTobits_error (h : opTobits s input = .error c) : c = .unknownCharacter := by
  unfold opTobits at h
  split at h
  · cases h
  · next hbits =>
    cases h
    exact (codeBits_eq_error_iff.1 hbits).1

theorem opPack_error (h : opPack s input = .error c) : c = .unknownCharacter := by
  unfold opPack at h
  split at h
  · cases h
  · next hbits =>
    cases h
    exact (codeBits_eq_error_iff.1 hbits).1

theorem opChunk_error (h : opChunk s input = .error c) : c = .malformedBits := by
  unfold opChunk at h
  split at h
  · cases h
  · next hbits =>
    cases h
    exact (bitsOfBytes_eq_error_iff.1 hbits).1

theorem parseChunks_error {w : Nat} (h : parseChunks input w = .error c) : c = .malformedChunk := by
  unfold parseChunks at h
  split at h
  · next hbits =>
    cases h
    exact (bitsOfBytes_eq_error_iff.1 hbits).1
  · split at h
    · cases h
    · cases h
      rfl

theorem opJoin_error (h : opJoin s input = .error c) : c = .malformedChunk := by
  unfold opJoin at h
  split at h
  · cases h
  · next hchunks =>
    cases h
    exact parseChunks_error hchunks

/-- TOHEX never overflows in its token headers: each token has two bytes (43_hex_codec R116). -/
theorem opTohex_error (h : opTohex s input = .error c) : c = .malformedChunk := by
  cases hchunks : parseChunks input s.width with
  | error e =>
    rw [opTohex, hchunks] at h
    cases h
    exact parseChunks_error hchunks
  | ok chunks =>
    obtain ⟨rfl, hwidth⟩ := (parseChunks_eq_ok_iff s.width_pos).1 hchunks
    cases h.symm.trans (opTohex_serChunks hwidth)

theorem opFromhex_error (h : opFromhex s input = .error c) : c = .malformedList ∨ c = .malformedToken := by
  unfold opFromhex at h
  split at h
  · next htoks =>
    cases h
    exact .inl (parseTokensUpTo_error htoks)
  · split at h
    · cases h
    · next hbits =>
      cases h
      exact .inr (tokensBits_eq_error_iff.1 hbits).1

theorem opTokjoin_error (h : opTokjoin s input = .error c) : c = .malformedList := by
  unfold opTokjoin at h
  split at h
  · cases h
  · next htoks =>
    cases h
    exact parseTokensUpTo_error htoks

theorem opToksplit_error (h : opToksplit s input = .error c) : c = .overflow := by
  by_cases hshort : ∀ u ∈ splitTokens input, u.length ≤ 65535
  · cases h.symm.trans (opToksplit_of_short s hshort)
  · cases h.symm.trans (opToksplit_of_long s hshort)
    rfl

/-- DECODE fails in its parse, or where no walk follows the bits (44_decoding_tree R125). -/
theorem opDecode_error (h : opDecode s input = .error c) :
    c = .malformedBits ∨ ∃ bits, c = .noPath ∧ walk s.nodes 0 0 bits = .error c := by
  unfold opDecode at h
  split at h
  · next bits _ => exact .inr ⟨bits, walk_error h, h⟩
  · next hbits =>
    cases h
    exact .inl (bitsOfBytes_eq_error_iff.1 hbits).1

/-- UNPACK fails in its tokens, or where no walk follows the bits (45_path_commands R129). -/
theorem opUnpack_error (h : opUnpack s input = .error c) :
    c = .malformedToken ∨ ∃ bits, c = .noPath ∧ walk s.nodes 0 0 bits = .error c := by
  unfold opUnpack at h
  split at h
  · next bits _ => exact .inr ⟨bits, walk_error h, h⟩
  · next hbits =>
    cases h
    exact .inl (tokensBits_eq_error_iff.1 hbits).1

/-- What a command that reads its input commits: a success, BAD_LEN, OVERFLOW, or an error its own computation answers
(40_command_framework R89, R90). -/
theorem runCommand_errcode {prep : State → State} {op : State → List Byte → CommandResult}
    (run : runCommand prep op s = .next t) :
    t.errcode = 0 ∨ ∃ c, t.errcode = errorCode c ∧
      (c = .badLen ∨ c = .overflow ∨ ∃ input, op (prep s) input = .error c) := by
  rcases runCommand_next run with rfl | ⟨input, -, rfl⟩
  · exact .inr ⟨.badLen, rfl, .inl rfl⟩
  · cases hop : op (prep s) input with
    | error c => exact .inr ⟨c, rfl, .inr (.inr ⟨input, hop⟩)⟩
    | ok answer =>
      obtain ⟨out, r⟩ := answer
      rcases Nat.lt_or_ge s.inst.obufSize out.length with hover | hfit
      · rw [checkOutput_overflow hover]
        exact .inr ⟨.overflow, rfl, .inr (.inl rfl)⟩
      · rw [checkOutput_fits hfit]
        exact .inl rfl

theorem errorCode_ne_noPath (h : c ≠ .noPath) : errorCode c ≠ errorCode .noPath := by
  cases c with
  | noPath => exact absurd rfl h
  | _ => decide

/-- A command commits NO_PATH only if its own computation answers it (60_exceptions R134). -/
theorem runCommand_ne_noPath {prep : State → State} {op : State → List Byte → CommandResult}
    (hop : ∀ input, op (prep s) input ≠ .error .noPath) (run : runCommand prep op s = .next t) :
    t.errcode ≠ errorCode .noPath := by
  rcases runCommand_errcode run with hzero | ⟨c, hc, hcases⟩
  · exact hzero ▸ (errorCode_ne_zero .noPath).symm
  · rw [hc]
    refine errorCode_ne_noPath ?_
    rcases hcases with rfl | rfl | ⟨input, herr⟩
    · decide
    · decide
    · rintro rfl
      exact hop input herr

/-! ## The complete tree -/

/-- In a tree whose every node holds a character or has both children, the root among the latter, every bit string has a
walk (44_decoding_tree R125). -/
theorem exists_walks_of_complete {t : Tree} (hchild : ∀ i < t.count, ∀ b, childOf t.nodes i b < t.count)
    (hcomplete : ∀ i < t.count, (nodeAt t.nodes i).hasVal = true ∨ ∀ b, childOf t.nodes i b ≠ 0)
    (hroot : ∀ b, childOf t.nodes 0 b ≠ 0) {n : Nat} (hn : n < t.count) (hboth : ∀ b, childOf t.nodes n b ≠ 0) (r : Nat)
    (bits : Bits) : ∃ out r', Walks t.nodes n r bits out r' := by
  induction bits generalizing n r with
  | nil => exact ⟨_, _, .finished n r⟩
  | cons b bs ih =>
    have hm := hchild n hn b
    cases hval : (nodeAt t.nodes (childOf t.nodes n b)).hasVal with
    | true =>
      obtain ⟨out, r', hrest⟩ := ih (Nat.zero_lt_of_lt hn) hroot 0
      exact ⟨_, r', .emits (hboth b) hval hrest⟩
    | false =>
      have hboth' := (hcomplete _ hm).resolve_left (by simp [hval])
      obtain ⟨out, r', hrest⟩ := ih hm hboth' (r + 1)
      exact ⟨out, r', .moves (hboth b) hval hrest⟩

/-- The tree of DEFAULT_TABLE is complete (10_state R46). -/
theorem exists_walks_defaultTree (bits : Bits) :
    ∃ out r, Walks (freshTree defaultInstance).nodes 0 0 bits out r := by
  obtain ⟨hcount, hrootword, -, -, -, hfull, -⟩ := defaultTreeIsComplete
  have hself : SameAllocated (freshTree defaultInstance) (freshTree defaultInstance) := buildTree_sameAllocated _ rfl
  have hcomplete : ∀ i < (freshTree defaultInstance).count, (nodeAt (freshTree defaultInstance).nodes i).hasVal = true ∨
      ∀ b, childOf (freshTree defaultInstance).nodes i b ≠ 0 := fun i hi =>
    (hfull ⟨i, hcount ▸ hi⟩).imp_right Bool.forall_bool.2
  have hpos : 0 < (freshTree defaultInstance).count := buildTree_count_pos _ _
  have hplain : (nodeAt (freshTree defaultInstance).nodes 0).hasVal = false := by
    have hbit := getLsbD_nodeWord (nodeAt (freshTree defaultInstance).nodes 0) 24
    rw [hrootword] at hbit
    simpa using hbit.symm
  have hroot := (hcomplete 0 hpos).resolve_left (by simp [hplain])
  exact exists_walks_of_complete hself.child hcomplete hroot hpos hroot 0 bits

theorem freshTree_ofThisSpec {p : Instance} (h : OfThisSpec p) : freshTree p = freshTree defaultInstance := by
  obtain ⟨htable, -, hcap, -⟩ := h
  rw [freshTree, htable, hcap]
  rfl

/-- With DEFAULT_TABLE the walk answers an error on no bit string (44_decoding_tree R125). -/
theorem walk_ensureTree_ne_error (hspec : OfThisSpec s.inst) (htree : s.TreeOk) (bits : Bits) :
    walk (ensureTree s).nodes 0 0 bits ≠ .error c := by
  obtain ⟨out, r, hwalks⟩ := exists_walks_defaultTree bits
  rw [walk_ensureTree htree, freshTree_ofThisSpec hspec, walk_eq_ok_iff.2 hwalks]
  nofun

/-- Settles O46: only the walk answers NO_PATH, and the walk of the complete tree never does. -/
theorem defaultTableHasNoAbsentPath : Obligations.DefaultTableHasNoAbsentPath := by
  intro s t i hspec htree run
  have hok : ∀ bits, walk (ensureTree s).nodes 0 0 bits ≠ .error .noPath := walk_ensureTree_ne_error hspec htree
  cases i with
  | build =>
    cases run
    exact (errorCode_ne_zero .noPath).symm
  | tobits => exact runCommand_ne_noPath (fun _ h => nomatch opTobits_error h) run
  | chunk => exact runCommand_ne_noPath (fun _ h => nomatch opChunk_error h) run
  | join => exact runCommand_ne_noPath (fun _ h => nomatch opJoin_error h) run
  | tohex => exact runCommand_ne_noPath (fun _ h => nomatch opTohex_error h) run
  | fromhex => exact runCommand_ne_noPath (fun _ h => nomatch opFromhex_error h) run
  | tokjoin => exact runCommand_ne_noPath (fun _ h => nomatch opTokjoin_error h) run
  | toksplit => exact runCommand_ne_noPath (fun _ h => nomatch opToksplit_error h) run
  | pack => exact runCommand_ne_noPath (fun _ h => nomatch opPack_error h) run
  | decode =>
    exact runCommand_ne_noPath
      (fun _ h => (opDecode_error h).elim nofun fun ⟨bits, _, hwalk⟩ => hok bits hwalk) run
  | unpack =>
    exact runCommand_ne_noPath
      (fun _ h => (opUnpack_error h).elim nofun fun ⟨bits, _, hwalk⟩ => hok bits hwalk) run

end Sys2Proof.Machine
end

section
/-! PROOF. The wire text and its tokens, what PACK and UNPACK answer, and PACK and UNPACK against their chains of stand-alone
commands and against each other (45_path_commands R127 to R131). -/

namespace Sys2Proof.Machine

variable {s t u : State} {input out : List Byte} {bits : Bits} {chunks : List Bits} {vals : List Nat} {toks : List Token}
  {c : ErrorKind} {r : Nat}

/-! ## What a commit shows of a command's answer -/

theorem errorCode_injective : Function.Injective errorCode := by
  intro c d
  cases c <;> cases d <;> decide

section Answer

variable {prep : State → State} {op : State → List Byte → CommandResult}

/-- A command succeeds only with an output that fits OBUF (40_command_framework R89). -/
theorem length_le_of_succeeds (hp : PrepOk prep) (h : HasInput s input) (run : runCommand prep op s = .next t)
    (hs : Succeeds t out r) : out.length ≤ s.inst.obufSize := by
  obtain ⟨r', hop⟩ := output_of_succeeds hp h run hs
  obtain ⟨-, overflows⟩ := runCommand_of_output hp h hop
  by_contra hover
  obtain ⟨u, hu, ⟨herr, -⟩, -⟩ := overflows (Nat.not_le.1 hover)
  cases run.symm.trans hu
  obtain ⟨hzero, -⟩ := hs
  exact errorCode_ne_zero .overflow (herr.symm.trans hzero)

/-- A command that has failed with another error than OVERFLOW has answered that error. -/
theorem error_of_fails (hp : PrepOk prep) (h : HasInput s input) (run : runCommand prep op s = .next t)
    (hf : Fails t c) (hc : c ≠ .overflow) : op (prep s) input = .error c := by
  obtain ⟨hcode, -⟩ := hf
  cases hop : op (prep s) input with
  | error d =>
    obtain ⟨u, hu, ⟨herr, -⟩, -⟩ := runCommand_of_error hp h hop
    cases run.symm.trans hu
    rw [errorCode_injective (herr.symm.trans hcode)]
  | ok answer =>
    obtain ⟨out, r⟩ := answer
    have hne : t.errcode ≠ errorCode .overflow := fun hover => hc (errorCode_injective (hcode.symm.trans hover))
    obtain ⟨hzero, -⟩ := succeeds_of_output hp h hop run hne
    exact absurd (hcode.symm.trans hzero) (errorCode_ne_zero c)

end Answer

/-- What a commit shows as the command's result does not depend on the state it is made on (40_command_framework R90). -/
theorem commit_succeeds_congr {res : CommandResult} (h : Succeeds (s.commit res) out r) :
    Succeeds (u.commit res) out r := by
  cases res <;> exact h

theorem commit_fails_congr {res : CommandResult} (h : Fails (s.commit res) c) : Fails (u.commit res) c := by
  cases res <;> exact h

/-! ## The wire text -/

theorem serBits_injective : Function.Injective serBits := fun as _ h =>
  Except.ok.inj ((bitsOfBytes_serBits .malformedBits as).symm.trans (bitsOfBytes_eq_ok_iff.2 h))

/-- No uppercase hex digit is the separator, which has no hex value (40_command_framework R100). -/
theorem sep_not_mem_hexToken {v : Nat} (h : v < 256) : sep ∉ hexToken v := by
  have hdigit : ∀ d < 16, sep ≠ hexDigit d := fun d hd hsep => by
    cases (congrArg hexVal hsep).trans (hexVal_hexDigit hd)
  simp [hexToken, hdigit (v / 16) (by omega), hdigit (v % 16) (Nat.mod_lt v (by decide))]

theorem hexTokens_sep_free (h : ∀ v ∈ vals, v < 256) : ∀ u ∈ vals.map hexToken, sep ∉ u :=
  List.forall_mem_map.2 fun v hv => sep_not_mem_hexToken (h v hv)

/-- Two digits a token and one separator between any two (45_path_commands R127). -/
theorem length_intercalate_hexTokens (vals : List Nat) :
    ([sep].intercalate (vals.map hexToken)).length = 3 * vals.length - 1 := by
  induction vals with
  | nil => rfl
  | cons v vs ih =>
    cases vs with
    | nil => rfl
    | cons w ws =>
      rw [List.map_cons, List.map_cons, List.intercalate_cons_cons, ← List.map_cons]
      simp only [List.length_append, ih, hexToken, List.length_cons, List.length_nil]
      omega

/-- Padding fills a bit string up to chunks of the facade's width (45_path_commands R127). -/
theorem exists_chunks_padBits (bits : Bits) :
    ∃ (p : Nat) (chunks : List Bits), p < 8 ∧ (bits.length + p) % 8 = 0 ∧ (∀ ch ∈ chunks, ch.length = 8) ∧
      chunks.flatten = bits ++ List.replicate p false := by
  obtain ⟨p, hp, hmod, hpad⟩ := exists_padBits_eq 8 bits (by decide)
  have hlen := padBits_length 8 bits (by decide)
  exact ⟨p, _, hp, hmod, fun ch => length_of_mem_splitChunks hlen, (splitChunks_flatten 8 _ _ hlen).trans hpad⟩

/-- The wire text is made of the only chunks that hold the bits and fewer zeros than a chunk (45_path_commands R127). -/
theorem wireText_eq_intercalate {p : Nat} (hp : p < 8) (hchunks : ∀ ch ∈ chunks, ch.length = 8)
    (hflat : chunks.flatten = bits ++ List.replicate p false) :
    wireText bits = [sep].intercalate ((chunks.map bitsVal).map hexToken) := by
  have hlen : bits.length + p = chunks.length * 8 := by
    rw [← length_flatten_of_uniform hchunks, hflat, List.length_append, List.length_replicate]
  have hpad : padBits 8 bits = chunks.flatten := by
    rw [padBits_eq (k := chunks.length) (by omega) (by omega), hflat, ← hlen, Nat.add_sub_cancel_left]
  have hcount : chunkCount bits.length 8 = chunks.length := (chunkCount_eq_iff (by decide)).2 (by omega)
  rw [wireText, facadeWidth, hcount, hpad, splitChunks_of_flatten 8 chunks hchunks, map_chunkToken,
    joinTokens_eq_intercalate]

/-! ## PACK -/

theorem opPack_of_bits (h : codeBits s.inst.codeTable input = .ok bits) : opPack s input = .ok (wireText bits, 0) := by
  rw [opPack, h]

theorem opPack_of_unknown (h : ∃ b ∈ input, lookup s.inst.codeTable b = none) :
    opPack s input = .error .unknownCharacter := by
  rw [opPack, codeBits_eq_error_iff.2 ⟨rfl, h⟩]

/-- Settles O47: by the chunks the wire text is made of, and what PACK answers when a byte has no code. -/
theorem packMakesTheWireText : Obligations.PackMakesTheWireText := by
  refine ⟨rfl, fun s input codes chunks p h hcodes hp hchunks hflat => ?_, fun s input b h hb hnone => ?_⟩
  · have hop := opPack_of_bits (codeBits_of_codes hcodes)
    have hlen := length_intercalate_hexTokens (chunks.map bitsVal)
    rw [wireText_eq_intercalate hp hchunks hflat] at hop
    rw [List.map_map] at hop hlen
    rw [List.length_map] at hlen
    obtain ⟨fits, overflows⟩ := runCommand_of_output prepOk_id h hop
    rw [hlen] at fits overflows
    refine ⟨fun hfit => ?_, overflows⟩
    obtain ⟨t, run, hsucc, htree, helse⟩ := fits hfit
    have ⟨_, holen, _⟩ := hsucc
    exact ⟨t, run, hsucc, hlen ▸ holen, htree, helse⟩
  · exact runCommand_of_error prepOk_id h (opPack_of_unknown ⟨b, hb, hnone⟩)

/-! ## UNPACK -/

theorem opUnpack_of_bits (h : tokensBits 8 (splitTokens input) = .ok bits) :
    opUnpack s input = walk s.nodes 0 0 bits := by
  rw [opUnpack, facadeWidth, h]

theorem opUnpack_of_error (h : tokensBits 8 (splitTokens input) = .error c) : opUnpack s input = .error c := by
  rw [opUnpack, facadeWidth, h]

/-- On the wire text of a list of numbers UNPACK walks their bits (45_path_commands R129). -/
theorem opUnpack_hexTokens (s : State) (hne : vals ≠ []) (h : ∀ v ∈ vals, v < 256) :
    opUnpack s ([sep].intercalate (vals.map hexToken)) = walk s.nodes 0 0 (vals.flatMap (valBits 8)) := by
  refine opUnpack_of_bits ?_
  rw [splitTokens_intercalate (by simpa using hne) (hexTokens_sep_free h)]
  exact tokensBits_hexTokens fun v hv => ⟨h v hv, h v hv⟩

theorem opUnpack_of_bad_token (s : State) (hfree : ∀ u ∈ toks, sep ∉ u) {tok : Token} (hmem : tok ∈ toks)
    (hbad : ¬ IsHexToken tok) : opUnpack s ([sep].intercalate toks) = .error .malformedToken := by
  refine opUnpack_of_error ?_
  rw [splitTokens_intercalate (List.ne_nil_of_mem hmem) hfree]
  exact tokensBits_eq_error_iff.2 ⟨rfl, tok, hmem, two_pow_le_tokenVal (.inl hbad)⟩

/-- Settles O48: by what UNPACK answers on bits with a walk, on bits without one, and on a token that is no hex token. -/
theorem unpackDecodesTheWireText : Obligations.UnpackDecodesTheWireText := by
  refine ⟨rfl, fun s vals out r hne hvals h hwalks => ?_, fun s vals hne hvals h hno => ?_,
    fun s toks tok _ hfree h hmem hbad => ?_⟩
  · exact runCommand_of_output prepOk_ensureTree h
      ((opUnpack_hexTokens _ hne hvals).trans (walk_eq_ok_iff.2 hwalks))
  · exact runCommand_of_error prepOk_ensureTree h ((opUnpack_hexTokens _ hne hvals).trans (walk_of_not_walks hno))
  · exact runCommand_of_error prepOk_ensureTree h (opUnpack_of_bad_token _ hfree hmem hbad)

/-! ## PACK and its chain -/

theorem opTobits_eq_error_iff : opTobits s input = .error c ↔ codeBits s.inst.codeTable input = .error c := by
  rw [opTobits]
  cases codeBits s.inst.codeTable input <;> simp

/-- TOBITS answers the codes' bits (42_bit_packer R110). -/
theorem exists_codeBits_of_opTobits (h : opTobits s input = .ok (out, r)) :
    ∃ bits, codeBits s.inst.codeTable input = .ok bits ∧ out = serBits bits := by
  cases hbits : codeBits s.inst.codeTable input with
  | error e => cases h.symm.trans (opTobits_eq_error_iff.2 hbits)
  | ok bits =>
    rw [opTobits, hbits] at h
    cases h
    exact ⟨bits, rfl, rfl⟩

/-- Where the four computations of the chain answer, PACK's answers the last output (45_path_commands R128). -/
theorem opPack_of_chain {s1 s2 s3 : State} {x b ch h w : List Byte} {r0 r1 r2 r3 : Nat} (hw1 : s1.width = 8)
    (hw2 : s2.width = 8) (htobits : opTobits s x = .ok (b, r0)) (hchunk : opChunk s1 b = .ok (ch, r1))
    (htohex : opTohex s2 ch = .ok (h, r2)) (htokjoin : opTokjoin s3 h = .ok (w, r3)) : opPack s x = .ok (w, 0) := by
  obtain ⟨bits, hbits, rfl⟩ := exists_codeBits_of_opTobits htobits
  cases hchunk.symm.trans (opChunk_serBits s1 bits)
  obtain ⟨chunks, hserial, hchunks, rfl⟩ := exists_serChunks_of_opTohex htohex
  cases htokjoin.symm.trans (opTokjoin_tokensForm s3 (hexTokens_short _))
  obtain ⟨p, hp, -, hpad⟩ := exists_padBits_eq s1.width bits s1.width_pos
  have hflat := (serBits_injective hserial).symm.trans hpad
  rw [hw2] at hchunks
  rw [opPack_of_bits hbits, wireText_eq_intercalate (hw1 ▸ hp) hchunks hflat]

/-- Settles O49: by the chain of the computations; the last output fits OBUF, as TOKJOIN's does. -/
theorem packEqualsItsChain : Obligations.PackEqualsItsChain := by
  constructor
  · intro s0 s1 s2 s3 t0 t1 t2 t3 x b c h w hw1 hw2 hsize hx run0 hs0 hb run1 hs1 hc run2 hs2 hh run3 hs3
    obtain ⟨_, htobits⟩ := output_of_succeeds prepOk_id hx run0 hs0
    obtain ⟨_, hchunk⟩ := output_of_succeeds prepOk_id hb run1 hs1
    obtain ⟨_, htohex⟩ := output_of_succeeds prepOk_id hc run2 hs2
    obtain ⟨_, htokjoin⟩ := output_of_succeeds prepOk_id hh run3 hs3
    have hfit := length_le_of_succeeds prepOk_id hh run3 hs3
    obtain ⟨fits, -⟩ := runCommand_of_output prepOk_id hx (opPack_of_chain hw1 hw2 htobits hchunk htohex htokjoin)
    obtain ⟨t, run, hsucc, -⟩ := fits (hfit.trans hsize)
    exact ⟨t, run, hsucc⟩
  · intro s t0 x hx run hfails
    have hcodes := opTobits_eq_error_iff.1 (error_of_fails prepOk_id hx run hfails (by decide))
    obtain ⟨-, hunknown⟩ := codeBits_eq_error_iff.1 hcodes
    obtain ⟨t, run', hfails', -⟩ := runCommand_of_error prepOk_id hx (opPack_of_unknown hunknown)
    exact ⟨t, run', hfails'⟩

/-! ## UNPACK and its chain -/

theorem SameTree.symm (h : SameTree s t) : SameTree t s := by
  obtain ⟨hnodes, hcount, hvalid⟩ := h
  exact ⟨hnodes.symm, hcount.symm, hvalid.symm⟩

theorem SameTree.trans (h : SameTree s t) (h' : SameTree t u) : SameTree s u := by
  obtain ⟨hnodes, hcount, hvalid⟩ := h
  obtain ⟨hnodes', hcount', hvalid'⟩ := h'
  exact ⟨hnodes'.trans hnodes, hcount'.trans hcount, hvalid'.trans hvalid⟩

/-- EnsureTree reads the tree and the parameters only (44_decoding_tree R123). -/
theorem SameTree.ensureTree (h : SameTree s t) (hinst : t.inst = s.inst) : SameTree (ensureTree s) (ensureTree t) := by
  have ⟨hnodes, _, hvalid⟩ := h
  cases hv : s.treeValid with
  | true => rwa [ensureTree_of_valid hv, ensureTree_of_valid (hvalid.trans hv)]
  | false =>
    rw [ensureTree_of_invalid hv, ensureTree_of_invalid (hvalid.trans hv), hinst, hnodes]
    exact ⟨rfl, rfl, rfl⟩

/-- After TOKSPLIT FROMHEX answers the form of the bits of the text's tokens, or their error (45_path_commands R130). -/
theorem opFromhex_after_toksplit {s1 : State} (hw1 : s1.width = 8) (htoksplit : opToksplit s input = .ok (out, r)) :
    opFromhex s1 out = (tokensBits 8 (splitTokens input)).map fun bits => (serBits bits, 0) := by
  obtain ⟨hshort, rfl⟩ := short_of_opToksplit htoksplit
  simp only [opFromhex, parseTokens_tokensForm hshort, hw1]
  cases tokensBits 8 (splitTokens input) <;> rfl

/-- JOIN answers its own input (42_bit_packer R113). -/
theorem opJoin_output_eq (h : opJoin s input = .ok (out, r)) : out = input := by
  obtain ⟨bits, rfl, -, rfl⟩ := exists_serBits_of_opJoin h
  rfl

/-- From the same tree UNPACK of a text and DECODE of its tokens' bits have one result and leave one tree
(45_path_commands R129, R130). -/
theorem unpack_eq_decode {s' t' : State} (htree : SameTree s s') (hinst : s'.inst = s.inst)
    (hbits : tokensBits 8 (splitTokens input) = .ok bits) (h : HasInput s input) (h' : HasInput s' (serBits bits))
    (run : exec .decode s' = .next t') :
    ∃ t, exec .unpack s = .next t ∧ SameTree t' t ∧ (∀ out r, Succeeds t' out r → Succeeds t out r) ∧
      (∀ c, Fails t' c → Fails t c) := by
  have hensured := htree.ensureTree hinst
  have ⟨hnodes, _, _⟩ := hensured
  have hop : opDecode (ensureTree s') (serBits bits) = opUnpack (ensureTree s) input := by
    rw [opDecode_serBits, opUnpack_of_bits hbits, hnodes]
  have hdecode := runCommand_of_hasInput (prep := ensureTree) (op := opDecode) h'
  rw [hop, hinst] at hdecode
  cases run.symm.trans hdecode
  exact ⟨_, runCommand_of_hasInput h,
    ((commit_sameTree _ _).symm.trans hensured.symm).trans (commit_sameTree _ _),
    fun _ _ => commit_succeeds_congr, fun _ => commit_fails_congr⟩

/-- Settles O50: the chain's bits are those UNPACK walks, and where FROMHEX meets a malformed token UNPACK does too. -/
theorem unpackEqualsItsChain : Obligations.UnpackEqualsItsChain := by
  constructor
  · intro s0 s1 s2 s3 t0 t1 t2 t3 x k f j hw1 _ htree hinst hx run0 hs0 hk run1 hs1 hf run2 hs2 hj run3
    obtain ⟨_, htoksplit⟩ := output_of_succeeds prepOk_id hx run0 hs0
    obtain ⟨_, hfromhex⟩ := output_of_succeeds prepOk_id hk run1 hs1
    obtain ⟨_, hjoin⟩ := output_of_succeeds prepOk_id hf run2 hs2
    obtain rfl := opJoin_output_eq hjoin
    rw [id_eq, opFromhex_after_toksplit hw1 htoksplit] at hfromhex
    cases hbits : tokensBits 8 (splitTokens x) with
    | error e =>
      rw [hbits] at hfromhex
      cases hfromhex
    | ok bits =>
      rw [hbits] at hfromhex
      cases hfromhex
      obtain ⟨t, run, hsame, hsucc, hfail⟩ := unpack_eq_decode htree hinst hbits hx hj run3
      exact ⟨fun out r hs => ⟨t, run, hsucc out r hs, hsame⟩, fun c hc => ⟨t, run, hfail c hc, hsame⟩⟩
  · intro s0 s1 t0 t1 x k hw1 hx run0 hs0 hk run1 hfails
    obtain ⟨_, htoksplit⟩ := output_of_succeeds prepOk_id hx run0 hs0
    have hfromhex := error_of_fails prepOk_id hk run1 hfails (by decide)
    rw [id_eq, opFromhex_after_toksplit hw1 htoksplit] at hfromhex
    cases hbits : tokensBits 8 (splitTokens x) with
    | error e =>
      rw [hbits] at hfromhex
      cases hfromhex
      obtain ⟨t, run, hfails', htree, -⟩ := runCommand_of_error prepOk_ensureTree hx (opUnpack_of_error hbits)
      have ⟨_, _, hvalid⟩ := htree
      exact ⟨exec_sameTree (i := .fromhex) nofun nofun nofun run1, t, run, hfails', htree,
        hvalid.trans (ensureTree_treeValid s0)⟩
    | ok bits =>
      rw [hbits] at hfromhex
      cases hfromhex

/-! ## The round trip -/

/-- On a tree of DEFAULT_TABLE the codes of a text and up to 7 zeros walk to the text and leave the zeros, which begin the
code of 'z' and are not all of it (10_state R46, 45_path_commands R131). -/
theorem walks_codes_padded (hspec : OfThisSpec s.inst) (htree : s.TreeOk) {text : List Byte} {codes : List Bits}
    (hcodes : List.Forall₂ (fun c k => lookup defaultTable c = some k) text codes) {p : Nat} (hp : p < 8) :
    Walks (ensureTree s).nodes 0 0 (codes.flatten ++ List.replicate p false) text p := by
  obtain ⟨-, -, hfree, -, -, -, -, hvalid⟩ := defaultTableProperties
  obtain ⟨paths, hentries⟩ := freshTree_treeOfEntries hvalid
  have hz : entry 0x7A (List.replicate 12 0) ∈ defaultTable := by decide
  have hcode : (entry 0x7A (List.replicate 12 0)).code = List.replicate p false ++ List.replicate (12 - p) false := by
    rw [← List.replicate_add, Nat.add_sub_cancel' (by omega)]
    rfl
  have hrest := hentries.walks_proper_prefix hfree hz hcode (by simp; omega)
  have hwalks := hentries.walks_codes hfree (code_ne_nil_of_valid hvalid) hcodes hrest
  rw [List.append_nil, List.length_replicate] at hwalks
  rw [walks_ensureTree_iff htree, freshTree_ofThisSpec hspec]
  exact hwalks

/-- The codes of a non-empty text are not empty (00_scope R9). -/
theorem flatten_codes_ne_nil {p : Instance} (hvalid : validInstance p = true) {text : List Byte} {codes : List Bits}
    (hcodes : List.Forall₂ (fun c k => lookup p.codeTable c = some k) text codes) (hne : text ≠ []) :
    codes.flatten ≠ [] := by
  cases hcodes with
  | nil => exact absurd rfl hne
  | cons hck _ =>
    obtain ⟨j, e, he, -, rfl, -⟩ := lookup_eq_some_iff.1 hck
    exact List.append_ne_nil_of_left_ne_nil (code_ne_nil_of_valid hvalid e (List.mem_of_getElem? he)) _

/-- Settles O51: UNPACK walks the chunks PACK made of the codes; the empty text is one empty token. -/
theorem unpackInvertsPack : Obligations.UnpackInvertsPack := by
  obtain ⟨-, -, -, -, -, -, -, hvalid⟩ := defaultTableProperties
  constructor
  · intro s s' t text wire codes hspec hspec' htree hne hcodes h run hs h'
    have ⟨htable, _, _, hibuf, _⟩ := hspec
    have ⟨_, _, _, _, hobuf⟩ := hspec'
    obtain ⟨p, chunks, hp, hmod, hchunks, hflat⟩ := exists_chunks_padBits codes.flatten
    have hpack := opPack_of_bits (s := s) (htable ▸ codeBits_of_codes hcodes)
    rw [wireText_eq_intercalate hp hchunks hflat] at hpack
    obtain ⟨_, hwire⟩ := output_of_succeeds prepOk_id h run hs
    cases hwire.symm.trans hpack
    have hbits : (chunks.map bitsVal).flatMap (valBits 8) = codes.flatten ++ List.replicate p false :=
      (flatMap_valBits_map_bitsVal hchunks).trans hflat
    have hvals : chunks.map bitsVal ≠ [] := by
      intro hnil
      rw [hnil] at hbits
      exact flatten_codes_ne_nil hvalid hcodes hne (List.append_eq_nil_iff.1 hbits.symm).1
    have hwalks := walks_codes_padded hspec' htree hcodes hp
    rw [← hbits] at hwalks
    obtain ⟨-, hunpack, -⟩ := unpackDecodesTheWireText
    obtain ⟨fits, -⟩ := hunpack s' _ text p hvals (bitsVal_lt_of_uniform hchunks) h' hwalks
    obtain ⟨-, hlen, -⟩ := h
    obtain ⟨t', run', hsucc, -⟩ := fits (by omega)
    exact ⟨t', p, run', Nat.le_of_lt_succ hp, hmod, hsucc⟩
  · intro s h
    obtain ⟨fits, -⟩ := runCommand_of_output (r := 0) prepOk_id h (opPack_of_bits (codeBits_nil _))
    obtain ⟨t, run, hsucc, -⟩ := fits (Nat.zero_le _)
    obtain ⟨t', run', hfails, -⟩ := runCommand_of_error prepOk_ensureTree h
      (opUnpack_of_bad_token (toks := [[]]) _ (by simp) (List.mem_singleton_self _) nofun)
    exact ⟨⟨t, run, hsucc⟩, t', run', hfails⟩

end Sys2Proof.Machine
end

section
/-! PROOF. The errors and the interrupt output: what each command may commit in ERRCODE (60_exceptions R133), and what raises
and drops `irq` (60_exceptions R140). -/

namespace Sys2Proof.Machine

variable {s t : State}

/-! ## The error codes of each command -/

/-- Beside 0, OVERFLOW and BAD_LEN, which the shared shape of the reading commands commits, ERRCODE is the code of an error
of the command's own computation (40_command_framework R89, 60_exceptions R133). -/
theorem runCommand_errcode_mem (errs : List ErrorKind) {prep : State → State}
    {op : State → List Byte → CommandResult} {codes : List Nat} (hzero : 0 ∈ codes)
    (hcodes : ∀ c ∈ .overflow :: .badLen :: errs, (errorCode c).toNat ∈ codes)
    (hop : ∀ input c, op (prep s) input = .error c → c ∈ errs) (run : runCommand prep op s = .next t) :
    t.errcode.toNat ∈ codes := by
  rcases runCommand_errcode run with hsuccess | ⟨c, hc, hcause⟩
  · rwa [hsuccess]
  · rw [hc]
    refine hcodes c ?_
    rcases hcause with rfl | rfl | ⟨input, herr⟩
    · simp
    · simp
    · simp [hop input c herr]

/-- Settles O25: each command's own computation answers only the errors of its row, and the shared shape adds OVERFLOW and
BAD_LEN. -/
theorem commandsRaiseOnlyTheirErrors : Obligations.CommandsRaiseOnlyTheirErrors := by
  intro i s t run
  cases i with
  | build =>
    cases run
    exact List.mem_singleton_self 0
  | tobits =>
    exact runCommand_errcode_mem [.unknownCharacter] (by decide) (by decide)
      (fun _ _ h => List.mem_singleton.2 (opTobits_error h)) run
  | chunk =>
    exact runCommand_errcode_mem [.malformedBits] (by decide) (by decide)
      (fun _ _ h => List.mem_singleton.2 (opChunk_error h)) run
  | join =>
    exact runCommand_errcode_mem [.malformedChunk] (by decide) (by decide)
      (fun _ _ h => List.mem_singleton.2 (opJoin_error h)) run
  | tohex =>
    exact runCommand_errcode_mem [.malformedChunk] (by decide) (by decide)
      (fun _ _ h => List.mem_singleton.2 (opTohex_error h)) run
  | fromhex =>
    exact runCommand_errcode_mem [.malformedList, .malformedToken] (by decide) (by decide)
      (fun _ _ h => List.mem_pair.2 (opFromhex_error h)) run
  | tokjoin =>
    exact runCommand_errcode_mem [.malformedList] (by decide) (by decide)
      (fun _ _ h => List.mem_singleton.2 (opTokjoin_error h)) run
  | toksplit =>
    exact runCommand_errcode_mem [.overflow] (by decide) (by decide)
      (fun _ _ h => List.mem_singleton.2 (opToksplit_error h)) run
  | decode =>
    exact runCommand_errcode_mem [.malformedBits, .noPath] (by decide) (by decide)
      (fun _ _ h => List.mem_pair.2 ((opDecode_error h).imp_right fun ⟨_, hc, _⟩ => hc)) run
  | pack =>
    exact runCommand_errcode_mem [.unknownCharacter] (by decide) (by decide)
      (fun _ _ h => List.mem_singleton.2 (opPack_error h)) run
  | unpack =>
    exact runCommand_errcode_mem [.malformedToken, .noPath] (by decide) (by decide)
      (fun _ _ h => List.mem_pair.2 ((opUnpack_error h).imp_right fun ⟨_, hc, _⟩ => hc)) run

/-! ## The interrupt output -/

theorem irq_iff : s.irq = true ↔ s.ie = true ∧ s.done = true := by rw [State.irq, Bool.and_eq_true]

theorem irq_of_done (h : s.done = true) : s.irq = s.ie := by rw [State.irq, h, Bool.and_true]

theorem irq_of_not_done (h : s.done = false) : s.irq = false := by rw [State.irq, h, Bool.and_false]

theorem irq_of_not_enabled (h : s.ie = false) : s.irq = false := by rw [State.irq, h, Bool.false_and]

/-- A completion sets DONE and keeps IE (40_command_framework R90). -/
theorem exec_irq {i : Instr} (run : exec i s = .next t) : t.irq = s.ie := by
  obtain ⟨⟨-, hie, -⟩, hdone, -⟩ := exec_frame run
  rw [irq_of_done hdone, hie]

/-- Settles O21: a completion sets DONE, a start and an acknowledge clear it, and the write to CTRL clears IE. -/
theorem interruptFollowsEnableAndDone : Obligations.InterruptFollowsEnableAndDone := by
  refine ⟨fun _ => irq_iff, fun _ _ _ => exec_irq, fun s t v idle hstart => ?_, fun s t hack => ?_, fun s t hctrl => ?_⟩
  · rw [busWrite_cmd_idle v idle] at hstart
    cases hstart
    exact irq_of_not_done rfl
  · rw [busWrite_status] at hack
    cases hack
    exact irq_of_not_done (Bool.and_false s.done)
  · rw [busWrite_reg s 0 (by decide) rfl] at hctrl
    cases hctrl
    exact irq_of_not_enabled rfl

end Sys2Proof.Machine
end

section
/-! PROOF. Reset and the hazards of a busy block: the values and the invariant after reset (70_reset_and_hazards R149), and what
the host reads while a command is in progress (70_reset_and_hazards R152). -/

namespace Sys2Proof.Machine

variable {s : State}

/-! ## The invariant after reset -/

/-- A reset of a block that is just reset changes nothing. -/
theorem resetBlock_resetOf (p : Instance) : (State.resetOf p).resetBlock = State.resetOf p := rfl

theorem resetOf_inv (p : Instance) : (State.resetOf p).Inv := resetBlock_resetOf p ▸ resetBlock_inv (State.resetOf p)

/-- Settles O53: a reset establishes the invariant from any state, and the reset state is what it leaves. -/
theorem invariantHoldsAfterReset : Obligations.InvariantHoldsAfterReset :=
  ⟨resetOf_inv defaultInstance, fun p _ => resetOf_inv p⟩

/-! ## The values after reset -/

/-- The table registers show the entry TBL_SEL selects (10_state R37, R38). -/
theorem reads_table_of_selected {e : Entry} (h : s.inst.codeTable[s.tblSel.toNat]? = some e) :
    Reads s 0x34 ((BitVec.ofNat 32 e.code.length <<< 8) ||| e.char.setWidth 32) ∧
    Reads s 0x38 (BitVec.ofNat 32 (bitsVal e.code)) := by
  have hdata : s.tblDataWord = (BitVec.ofNat 32 e.code.length <<< 8) ||| e.char.setWidth 32 := by rw [State.tblDataWord, h]
  have hcode : s.tblCodeWord = BitVec.ofNat 32 (bitsVal e.code) := by rw [State.tblCodeWord, h]
  exact ⟨hdata ▸ reads_of_specified (by decide) rfl rfl, hcode ▸ reads_of_specified (by decide) rfl rfl⟩

/-- Reset selects entry 0 of the table and leaves the block idle, so every register shows its field's reset value. -/
theorem resetBlock_resetValues (s : State) : ResetValues s.inst s.resetBlock := by
  have hreg : ∀ off, off < 0x100 → off % 4 = 0 → Reads s.resetBlock off (s.resetBlock.regWord (regAt off)) :=
    fun _ => reads_reg rfl
  have hstatus : s.resetBlock.statusWord = 0 := by simp [State.statusWord, State.err, flagAt]
  obtain ⟨hreserved, hnone⟩ := reservedOffsetsReadZeroAndIgnoreWrites
  exact ⟨rfl, hreg 0x00 (by decide) rfl, hreg 0x04 (by decide) rfl, hreg 0x08 (by decide) rfl, hreg 0x0C (by decide) rfl,
    hstatus ▸ hreg 0x10 (by decide) rfl, hreg 0x14 (by decide) rfl, hreg 0x18 (by decide) rfl, hreg 0x1C (by decide) rfl,
    hreg 0x20 (by decide) rfl, hreg 0x24 (by decide) rfl, hreg 0x28 (by decide) rfl, hreg 0x2C (by decide) rfl,
    hreg 0x30 (by decide) rfl, fun _ he => reads_table_of_selected he,
    fun off hlow hhigh ha => (hnone s.resetBlock off 0 hlow hhigh ha).1,
    fun off hres _ => (hreserved s.resetBlock 32 off 0 hres).1,
    rfl, rfl, rfl, rfl, fun _ => rfl, fun _ => rfl, rfl⟩

/-- Settles O8: the turn is the reset's, whatever the block is doing, and a reset leaves the values of R149. -/
theorem resetGivesEveryPieceItsValue : Obligations.ResetGivesEveryPieceItsValue := by
  obtain ⟨-, -, hdata, hcode⟩ := tableRegistersShowTheSelectedEntry
  refine ⟨fun s rest hvalid hturns => ⟨_, step_of_turns_cons hvalid hturns, ?_⟩, resetBlock_resetValues State.reset,
    reads_of_specified (by decide) rfl rfl, hdata, hcode⟩
  exact resetBlock_resetValues { s with turns := rest }

/-! ## Reads while busy -/

/-- The offsets of OLEN, RESID, NODE_COUNT and NODE_DATA are those of the reads that are unspecified while busy
(70_reset_and_hazards R152). -/
theorem unspecifiedWhileBusy_regAt_iff {off : Nat} :
    (regAt off).unspecifiedWhileBusy = true ↔ off = 0x18 ∨ off = 0x1C ∨ off = 0x20 ∨ off = 0x28 := by
  by_cases hnone : 0x3C ≤ off
  · rw [regAt_eq_none hnone]
    exact iff_of_false Bool.false_ne_true (by omega)
  · have hlow : ∀ o < 0x3C, (regAt o).unspecifiedWhileBusy = true ↔ o = 0x18 ∨ o = 0x1C ∨ o = 0x20 ∨ o = 0x28 := by
      decide
    exact hlow off (by omega)

/-- A read that is unspecified answers the next free value and counts it (log entry 6). -/
theorem readReg_unspecified (busy : s.busy = true) {r : Reg} (h : r.unspecifiedWhileBusy = true) :
    readReg r s = (Config.freeWord s.draws, s.drawn) := by simp [readReg, busy, h]

theorem readObuf_busy (busy : s.busy = true) (i : Nat) :
    readObuf i s = .next ((Config.freeByte s.draws).setWidth 32, s.drawn) := by simp [readObuf, busy]

/-- Of STATUS's fields only BUSY and TREE_VALID can be set while busy. -/
theorem statusWord_busy (busy : s.busy = true) (h : s.StatusOk) : s.statusWord = if s.treeValid then 9 else 1 := by
  obtain ⟨hbusy, -, -⟩ := h
  obtain ⟨hdone, herrcode⟩ := hbusy busy
  rw [State.statusWord, State.err, busy, hdone, herrcode]
  cases s.treeValid <;> rfl

/-- Settles O18: four registers and OBUF draw a free value, and any other register shows its word. -/
theorem readsWhileBusy : Obligations.ReadsWhileBusy := by
  intro s busy
  refine ⟨fun off hoff => ?_, fun i hi hi' => ?_, fun off hoff ha holen hresid hcount hdata => ?_, fun hstatus => ?_⟩
  · rw [busRead_reg s (by omega) (by omega), readReg_unspecified busy (unspecifiedWhileBusy_regAt_iff.2 hoff)]
    rfl
  · rw [busRead_obuf s hi hi', readObuf_busy busy]
    rfl
  · exact reads_of_specified hoff ha (Bool.eq_false_iff.2 fun h => by
      have := unspecifiedWhileBusy_regAt_iff.1 h
      omega)
  · rw [← statusWord_busy busy hstatus]
    exact reads_of_specified (by decide) rfl rfl

end Sys2Proof.Machine
end
